-- ==== Sys2Proof/Word.lean ====
section
/-! DEFINITION. The words of JSQ-PB v1 (spec/30_encoding.md R91, R100, R108) and its smallest data:
a Symbol, a Pixel, one sample of the two buttons. -/

namespace Sys2Proof

/-- A command word `cmd[63:0]` or a response word `rsp[63:0]` (R91, R100). -/
abbrev Word64 := BitVec 64

/-- The LED word `g ‖ r ‖ b`, 24 bits (R108). -/
abbrev LedWord := BitVec 24

/-- "Binary value ∈ {BLUE, RED}" (R18). Its 1-bit code is `Symbol.bit` (R40). -/
inductive Symbol where
  | blue
  | red
  deriving DecidableEq, Repr, Inhabited

/-- One element of PIXBUF: "three 8-bit channel intensities (Red, Green, Blue)" (R35, R61). -/
structure Pixel where
  r : BitVec 8
  g : BitVec 8
  b : BitVec 8
  deriving DecidableEq, Repr, Inhabited

/-- The levels of `btn_a_n` and `btn_b_n` at one instant (R14): `false` is 0 (low, pressed),
`true` is 1 (high, released). -/
structure Sample where
  aN : Bool
  bN : Bool
  deriving DecidableEq, Repr, Inhabited

/-- "With no button pressed both read 1" (R14). -/
def Sample.released : Sample := ⟨true, true⟩

end Sys2Proof
end

