-- ==== Sys2Proof/Config.lean ====
section
/-! DEFINITION. The implementation parameters of spec/00_scope.md R7: the OPEN ones and the two that
42_button.md R173 asks to keep as configuration are fields of `Config`, the FIXED ones are constants;
and the free values, constants with no body. -/

namespace Sys2Proof

/-- The parameters a machine is built with (R7). A machine carries its own in `State.cfg`, which no
step changes; what is stated for every state is thereby stated for every configuration (log 1). -/
structure Config where
  /-- BRIGHTNESS, 0..150. -/
  brightness : Nat
  /-- SYSCLK_HZ, 1000 ≤ SYSCLK_HZ < 2^32. -/
  sysclkHz : Nat
  /-- PWM_CLKDIV, 1..255. -/
  pwmClkdiv : Nat
  /-- ENGINES, 0..255. -/
  engines : Nat
  /-- LED_FIFO_DEPTH, at least 1. -/
  ledFifoDepth : Nat
  /-- T0H_NS, 0 < T0H_NS < T1H_NS. -/
  t0hNs : Nat
  /-- T1H_NS, T0H_NS < T1H_NS < 1250. -/
  t1hNs : Nat
  /-- T_LATCH_NS, above 1250. -/
  tLatchNs : Nat
  /-- POLL_CYCLES, at least 1. -/
  pollCycles : Nat
  /-- SYM_A, the symbol of button A (R173). -/
  symA : Symbol
  /-- SYM_B, the symbol of button B (R173). -/
  symB : Symbol
  deriving DecidableEq, Repr

namespace Config

/-- The worked values of the spec: R7's worked and default values, and for the parameters to which R7
gives none (LED_FIFO_DEPTH, T0H_NS, T1H_NS, T_LATCH_NS) those at the head of 95_test_vectors.md. (log 1) -/
def worked : Config where
  brightness := 20
  sysclkHz := 125000000
  pwmClkdiv := 1
  engines := 1
  ledFifoDepth := 4
  t0hNs := 400
  t1hNs := 800
  tLatchNs := 280000
  pollCycles := 1
  symA := .blue
  symB := .red

/-- The ranges of R7. "A configuration outside the range is refused" (93_implementation_defined.md U16). -/
def wf (c : Config) : Bool :=
  decide (c.brightness ≤ 150) &&
  decide (1000 ≤ c.sysclkHz) && decide (c.sysclkHz < 2 ^ 32) &&
  decide (1 ≤ c.pwmClkdiv) && decide (c.pwmClkdiv ≤ 255) &&
  decide (c.engines ≤ 255) &&
  decide (1 ≤ c.ledFifoDepth) &&
  decide (0 < c.t0hNs) && decide (c.t0hNs < c.t1hNs) && decide (c.t1hNs < 1250) &&
  decide (1250 < c.tLatchNs) &&
  decide (1 ≤ c.pollCycles)

/-- FREE VALUE (log 3): the number of clock cycles the k-th piece of work that is not a sleep takes,
"an unspecified finite number of cycles, zero or more, that no rule depends on" (R13, U14). -/
opaque freeCycles : Nat → Nat

/-- FREE VALUE (log 10): RESULT after reset, "unspecified" (R40, R271). -/
opaque unspecifiedResult : Symbol

end Config

/-! The FIXED parameters of R7. -/

/-- LED_COUNT. -/
def ledCount : Nat := 25
/-- BRIGHT_DIV: "divisor 150 is a design constant, not 255". -/
def brightDiv : Nat := 150
/-- SEQ_CAP. -/
def seqCap : Nat := 100
/-- TONE_GAP_MS. -/
def toneGapMs : Nat := 50
/-- FEEDBACK_HZ. -/
def feedbackHz : Nat := 500
/-- FEEDBACK_MS. -/
def feedbackMs : Nat := 100
/-- DEBOUNCE_MS. -/
def debounceMs : Nat := 200
/-- T_BIT_NS = 10^9 / LED_BIT_RATE, LED_BIT_RATE = 800,000 (R7, R130). -/
def tBitNs : Nat := 1250
/-- Bits of an LED word (R108). -/
def ledWordBits : Nat := 24
/-- A word is 24 cells back to back, 30,000 ns (R133). -/
def ledWordNs : Nat := 30000
/-- The condition of R133, "SYSCLK_HZ >= 1,000,000 so that a push is shorter than a word" (40_led.md). -/
def pushHz : Nat := 1000000
/-- Nanoseconds in a second. -/
def nsPerSec : Nat := 1000000000

end Sys2Proof
end

