-- ==== Sys2Proof/Syntax.lean ====
section
/-! DEFINITION. The ten commands of JSQ-CMD64 v1 (spec/30_encoding.md R90, R94) as syntax. -/

namespace Sys2Proof

/-- The selectors of GET (10_state.md R44), one constructor each: a reserved selector is no `Selector`. -/
inductive Selector where
  | status | pwmCsr | pwmTop | pwmLevel | pwmCtr | ledCsr | result | seqlen | pixbuf | seqbuf
  deriving DecidableEq, Repr

/-- "Element index in its `d` field where the row says so" (R44): only PIXBUF and SEQBUF take one. -/
def Selector.indexed : Selector → Bool
  | .status | .pwmCsr | .pwmTop | .pwmLevel | .pwmCtr | .ledCsr | .result | .seqlen => false
  | .pixbuf | .seqbuf => true

/-- The commands, one constructor per row of spec/opcode_table.json, operands as R93 gives them:
unsigned integers of their field's width. -/
inductive Instr where
  | ledinit (pin : BitVec 8)
  | setpix (index r g b : BitVec 8)
  | clear
  | write
  | pwminit (pin : BitVec 8)
  | tone (pin : BitVec 8) (frequencyHz : BitVec 32) (durationMs : BitVec 16)
  | readsym
  | readseq (length : BitVec 16)
  | delay (ms : BitVec 16)
  | get (sel : Selector) (idx : BitVec 16)
  deriving DecidableEq, Repr

end Sys2Proof
end

