-- ==== Sys2Proof/WellFormed.lean ====
section
/-! DEFINITION. Which terms of `Instr` are commands. The operand widths are in the types; the one check
left is that of spec/30_encoding.md R106. -/

namespace Sys2Proof

/-- "With a selector 0x00 to 0x07 the `d` field is unused and must be zero" (R106, R192). Every other term
is the meaning of some word: an operand out of range (a pixel index of 25) is no ill-formed command but
one that faults (R107). -/
def Instr.wellFormed : Instr → Bool
  | .get sel idx => sel.indexed || idx == 0
  | .ledinit _ | .setpix _ _ _ _ | .clear | .write | .pwminit _ | .tone _ _ _
  | .readsym | .readseq _ | .delay _ => true

end Sys2Proof
end

