-- ==== Sys2Proof/Decode.lean ====
section
/-! DEFINITION. Decoding of a command word (spec/30_encoding.md R91 to R96, R105, R106), total, rejecting
by name, and the encoder. -/

namespace Sys2Proof

/-! ## The four fields (R91) -/

/-- `op = cmd[63:56]`. -/
def opField (c : Word64) : BitVec 8 := c.extractLsb' 56 8
/-- `p = cmd[55:48]`. -/
def pField (c : Word64) : BitVec 8 := c.extractLsb' 48 8
/-- `d = cmd[47:32]`. -/
def dField (c : Word64) : BitVec 16 := c.extractLsb' 32 16
/-- `w = cmd[31:0]`. -/
def wField (c : Word64) : BitVec 32 := c.extractLsb' 0 32

/-- The word with the four given fields (R91). -/
def fieldsWord (op p : BitVec 8) (d : BitVec 16) (w : BitVec 32) : Word64 := op ++ p ++ d ++ w

/-! ## The opcode map (R94) -/

/-- The ten rows of the opcode map. -/
inductive Opcode where
  | ledinit | setpix | clear | write | pwminit | tone | readsym | readseq | delay | get
  deriving DecidableEq, Repr

namespace Opcode

/-- Every row once. -/
def all : List Opcode :=
  [.ledinit, .setpix, .clear, .write, .pwminit, .tone, .readsym, .readseq, .delay, .get]

/-- The column `op` of R94. -/
def code : Opcode → BitVec 8
  | .ledinit => 0x10
  | .setpix => 0x11
  | .clear => 0x12
  | .write => 0x13
  | .pwminit => 0x20
  | .tone => 0x21
  | .readsym => 0x30
  | .readseq => 0x31
  | .delay => 0x40
  | .get => 0x41

/-- The column `match` of R94. -/
def matchWord : Opcode → Word64
  | .ledinit => 0x1000000000000000
  | .setpix => 0x1100000000000000
  | .clear => 0x1200000000000000
  | .write => 0x1300000000000000
  | .pwminit => 0x2000000000000000
  | .tone => 0x2100000000000000
  | .readsym => 0x3000000000000000
  | .readseq => 0x3100000000000000
  | .delay => 0x4000000000000000
  | .get => 0x4100000000000000

/-- The column `mask` of R94: a 1 in every opcode bit and in every bit of a field the command does not use. -/
def mask : Opcode → Word64
  | .ledinit => 0xFF00FFFFFFFFFFFF
  | .setpix => 0xFF00FFFFFF000000
  | .clear => 0xFFFFFFFFFFFFFFFF
  | .write => 0xFFFFFFFFFFFFFFFF
  | .pwminit => 0xFF00FFFFFFFFFFFF
  | .tone => 0xFF00000000000000
  | .readsym => 0xFFFFFFFFFFFFFFFF
  | .readseq => 0xFFFF0000FFFFFFFF
  | .delay => 0xFFFF0000FFFFFFFF
  | .get => 0xFF000000FFFFFFFF

/-- The row of an opcode byte, if it has one. -/
def ofCode (b : BitVec 8) : Option Opcode := all.find? fun o => o.code == b

end Opcode

/-! ## Selectors (10_state.md R44) -/

/-- The column `sel` of R44. -/
def Selector.code : Selector → BitVec 8
  | .status => 0x00
  | .pwmCsr => 0x01
  | .pwmTop => 0x02
  | .pwmLevel => 0x03
  | .pwmCtr => 0x04
  | .ledCsr => 0x05
  | .result => 0x06
  | .seqlen => 0x07
  | .pixbuf => 0x10
  | .seqbuf => 0x11

/-- Every selector once. -/
def Selector.all : List Selector :=
  [.status, .pwmCsr, .pwmTop, .pwmLevel, .pwmCtr, .ledCsr, .result, .seqlen, .pixbuf, .seqbuf]

/-- The selector of a `p` field, if it has one; "every selector other than 0x00 to 0x07, 0x10 and 0x11 is
reserved" (R106). -/
def Selector.ofCode (b : BitVec 8) : Option Selector := Selector.all.find? fun s => s.code == b

/-! ## The decoder (R96) -/

/-- Why a word is no command. Every one of these raises E_ILLEGAL (R96, R106). -/
inductive DecodeError where
  /-- The opcode byte is not one of the ten of R94. -/
  | reservedOpcode
  /-- A field the command does not use is non-zero (R105). -/
  | reservedBits
  /-- A GET of a selector R44 does not list (R106). -/
  | reservedSelector
  /-- A GET with a non-zero `d` field and a selector that takes no index (R106). -/
  | unusedIndex
  deriving DecidableEq, Repr

/-- The operands of a GET (R93), with the two checks of R106 that `match` and `mask` do not express. -/
def decodeGet (c : Word64) : Except DecodeError Instr :=
  match Selector.ofCode (pField c) with
  | none => .error .reservedSelector
  | some sel =>
    if sel.indexed || dField c == 0 then .ok (.get sel (dField c)) else .error .unusedIndex

/-- The operands of R93, "taken from its field without scaling, shifting or sign extension". -/
def decodeOperands (o : Opcode) (c : Word64) : Except DecodeError Instr :=
  match o with
  | .ledinit => .ok (.ledinit (pField c))
  | .setpix => .ok (.setpix (pField c) (c.extractLsb' 16 8) (c.extractLsb' 8 8) (c.extractLsb' 0 8))
  | .clear => .ok .clear
  | .write => .ok .write
  | .pwminit => .ok (.pwminit (pField c))
  | .tone => .ok (.tone (pField c) (wField c) (dField c))
  | .readsym => .ok .readsym
  | .readseq => .ok (.readseq (dField c))
  | .delay => .ok (.delay (dField c))
  | .get => decodeGet c

/-- The decoding algorithm of R96: the row of the opcode byte, then `c and mask = match`, then the operands. -/
def decode (c : Word64) : Except DecodeError Instr :=
  match Opcode.ofCode (opField c) with
  | none => .error .reservedOpcode
  | some o => if c &&& o.mask = o.matchWord then decodeOperands o c else .error .reservedBits

/-! ## The encoder -/

/-- The row of an instruction. -/
def Instr.opcode : Instr → Opcode
  | .ledinit _ => .ledinit
  | .setpix _ _ _ _ => .setpix
  | .clear => .clear
  | .write => .write
  | .pwminit _ => .pwminit
  | .tone _ _ _ => .tone
  | .readsym => .readsym
  | .readseq _ => .readseq
  | .delay _ => .delay
  | .get _ _ => .get

/-- The command word of an instruction: its opcode byte and its operands in their fields, every unused field
zero (R91 to R95). -/
def encode (i : Instr) : Word64 :=
  let op := i.opcode.code
  match i with
  | .ledinit pin => fieldsWord op pin 0 0
  | .setpix index r g b => fieldsWord op index 0 ((0 : BitVec 8) ++ r ++ g ++ b)
  | .clear => fieldsWord op 0 0 0
  | .write => fieldsWord op 0 0 0
  | .pwminit pin => fieldsWord op pin 0 0
  | .tone pin f ms => fieldsWord op pin ms f
  | .readsym => fieldsWord op 0 0 0
  | .readseq n => fieldsWord op 0 n 0
  | .delay ms => fieldsWord op 0 ms 0
  | .get sel idx => fieldsWord op sel.code idx 0

/-! ## The host's view -/

/-- The instruction the decoder reads from a table word of `nbits` bits: the command port carries one 64-bit
word, bit 0 its least significant bit (R10, R67), the bits from `nbits` up zero. -/
def decodeTableWord (nbits w : Nat) : Option Instr :=
  match decode (BitVec.ofNat 64 (w % 2 ^ nbits)) with
  | .ok i => some i
  | .error _ => none

end Sys2Proof
end

