-- ==== Sys2Proof/Machine/Operands.lean ====
section
/-! DEFINITION. What is computed from operands and stored values: the scaled write, the two values of a
tone, the length of a millisecond, and the packing of a pixel and of a symbol. -/

namespace Sys2Proof.Machine

/-- `Scale(c) = (c * BRIGHTNESS) div 150`, the product exact (40_led.md R122). -/
def scale (cfg : Config) (c : BitVec 8) : BitVec 8 :=
  BitVec.ofNat 8 (c.toNat * cfg.brightness / brightDiv)

/-- The pixel a scaled write stores: "the three channels are scaled independently" (R123). -/
def scaledPixel (cfg : Config) (r g b : BitVec 8) : Pixel where
  r := scale cfg r
  g := scale cfg g
  b := scale cfg b

/-- The pixel (0, 0, 0). -/
def darkPixel : Pixel where
  r := 0
  g := 0
  b := 0

/-- `TopOf(f) = (SYSCLK_HZ div f) - 1` (41_tone.md R152). -/
def topOf (cfg : Config) (f : Nat) : Nat := cfg.sysclkHz / f - 1

/-- `LevelOf(top) = (3 * top) div 4`, the product exact (R152). -/
def levelOf (top : Nat) : Nat := 3 * top / 4

/-- CYC_PER_MS = SYSCLK_HZ div 1000 (00_scope.md R7, 43_service.md R191). -/
def cycPerMs (cfg : Config) : Nat := cfg.sysclkHz / 1000

/-- The LED word of a pixel, `g ‖ r ‖ b` (20_memory.md R64, R65, R108). -/
def pixelLedWord (px : Pixel) : LedWord := px.g ++ px.r ++ px.b

/-- The 24 bits of an LED word in the order they are sent, bit 23 first (R65, R108). -/
def ledWordBitsInOrder (w : LedWord) : List Bool := (List.range ledWordBits).map w.getMsbD

/-- A pixel in a response: r in [23:16], g in [15:8], b in [7:0] (R66, R192). -/
def pixelData (px : Pixel) : BitVec 32 := (0 : BitVec 8) ++ px.r ++ px.g ++ px.b

/-- "Encoded BLUE = 0, RED = 1" (R40, R173). -/
def symbolBit : Symbol → BitVec 32
  | .blue => 0
  | .red => 1

/-- The Symbol of a sample, if it has an asserted input: "button A is checked first", so with both asserted
A wins (42_button.md R172, 90_conflicts.md C1). -/
def pressedSymbol (cfg : Config) (p : Sample) : Option Symbol :=
  if p.aN = false then some cfg.symA
  else if p.bN = false then some cfg.symB
  else none

end Sys2Proof.Machine
end

