-- ==== Sys2Proof/Machine/State.lean ====
section
/-! DEFINITION. The state of JSQ-PB v1 (spec/10_state.md R20 to R46) as plain data, the state after reset
(spec/70_reset_and_hazards.md R271), and the reasons a step can stop. -/

namespace Sys2Proof.Machine

/-- An element-addressed memory (20_memory.md R60): the elements that hold a value, by rising index.
An index that is not listed holds no value (log 9). Its canonical form is `Memory.wf`. -/
abbrev Memory (α : Type) := List (Nat × α)

/-- BTN_STATE (R39, R171). Its 3-bit codes are `BtnState.code`. -/
inductive BtnState where
  | idle | poll | fbTone | fbGap | debounce
  deriving DecidableEq, Repr

/-- TX_SHIFT (R37): `idle`, or word `w` is being sent and `n` bits (1..24) remain, the next one being
bit `n-1` of `w`. -/
inductive TxShift where
  | idle
  | sending (w : LedWord) (n : Nat)
  deriving DecidableEq, Repr

/-- The serial timing engine (R36, R37). -/
structure TxEngine where
  /-- TXQ, the word at the front first (R36). -/
  q : List LedWord
  /-- TX_SHIFT (R37). -/
  shift : TxShift
  /-- The model's own (log 5): nanoseconds of the current bit cell already elapsed. -/
  cellNs : Nat
  /-- TX_IDLE_NS (R37), saturating at T_LATCH_NS. -/
  idleNs : Nat
  deriving DecidableEq, Repr

/-- The events of the trace (R46). -/
inductive Event where
  | tonOn (top level : Nat)
  | tonOff
  | slept (ms : Nat)
  | ledWord (w : LedWord)
  | ledLatch
  | polled (aN bN : Bool)
  | rsp (word : Word64)
  deriving DecidableEq, Repr

/-- The faults of the block (60_exceptions.md R231). Their codes are `Err.code`. They are taken as the
spec says (R240), so none of them stops the model's machine. -/
inductive Err where
  | illegal | notInit | noEngine | freqZero | freqRange | index | seqLen | pin
  deriving DecidableEq, Repr

/-- What the passing of clock cycles changes: the two autonomous agents, the sleep timer and the
bookkeeping of time (R8, R17). -/
structure Clocked where
  /-- PWM_PRE (R29). -/
  pwmPre : BitVec 8
  /-- PWM_CTR (R31). -/
  pwmCtr : BitVec 32
  /-- TXQ, TX_SHIFT, TX_IDLE_NS (R36, R37). -/
  tx : TxEngine
  /-- SLP_CNT (R43). -/
  slpCnt : BitVec 39
  /-- The model's own (log 5): time not yet counted in whole nanoseconds, in units of 1/SYSCLK_HZ ns. -/
  nsFrac : Nat
  /-- The model's own (log 2): rising edges of `clk` since reset. -/
  now : Nat
  /-- The event trace, oldest event first (R46). -/
  trace : List Event
  deriving DecidableEq, Repr

/-- One assertion of `rst` by the environment (70_reset_and_hazards.md R270, log 12): it comes `cycle` rising edges of
`clk` after the last reset, at once, whatever runs then; `hold` further edges find `rst` still 1; and the host and the
buttons, whom a reset leaves free, supply these commands and samples after it. -/
structure ResetPulse where
  cycle : Nat
  hold : Nat
  pending : List Word64
  inputs : List Sample
  deriving DecidableEq, Repr

/-- What only the sequencer and the environment change. -/
structure Regs where
  /-- The parameters of the block (00_scope.md R7), fixed for a machine (log 1). -/
  cfg : Config
  /-- Input port `rst` (R21, R270, log 12). -/
  rst : Bool
  /-- The environment's (log 12): how many rising edges of `clk` find `rst` still 1 before its release is taken. -/
  rstHold : Nat
  /-- The environment's (log 12): the assertions of `rst` to come, the next one first. -/
  resets : List ResetPulse
  /-- The commands the host has still to issue; the first stands on `cmd_data` with `cmd_valid = 1` (R21, log 11). -/
  pending : List Word64
  /-- The samples the environment will supply, the next one first (R14, log 7). -/
  inputs : List Sample
  /-- Output port `rsp_valid` (R21, log 16). -/
  rspValid : Bool
  /-- Output port `rsp_data` (R21): 0 from reset on. "Valid when `rsp_valid = 1`"; that it keeps the last response word
  until the next one while `rsp_valid = 0` is the model's choice (log 16). -/
  rspData : Word64
  /-- BUSY (R24). -/
  busy : Bool
  /-- HALTED (R24). -/
  halted : Bool
  /-- FAULT (R24). -/
  fault : BitVec 4
  /-- FAULT_CMD (R24). -/
  faultCmd : Word64
  /-- The model's own (log 8): the read command that waits for a button, if one does. -/
  running : Option Instr
  /-- PWM_INIT (R26). -/
  pwmInit : Bool
  /-- PWM_PIN (R27). -/
  pwmPin : BitVec 8
  /-- PWM_EN (R28). -/
  pwmEn : Bool
  /-- PWM_DIV (R29). -/
  pwmDiv : BitVec 8
  /-- PWM_TOP (R30). -/
  pwmTop : BitVec 32
  /-- PWM_LEVEL (R30). -/
  pwmLevel : BitVec 32
  /-- LED_INIT (R32). -/
  ledInit : Bool
  /-- LED_PIN (R33). -/
  ledPin : BitVec 8
  /-- ENG_FREE (R34). -/
  engFree : BitVec 8
  /-- PIXBUF (R35, R61). -/
  pixbuf : Memory Pixel
  /-- BTN_STATE (R39). -/
  btnState : BtnState
  /-- BTN_REM (R39). -/
  btnRem : BitVec 7
  /-- RESULT (R40). -/
  result : Symbol
  /-- RESULT_VALID (R40). -/
  resultValid : Bool
  /-- SEQBUF (R41, R62). -/
  seqbuf : Memory Symbol
  /-- SEQLEN (R41). -/
  seqlen : BitVec 7
  /-- The command-stream index `cp` (R23). -/
  cp : Nat
  /-- The model's own (log 3): which free number of cycles is used next. -/
  freeIdx : Nat
  deriving DecidableEq, Repr

/-- The state of the block, its ports and the bookkeeping of R23 and R46. -/
structure State extends Regs, Clocked where
  deriving DecidableEq, Repr

/-- Where the model's machine stops. Both stops are the model's own (log 9), for an element that holds no
value, in states that no run from reset reaches (`State.Inv`): the block's own faults are halts (R240). -/
inductive Fault where
  /-- Raised by WRITE and by GET PIXBUF when LED_INIT = 1 and an element they read holds no value.
  Safe: the model stops where the block would go on. -/
  | unwrittenPixel
  /-- Raised by GET SEQBUF when an element below SEQLEN holds no value. Safe, as above. -/
  | unwrittenSymbol
  deriving DecidableEq, Repr

/-- What the model's machine refuses. -/
inductive Refusal where
  /-- Raised by an arm of `exec` that has no meaning yet; no arm of this model raises it. Safe. -/
  | notModelled (mnemonic : String)
  /-- Raised by every step of a machine whose configuration is outside the ranges of R7: "a configuration
  outside the range is refused" (93_implementation_defined.md U16, log 15); and by every step of the reference host on a
  block whose configuration does not meet 44_round_engine.md R217 (log 17). Safe. -/
  | badConfiguration
  deriving DecidableEq, Repr

/-- The timing engine after reset (R271): queue empty, shifter idle, line low "long enough". -/
def TxEngine.reset (cfg : Config) : TxEngine where
  q := []
  shift := .idle
  cellNs := 0
  idleNs := cfg.tLatchNs

/-- The block with the parameters `cfg` right after reset (R271). -/
def State.resetWith (cfg : Config) : State where
  cfg := cfg
  rst := false
  rstHold := 0
  resets := []
  pending := []
  inputs := []
  rspValid := false
  rspData := 0
  busy := false
  halted := false
  fault := 0
  faultCmd := 0
  running := none
  pwmInit := false
  pwmPin := 0
  pwmEn := false
  pwmDiv := 1
  pwmTop := 0
  pwmLevel := 0
  ledInit := false
  ledPin := 0
  engFree := BitVec.ofNat 8 cfg.engines
  pixbuf := []
  btnState := .idle
  btnRem := 0
  result := Config.unspecifiedResult
  resultValid := false
  seqbuf := []
  seqlen := 0
  cp := 0
  freeIdx := 0
  pwmPre := 0
  pwmCtr := 0
  tx := TxEngine.reset cfg
  slpCnt := 0
  nsFrac := 0
  now := 0
  trace := []

/-- The block with the worked configuration right after reset (R271, log 1). -/
def State.reset : State := State.resetWith Config.worked

end Sys2Proof.Machine
end

