-- ==== Sys2Proof/Machine/Flags.lean ====
section
/-! DEFINITION. Fault codes, flag and register words as GET returns them, and the output ports that are
functions of the state. -/

namespace Sys2Proof.Machine

/-- The codes of spec/60_exceptions.md R231; 0 is "no fault", 9 to 15 are never produced. -/
def Err.code : Err → BitVec 4
  | .illegal => 1
  | .notInit => 2
  | .noEngine => 3
  | .freqZero => 4
  | .freqRange => 5
  | .index => 6
  | .seqLen => 7
  | .pin => 8

/-- The codes of BTN_STATE (10_state.md R39, R171). -/
def BtnState.code : BtnState → BitVec 3
  | .idle => 0
  | .poll => 1
  | .fbTone => 2
  | .fbGap => 3
  | .debounce => 4

/-- A 1-bit register in bit 0 of a response. -/
def flagBit (b : Bool) : BitVec 32 := if b then 1 else 0

/-- What GET returns for the selectors that take no index (43_service.md R192, 10_state.md R44); "bits not
listed read as 0". PIXBUF and SEQBUF take an index and are read by `execGet`. -/
def registerData (s : State) : Selector → BitVec 32
  | .status =>
    flagBit s.ledInit ||| (flagBit s.pwmInit <<< 1) ||| (flagBit s.resultValid <<< 2) |||
      (s.engFree.setWidth 32 <<< 8)
  | .pwmCsr => flagBit s.pwmEn ||| (s.pwmDiv.setWidth 32 <<< 8) ||| (s.pwmPin.setWidth 32 <<< 16)
  | .pwmTop => s.pwmTop
  | .pwmLevel => s.pwmLevel
  | .pwmCtr => s.pwmCtr
  | .ledCsr => flagBit s.ledInit ||| (s.ledPin.setWidth 32 <<< 8)
  | .result => (if s.resultValid then symbolBit s.result else 0) ||| (flagBit s.resultValid <<< 8)
  | .seqlen => s.seqlen.setWidth 32
  | .pixbuf => 0
  | .seqbuf => 0

/-! ## Output ports (10_state.md R21) -/

/-- `cmd_ready`: "(not BUSY) and (not HALTED)", 0 while `rst = 1`. -/
def State.cmdReady (s : State) : Bool := !s.busy && !s.halted && !s.rst

/-- `cmd_valid`: the host presents a command. -/
def State.cmdValid (s : State) : Bool := !s.pending.isEmpty

/-- `rsp_valid`; 0 while `rst = 1` (70_reset_and_hazards.md R270). -/
def State.rspValidOut (s : State) : Bool := s.rspValid && !s.rst

/-- `rsp_data`, "valid when `rsp_valid = 1`"; 0 while `rst = 1` (R21). -/
def State.rspDataOut (s : State) : Word64 := if s.rst then 0 else s.rspData

/-- `halted`, "copy of HALTED"; 0 while `rst = 1` (R21). -/
def State.haltedOut (s : State) : Bool := s.halted && !s.rst

/-- `fault`, "copy of FAULT"; 0 while `rst = 1` (R21). -/
def State.faultOut (s : State) : BitVec 4 := if s.rst then 0 else s.fault

/-- `pwm_out = PWM_EN and (PWM_CTR < PWM_LEVEL)` (41_tone.md R157); 0 while `rst = 1` (R270). -/
def State.pwmOut (s : State) : Bool := s.pwmEn && decide (s.pwmCtr < s.pwmLevel) && !s.rst

/-- How long the line is high in the cell of a bit (40_led.md R132). -/
def highNs (cfg : Config) (bit : Bool) : Nat := if bit then cfg.t1hNs else cfg.t0hNs

/-- `led_dout`: high for the first part of a bit cell, low for the rest and while the shifter is idle
(R131, R132); 0 while `rst = 1` (R270). -/
def State.ledDout (s : State) : Bool :=
  match s.tx.shift with
  | .idle => false
  | .sending w n => decide (s.tx.cellNs < highNs s.cfg (w.getLsbD (n - 1))) && !s.rst

/-- The levels of `btn_a_n` and `btn_b_n` the next sample sees: the next one the environment supplies, or
both released (R14, log 7). -/
def State.buttons (s : State) : Sample := s.inputs.head?.getD .released

end Sys2Proof.Machine
end

