-- ==== Sys2Proof/Machine/Ops.lean ====
section
/-! DEFINITION. The operations the commands share: element memories, the PWM counter, the timing engine,
the passing of clock cycles, sleeping, the queue of the timing engine, responding, taking a fault, reset,
and accepting a command. -/

namespace Sys2Proof.Machine

/-! ## Element memories (20_memory.md R60 to R62, R68) -/

/-- `MemRead(space, i)` (00_scope.md R11): the element at an index, if it holds a value. -/
def Memory.read {α : Type} : Memory α → Nat → Option α
  | [], _ => none
  | (j, v) :: m, i => if i = j then some v else Memory.read m i

/-- `MemWrite(space, i, v)` (R11): one element, in one step (R68); keeps the indices rising. -/
def Memory.write {α : Type} : Memory α → Nat → α → Memory α
  | [], i, v => [(i, v)]
  | (j, u) :: m, i, v =>
    if i < j then (i, v) :: (j, u) :: m
    else if i = j then (i, v) :: m
    else (j, u) :: Memory.write m i v

/-- Indices strictly rising, none below `lo`, none at or above `size`. -/
def Memory.wfFrom {α : Type} (size : Nat) : Nat → Memory α → Bool
  | _, [] => true
  | lo, (i, _) :: m => decide (lo ≤ i) && decide (i < size) && Memory.wfFrom size (i + 1) m

/-- The canonical form of a memory of `size` elements. -/
def Memory.wf {α : Type} (size : Nat) (m : Memory α) : Bool := Memory.wfFrom size 0 m

/-- `v` written to each of the elements 0 to `n - 1`; those from `n` on stay. It is the same memory as `n` single writes
leave (`Memory.fill_eq_writes`). -/
def Memory.fill {α : Type} (n : Nat) (v : α) (m : Memory α) : Memory α :=
  (List.range n).map (fun i => (i, v)) ++ m.filter fun e => decide (n ≤ e.1)

/-- "for i in 0..24: MemWrite(PIXBUF, i, px)" (40_led.md R121, R125). -/
def fillPixels (px : Pixel) (m : Memory Pixel) : Memory Pixel := m.fill ledCount px

/-! ## The PWM counter (41_tone.md R156) -/

/-- One rising edge of `clk` with PWM_EN = 1 (R156): PWM_PRE and PWM_CTR after it. -/
def pwmEdge (div pre : BitVec 8) (top ctr : BitVec 32) : BitVec 8 × BitVec 32 :=
  if div.toNat ≤ pre.toNat + 1 then (0, if top ≤ ctr then 0 else ctr + 1)
  else (pre + 1, ctr)

/-- `k` rising edges with PWM_EN = 1, in closed form: a tick every `div` edges, the counter modulo
`top + 1`. It is the `k`-fold `pwmEdge`. -/
def pwmRun (k : Nat) (div pre : BitVec 8) (top ctr : BitVec 32) : BitVec 8 × BitVec 32 :=
  let period := max 1 div.toNat
  let edges := min pre.toNat (period - 1) + k
  let ticks := edges / period
  if ticks = 0 then (BitVec.ofNat 8 (pre.toNat + k), ctr)
  else (BitVec.ofNat 8 (edges % period),
        BitVec.ofNat 32 ((min ctr.toNat top.toNat + ticks) % (top.toNat + 1)))

/-! ## The timing engine (40_led.md R131 to R134) -/

/-- "When TX_SHIFT is `idle` and TXQ is not empty, it removes the front word `w` of TXQ, sets TX_SHIFT to
`(w, 24)`, and the model records `LedWord(w)`" (R131). The engine does so at once (log 6). -/
def txTake (t : TxEngine) : TxEngine × List Event :=
  match t.shift, t.q with
  | .idle, w :: q => ({ q := q, shift := .sending w ledWordBits, cellNs := 0, idleNs := 0 }, [.ledWord w])
  | _, _ => (t, [])

/-- One nanosecond of the engine (R131): inside a cell the cell goes on; at its end the next bit, or the
shifter goes idle and takes the next word; with no word the line stays low, TX_IDLE_NS grows up to
`latch` = T_LATCH_NS, and reaching it is recorded once (R134). -/
def txNs (latch : Nat) (t : TxEngine) : TxEngine × List Event :=
  match t.shift with
  | .sending w n =>
    if t.cellNs + 1 < tBitNs then ({ t with cellNs := t.cellNs + 1 }, [])
    else if 1 < n then ({ t with shift := .sending w (n - 1), cellNs := 0 }, [])
    else txTake { t with shift := .idle, cellNs := 0, idleNs := 0 }
  | .idle =>
    match t.q with
    | [] =>
      if latch ≤ t.idleNs then (t, [])
      else ({ t with idleNs := t.idleNs + 1 }, if t.idleNs + 1 = latch then [.ledLatch] else [])
    | w :: q => ({ q := q, shift := .sending w ledWordBits, cellNs := 1, idleNs := 0 }, [.ledWord w])

/-- `d` nanoseconds of the engine, one after the other. -/
def txTicks (latch : Nat) : Nat → TxEngine → TxEngine × List Event
  | 0, t => (t, [])
  | d + 1, t =>
    let now := txNs latch t
    let later := txTicks latch d now.1
    (later.1, now.2 ++ later.2)

/-- The engine idle with no word for `d` ns, the line low for `idle` ns before (R134). -/
def txIdleRun (latch idle d : Nat) : TxEngine × List Event :=
  if latch ≤ idle then ({ q := [], shift := .idle, cellNs := 0, idleNs := idle }, [])
  else if latch ≤ idle + d then ({ q := [], shift := .idle, cellNs := 0, idleNs := latch }, [.ledLatch])
  else ({ q := [], shift := .idle, cellNs := 0, idleNs := idle + d }, [])

/-- Nanoseconds until the end of a word with `n` bits to send, `cell` ns of the next one elapsed. -/
def wordLeft (n cell : Nat) : Nat := n * tBitNs - cell

/-- `d` ns of an engine that is sending `w`, in closed form, word by word. -/
def txSendRun (latch : Nat) (w : LedWord) (n cell d : Nat) : List LedWord → TxEngine × List Event
  | [] =>
    if d < wordLeft n cell then
      ({ q := [], shift := .sending w (n - (cell + d) / tBitNs), cellNs := (cell + d) % tBitNs, idleNs := 0 }, [])
    else txIdleRun latch 0 (d - wordLeft n cell)
  | w' :: q =>
    if d < wordLeft n cell then
      ({ q := w' :: q, shift := .sending w (n - (cell + d) / tBitNs), cellNs := (cell + d) % tBitNs, idleNs := 0 },
        [])
    else
      let later := txSendRun latch w' ledWordBits 0 (d - wordLeft n cell) q
      (later.1, .ledWord w' :: later.2)

/-- `d` ns of the engine in closed form. It is the `d`-fold `txNs` from every state the engine takes. -/
def txRun (latch d : Nat) (t : TxEngine) : TxEngine × List Event :=
  match t.shift, t.q with
  | .sending w n, q => txSendRun latch w n t.cellNs d q
  | .idle, [] => txIdleRun latch t.idleNs d
  | .idle, w :: q =>
    let later := txSendRun latch w ledWordBits 0 d q
    (later.1, .ledWord w :: later.2)

/-! ## The passing of clock cycles (00_scope.md R8, R13, R17) -/

/-- The registers only time changes, one rising edge of `clk` later. The LED timing is in nanoseconds (R130):
`nsFrac` carries what one cycle, 10^9/SYSCLK_HZ ns, leaves over (log 5). -/
def clockedEdge (r : Regs) (c : Clocked) : Clocked :=
  let pwm := if r.pwmEn then pwmEdge r.pwmDiv c.pwmPre r.pwmTop c.pwmCtr else (c.pwmPre, c.pwmCtr)
  let time := c.nsFrac + nsPerSec
  let led := txTicks r.cfg.tLatchNs (time / r.cfg.sysclkHz) c.tx
  { pwmPre := pwm.1
    pwmCtr := pwm.2
    tx := led.1
    slpCnt := BitVec.ofNat 39 (c.slpCnt.toNat - 1)
    nsFrac := time % r.cfg.sysclkHz
    now := c.now + 1
    trace := c.trace ++ led.2 }

/-- The registers only time changes, `k` rising edges later, in closed form. -/
def clockedRun (r : Regs) (k : Nat) (c : Clocked) : Clocked :=
  let pwm := if r.pwmEn then pwmRun k r.pwmDiv c.pwmPre r.pwmTop c.pwmCtr else (c.pwmPre, c.pwmCtr)
  let time := c.nsFrac + k * nsPerSec
  let led := txRun r.cfg.tLatchNs (time / r.cfg.sysclkHz) c.tx
  { pwmPre := pwm.1
    pwmCtr := pwm.2
    tx := led.1
    slpCnt := BitVec.ofNat 39 (c.slpCnt.toNat - k)
    nsFrac := time % r.cfg.sysclkHz
    now := c.now + k
    trace := c.trace ++ led.2 }

/-- One clock cycle in which the sequencer does nothing, edge rule by edge rule: what `advance` is held against
(`Obligations.AdvanceIsIteratedClockEdges`). -/
def clockEdge (s : State) : State := { s with toClocked := clockedEdge s.toRegs s.toClocked }

/-- `k` clock cycles in which the sequencer does nothing. -/
def advance (k : Nat) (s : State) : State := { s with toClocked := clockedRun s.toRegs k s.toClocked }

/-- `k` such cycles one after the other. -/
def clockEdges : Nat → State → State
  | 0, s => s
  | k + 1, s => clockEdges k (clockEdge s)

/-- The next free value is used (log 3). -/
def takeFree (s : State) : State := { s with freeIdx := s.freeIdx + 1 }

/-- The unspecified number of cycles a step that is no sleep takes (R13, U14): a free value (log 3). -/
def gap (s : State) : State :=
  advance (Config.freeCycles s.freeIdx) (takeFree s)

/-- Appends an event to the trace (R46). -/
def record (e : Event) (s : State) : State := { s with trace := s.trace ++ [e] }

/-- SLP_CNT gets `ms * CYC_PER_MS` cycles (R13, R43). -/
def setTimer (ms : Nat) (s : State) : State := { s with slpCnt := BitVec.ofNat 39 (ms * cycPerMs s.cfg) }

/-- The start of `Sleep(ms)`; `Slept(ms)` is recorded (R46). -/
def beginSleep (ms : Nat) (s : State) : State := record (.slept ms) (setTimer ms s)

/-- `Sleep(ms)` (R13): nothing but the clock until SLP_CNT has counted down to zero. -/
def sleep (ms : Nat) (s : State) : State :=
  advance (beginSleep ms s).slpCnt.toNat (beginSleep ms s)

/-! ## A tone (41_tone.md R154) -/

/-- "Sets wraparound", with the counter and the prescaler cleared (R154). -/
def setTop (top : Nat) (s : State) : State := { s with pwmTop := BitVec.ofNat 32 top, pwmCtr := 0, pwmPre := 0 }

/-- "Sets duty level" (R154). -/
def setLevel (level : Nat) (s : State) : State := { s with pwmLevel := BitVec.ofNat 32 level }

/-- The first half of `Tone(f, ms)`: the wraparound with a cleared counter, then the duty level, then `TonOn`.
"Between the write of PWM_TOP and the write of PWM_LEVEL the counter may tick" (R155). -/
def toneStart (f : Nat) (s : State) : State :=
  let top := topOf s.cfg f
  record (.tonOn top (levelOf top)) (setLevel (levelOf top) (gap (setTop top s)))

/-- "Then sets output level to 0"; `TonOff`. -/
def toneStop (s : State) : State := record .tonOff (setLevel 0 (gap s))

/-- `Tone(f, ms)` (R154). -/
def tone (f ms : Nat) (s : State) : State :=
  sleep toneGapMs (toneStop (sleep ms (toneStart f s)))

/-! ## Feeding the timing engine (00_scope.md R15) -/

/-- The cycles of a word: a push takes fewer "under the condition SYSCLK_HZ >= 1,000,000" (40_led.md R133, log 4). -/
def pushLimit (cfg : Config) : Nat := ledWordNs * cfg.sysclkHz / nsPerSec

/-- The free number of cycles of one push (R13, log 3): below `pushLimit` where R133's condition holds, any number
elsewhere. -/
def pushCycles (s : State) : Nat :=
  if pushHz ≤ s.cfg.sysclkHz then Config.freeCycles s.freeIdx % pushLimit s.cfg else Config.freeCycles s.freeIdx

/-- The least number of cycles in which `ns` nanoseconds pass. -/
def cyclesFor (s : State) (ns : Nat) : Nat :=
  (ns * s.cfg.sysclkHz - s.nsFrac + (nsPerSec - 1)) / nsPerSec

/-- Nanoseconds until the engine next goes to TXQ. -/
def engineBusyNs (t : TxEngine) : Nat :=
  match t.shift with
  | .idle => 0
  | .sending _ n => wordLeft n t.cellNs

/-- How long the sequencer waits for room: not at all while TXQ holds fewer than LED_FIFO_DEPTH words (R15). -/
def roomCycles (s : State) : Nat :=
  if s.tx.q.length < s.cfg.ledFifoDepth then 0 else cyclesFor s (engineBusyNs s.tx)

/-- "If TXQ holds LED_FIFO_DEPTH words the command sequencer waits until the timing engine has removed one" (R15). -/
def waitForRoom (s : State) : State := advance (roomCycles s) s

/-- Appends a word to TXQ; an idle engine takes it at once (R15, R131, log 6). -/
def enqueue (w : LedWord) (s : State) : State :=
  let t := txTake { s.tx with q := s.tx.q ++ [w] }
  { s with tx := t.1, trace := s.trace ++ t.2 }

/-- `TxPush(w)` (R15). -/
def txPush (w : LedWord) (s : State) : State :=
  enqueue w (waitForRoom (advance (pushCycles s) (takeFree s)))

/-! ## Responses and faults (30_encoding.md R100, 60_exceptions.md R240) -/

/-- The response word: `op`, `code`, twenty zeros, `data` (R100). -/
def responseWord (op : BitVec 8) (code : BitVec 4) (data : BitVec 32) : Word64 :=
  op ++ code ++ (0 : BitVec 20) ++ data

/-- The response word on the port, BUSY = 0 (R21, R24). -/
def presentResponse (w : Word64) (s : State) : State :=
  { s with rspValid := true, rspData := w, busy := false, running := none }

/-- The end of a command: its response word on the port, BUSY = 0, `Rsp` in the trace (R21, R24, R46, R100). -/
def respond (w : Word64) (s : State) : State := record (.rsp w) (presentResponse w s)

/-- `cp` counts a completion (R23). -/
def countCompletion (s : State) : State := { s with cp := s.cp + 1 }

/-- The completion of a command: code 0, `cp` goes on (R23, R100). -/
def complete (i : Instr) (data : BitVec 32) (s : State) : State :=
  respond (responseWord i.opcode.code 0 data) (countCompletion (gap s))

/-- The three registers a halt writes beside BUSY (R240). -/
def halt (e : Err) (c : Word64) (s : State) : State := { s with fault := e.code, faultCmd := c, halted := true }

/-- TAKING A FAULT: the halt of R240 for the command word `c`. FAULT, FAULT_CMD, HALTED and BUSY are written,
the response carries the code, "no other register or memory element changes", `cp` stays (R23). -/
def raiseFault (e : Err) (c : Word64) (s : State) : State :=
  respond (responseWord (opField c) e.code 0) (halt e c s)

/-- A word that is no command: "an illegal word raises E_ILLEGAL" (30_encoding.md R96, R105, R106). -/
def illegalCommand (c : Word64) (s : State) : State := raiseFault .illegal c s

/-! ## The sequencer between commands -/

/-- THE BLOCK IN RESET (70_reset_and_hazards.md R270): "while the input `rst` is 1 ... every register takes the value of
rule R271". What the environment has in store and the counter of free values are no state of the block and stay
(log 12). -/
def inReset (s : State) : State :=
  { State.resetWith s.cfg with
      rst := true
      rstHold := s.rstHold
      resets := s.resets
      pending := s.pending
      inputs := s.inputs
      freeIdx := s.freeIdx }

/-- The environment asserts `rst` (R270): "it ends a running command, a hang and a halt alike, and no response is given
for an interrupted command". The only way out of a halt (60_exceptions.md R243). -/
def assertReset (p : ResetPulse) (later : List ResetPulse) (s : State) : State :=
  inReset { s with rstHold := p.hold, resets := later, pending := p.pending, inputs := p.inputs }

/-- "Release of `rst` is taken at the next rising edge of `clk`; from that edge `cmd_ready = 1`" (R270). -/
def releaseReset (s : State) : State := { inReset s with rst := false }

/-- A rising edge of `clk` that finds `rst` = 1, or at which its release is taken (R270). -/
def holdReset (s : State) : State :=
  match s.rstHold with
  | 0 => releaseReset s
  | n + 1 => inReset { s with rstHold := n }

/-- The environment asserts `rst` next as `p` says. If that is before the step that would lead from `s` to the outcome
`o` is over, the block is in reset instead (R270). No command has an effect a reset leaves: R271 fixes every register. -/
def interrupt (p : ResetPulse) (later : List ResetPulse) (s : State) (o : Host.Outcome State Fault Refusal) :
    Host.Outcome State Fault Refusal :=
  if p.cycle ≤ s.now then .next (assertReset p later s)
  else
    match o with
    | .next t => if p.cycle < t.now then .next (assertReset p later t) else .next t
    | .fault f => .fault f
    | .refused r => .refused r

/-- `rsp_valid` is "high for one cycle" (R21, log 16). `rsp_data` is then no longer valid; that it keeps the last response
word is the model's choice (log 16). -/
def dropResponse (s : State) : State := { s with rspValid := false }

/-- A cycle in which no command is accepted: none is presented, or HALTED = 1 (R240, R241). -/
def idleCycle (s : State) : State := advance 1 (dropResponse s)

/-- BUSY = 1, the command taken from the host's list (R21, R24). -/
def beginCommand (rest : List Word64) (s : State) : State :=
  { s with pending := rest, busy := true, rspValid := false }

/-- The acceptance of the command at the head of `pending` (R21, R24): BUSY = 1. -/
def accept (rest : List Word64) (s : State) : State :=
  gap (beginCommand rest s)

/-- `s` with `c` as the next command the host presents, in place of what it would present next (log 11). -/
def presentCommand (c : Word64) (s : State) : State := { s with pending := c :: s.pending.tail }

end Sys2Proof.Machine
end

