-- ==== Sys2Proof/Machine/Button.lean ====
section
/-! DEFINITION. The commands of the BTN unit, READSYM and READSEQ (spec/42_button.md R171 to R176), and the
continuation of a read that waits for a button (60_exceptions.md R246). -/

namespace Sys2Proof.Machine

/-- `PinSample()` (00_scope.md R14), recorded as `Polled` (R46); the samples after it are still to come. -/
def takeSample (p : Sample) (rest : List Sample) (s : State) : State :=
  record (.polled p.aN p.bN) { s with inputs := rest }

/-- State POLL over the samples the environment supplies (R171, R172): one sample per POLL_CYCLES cycles until one has
an asserted input. With none among them the sampler is still in POLL: the Symbol is `none`. -/
def pollLoop : List Sample → State → Option Symbol × State
  | [], s => (none, s)
  | p :: rest, s =>
    let seen := takeSample p rest s
    match pressedSymbol s.cfg p with
    | some sym => (some sym, seen)
    | none => pollLoop rest (advance s.cfg.pollCycles seen)

/-- Into POLL with `rem` reads to make, this one included (R171). -/
def enterPoll (rem : Nat) (s : State) : State := { s with btnState := .poll, btnRem := BitVec.ofNat 7 rem }

/-- Into FB_TONE: "RESULT is written at this moment" (R171). -/
def latchPress (sym : Symbol) (s : State) : State :=
  { s with result := sym, resultValid := true, btnState := .fbTone }

/-- Into FB_GAP (R171). -/
def enterGap (s : State) : State := { s with btnState := .fbGap }

/-- Into DEBOUNCE (R171). -/
def enterDebounce (s : State) : State := { s with btnState := .debounce }

/-- Into IDLE, no read left (R171). -/
def enterIdle (s : State) : State := { s with btnState := .idle, btnRem := 0 }

/-- From the sample that ends the loop to the end of `ReadOne()` (R172): RESULT, the feedback tone `Tone(500, 100)`
(states FB_TONE and FB_GAP), the debounce period. -/
def feedback (sym : Symbol) (s : State) : State :=
  let silent := toneStop (sleep feedbackMs (toneStart feedbackHz (latchPress sym s)))
  sleep debounceMs (enterDebounce (sleep toneGapMs (enterGap silent)))

/-- "MemWrite(SEQBUF, i, s) ; SEQLEN <- i + 1" (R176): `i` is SEQLEN. -/
def storeSymbol (sym : Symbol) (s : State) : State :=
  { s with
      seqbuf := s.seqbuf.write s.seqlen.toNat sym
      seqlen := BitVec.ofNat 7 (s.seqlen.toNat + 1) }

/-- "SEQLEN <- 0" (R176). -/
def emptySequence (s : State) : State := { s with seqlen := 0 }

/-- `rem` reads (R171, R176), each stored in SEQBUF if `store`; `true` if all of them ended, `false` if one still waits. -/
def reads (store : Bool) : Nat → State → Bool × State
  | 0, s => (true, enterIdle s)
  | rem + 1, s =>
    match pollLoop s.inputs (enterPoll (rem + 1) s) with
    | (none, waiting) => (false, waiting)
    | (some sym, pressed) =>
      let read := feedback sym pressed
      reads store rem (if store then storeSymbol sym read else read)

/-- Whether a read command stores its symbols in SEQBUF: READSEQ does, "SEQBUF and SEQLEN are not changed" by
READSYM (R174). -/
def readStores : Instr → Bool
  | .readseq _ => true
  | .ledinit _ | .setpix _ _ _ _ | .clear | .write | .pwminit _ | .tone _ _ _ | .readsym | .delay _ | .get _ _ => false

/-- The response data of a read (30_encoding.md R100): the Symbol for READSYM, `length` for READSEQ. -/
def readData (i : Instr) (s : State) : BitVec 32 :=
  match i with
  | .readseq length => length.setWidth 32
  | .ledinit _ | .setpix _ _ _ _ | .clear | .write | .pwminit _ | .tone _ _ _ | .readsym | .delay _ | .get _ _ =>
    symbolBit s.result

/-- BUSY stays 1 with the command not finished (R246, log 8). -/
def keepWaiting (i : Instr) (s : State) : State := { s with busy := true, running := some i }

/-- A read command after its reads: it completes, or it waits with BUSY = 1 and no response (R246). -/
def endReads (i : Instr) (r : Bool × State) : State :=
  if r.1 then complete i (readData i r.2) r.2
  else keepWaiting i r.2

/-- READSYM (R174). -/
def execReadsym (s : State) : Host.Outcome State Fault Refusal :=
  if s.pwmInit = false then .next (raiseFault .notInit (encode .readsym) s)
  else .next (endReads .readsym (reads false 1 s))

/-- READSEQ length (R176). -/
def execReadseq (length : BitVec 16) (s : State) : Host.Outcome State Fault Refusal :=
  if s.pwmInit = false then .next (raiseFault .notInit (encode (.readseq length)) s)
  else if seqCap < length.toNat then .next (raiseFault .seqLen (encode (.readseq length)) s)
  else .next (endReads (.readseq length) (reads true length.toNat (emptySequence s)))

/-- A poll iteration with both buttons released, as they are where the environment supplies no sample (R14, log 7). -/
def pollReleased (s : State) : State :=
  advance s.cfg.pollCycles (record (.polled Sample.released.aN Sample.released.bN) s)

/-- A step of a block whose BUSY is 1 (R246): the waiting read goes on polling, and on to its end if a sample has an
asserted input. BUSY = 1 with no waiting read is a state no run reaches: only the clock goes on. -/
def resumeRead (s : State) : State :=
  match s.running with
  | none => advance 1 s
  | some i =>
    if s.inputs = [] then pollReleased s
    else endReads i (reads (readStores i) s.btnRem.toNat s)

end Sys2Proof.Machine
end

