-- ==== Sys2Proof/Machine/Led.lean ====
section
/-! DEFINITION. The commands of the LED unit: LEDINIT, SETPIX, CLEAR, WRITE (spec/40_led.md R121 to R127). -/

namespace Sys2Proof.Machine

/-- The writes of LEDINIT (R121): one engine claimed, the pin, every element of PIXBUF (0,0,0), LED_INIT. -/
def claimEngine (pin : BitVec 8) (s : State) : State :=
  { s with
      engFree := s.engFree - 1
      ledPin := pin
      pixbuf := fillPixels darkPixel s.pixbuf
      ledInit := true }

/-- One pixel written (R123). -/
def storePixel (i : Nat) (px : Pixel) (s : State) : State := { s with pixbuf := s.pixbuf.write i px }

/-- Every pixel written (R125). -/
def storeAllPixels (px : Pixel) (s : State) : State := { s with pixbuf := fillPixels px s.pixbuf }

/-- LEDINIT pin (R121): claims one timing engine, stores the pin, zeroes PIXBUF. -/
def execLedinit (pin : BitVec 8) (s : State) : Host.Outcome State Fault Refusal :=
  if s.engFree = 0 then .next (raiseFault .noEngine (encode (.ledinit pin)) s)
  else .next (complete (.ledinit pin) 0 (claimEngine pin s))

/-- SETPIX index, r, g, b (R123): "writes the brightness-scaled Pixel at `index`". -/
def execSetpix (index r g b : BitVec 8) (s : State) : Host.Outcome State Fault Refusal :=
  if s.ledInit = false then .next (raiseFault .notInit (encode (.setpix index r g b)) s)
  else if ledCount ≤ index.toNat then .next (raiseFault .index (encode (.setpix index r g b)) s)
  else .next (complete (.setpix index r g b) 0
    (storePixel index.toNat (scaledPixel s.cfg r g b) s))

/-- CLEAR (R125): "sets every Pixel to (0,0,0) via setPixel; does not transmit". -/
def execClear (s : State) : Host.Outcome State Fault Refusal :=
  if s.ledInit = false then .next (raiseFault .notInit (encode .clear) s)
  else .next (complete .clear 0 (storeAllPixels (scaledPixel s.cfg 0 0 0) s))

/-- The loop of WRITE (R126) over the given indices: read the element, push its LED word; `none` if an element
holds no value (log 9). -/
def pushPixels : List Nat → State → Option State
  | [], s => some s
  | i :: rest, s =>
    match s.pixbuf.read i with
    | none => none
    | some px => pushPixels rest (txPush (pixelLedWord px) s)

/-- WRITE (R126): "transmits the entire PixelBuffer", pixel 0 first; completes when the last word is in TXQ. -/
def execWrite (s : State) : Host.Outcome State Fault Refusal :=
  if s.ledInit = false then .next (raiseFault .notInit (encode .write) s)
  else
    match pushPixels (List.range ledCount) s with
    | none => .fault .unwrittenPixel
    | some sent => .next (complete .write 0 sent)

end Sys2Proof.Machine
end

