-- ==== Sys2Proof/Machine/Service.lean ====
section
/-! DEFINITION. The service commands DELAY and GET (spec/43_service.md R190, R192, R193). -/

namespace Sys2Proof.Machine

/-- DELAY ms (R190). -/
def execDelay (ms : BitVec 16) (s : State) : Host.Outcome State Fault Refusal :=
  .next (complete (.delay ms) 0 (sleep ms.toNat s))

/-- GET sel, idx (R192). A non-zero `idx` with a selector that takes none is no command (`Instr.wellFormed`); the
meaning raises E_ILLEGAL on it, as the pseudocode does. -/
def execGet (sel : Selector) (idx : BitVec 16) (s : State) : Host.Outcome State Fault Refusal :=
  let i := Instr.get sel idx
  match sel with
  | .pixbuf =>
    if s.ledInit = false then .next (raiseFault .notInit (encode i) s)
    else if ledCount ≤ idx.toNat then .next (raiseFault .index (encode i) s)
    else
      match s.pixbuf.read idx.toNat with
      | none => .fault .unwrittenPixel
      | some px => .next (complete i (pixelData px) s)
  | .seqbuf =>
    if s.seqlen.toNat ≤ idx.toNat then .next (raiseFault .index (encode i) s)
    else
      match s.seqbuf.read idx.toNat with
      | none => .fault .unwrittenSymbol
      | some sym => .next (complete i (symbolBit sym) s)
  | .status | .pwmCsr | .pwmTop | .pwmLevel | .pwmCtr | .ledCsr | .result | .seqlen =>
    if idx ≠ 0 then .next (raiseFault .illegal (encode i) s)
    else .next (complete i (registerData s sel) s)

end Sys2Proof.Machine
end

