-- ==== Sys2Proof/Machine/Tone.lean ====
section
/-! DEFINITION. The commands of the TONE unit: PWMINIT and TONE (spec/41_tone.md R151, R153). -/

namespace Sys2Proof.Machine

/-- The writes of PWMINIT (R151). PWM_TOP and PWM_CTR are not written. -/
def enableChannel (pin : BitVec 8) (s : State) : State :=
  { s with
      pwmPin := pin
      pwmDiv := BitVec.ofNat 8 s.cfg.pwmClkdiv
      pwmPre := 0
      pwmLevel := 0
      pwmEn := true
      pwmInit := true }

/-- PWMINIT pin (R151): "binds a PWM-capable channel to the pin, sets a clock divider, enables the channel at zero
output level (silent)". -/
def execPwminit (pin : BitVec 8) (s : State) : Host.Outcome State Fault Refusal :=
  .next (complete (.pwminit pin) 0 (enableChannel pin s))

/-- TONE pin, frequencyHz, durationMs (R153), its checks in the order of R233. -/
def execTone (pin : BitVec 8) (frequencyHz : BitVec 32) (durationMs : BitVec 16) (s : State) :
    Host.Outcome State Fault Refusal :=
  let c := encode (.tone pin frequencyHz durationMs)
  if s.pwmInit = false then .next (raiseFault .notInit c s)
  else if pin ≠ s.pwmPin then .next (raiseFault .pin c s)
  else if frequencyHz = 0 then .next (raiseFault .freqZero c s)
  else if s.cfg.sysclkHz < frequencyHz.toNat then .next (raiseFault .freqRange c s)
  else .next (complete (.tone pin frequencyHz durationMs) 0
    (tone frequencyHz.toNat durationMs.toNat s))

end Sys2Proof.Machine
end

