-- ==== Sys2Proof/Machine/Dispatch.lean ====
section
/-! DEFINITION. Which meaning each command has. -/

namespace Sys2Proof.Machine

def exec (i : Instr) (s : State) : Host.Outcome State Fault Refusal :=
  match i with
  | .ledinit pin => Sys2Proof.Machine.execLedinit pin s
  | .setpix index r g b => Sys2Proof.Machine.execSetpix index r g b s
  | .clear => Sys2Proof.Machine.execClear s
  | .write => Sys2Proof.Machine.execWrite s
  | .pwminit pin => Sys2Proof.Machine.execPwminit pin s
  | .tone pin f ms => Sys2Proof.Machine.execTone pin f ms s
  | .readsym => Sys2Proof.Machine.execReadsym s
  | .readseq n => Sys2Proof.Machine.execReadseq n s
  | .delay ms => Sys2Proof.Machine.execDelay ms s
  | .get sel idx => Sys2Proof.Machine.execGet sel idx s

end Sys2Proof.Machine
end

