-- ==== Sys2Proof/Machine/Sequencer.lean ====
section
/-! DEFINITION. What the sequencer does in one step in which `rst` stays 0 (spec/10_state.md R21, spec/60_exceptions.md
R240, R246): a cycle without a command, a waiting read going on, or one whole command from its acceptance (log 2). -/

namespace Sys2Proof.Machine

/-- The command word `c` once accepted: decoded (30_encoding.md R96) and executed; an illegal word raises E_ILLEGAL. -/
def runCommand (c : Word64) (s : State) : Host.Outcome State Fault Refusal :=
  match decode c with
  | .ok i => exec i s
  | .error _ => .next (illegalCommand c s)

/-- A step in which `rst` stays 0: no command is accepted while HALTED or BUSY (10_state.md R21). -/
def runStep (s : State) : Host.Outcome State Fault Refusal :=
  if s.halted then .next (idleCycle s)
  else if s.busy then .next (resumeRead s)
  else
    match s.pending with
    | [] => .next (idleCycle s)
    | c :: rest => runCommand c (accept rest s)

end Sys2Proof.Machine
end

