-- ==== Sys2Proof/Machine/Step.lean ====
section
/-! DEFINITION. One step of the block: a clock edge in reset, or a step of the sequencer, which an assertion of `rst`
ends at once (log 2, log 12). -/

namespace Sys2Proof.Machine

/-- One step. A configuration outside R7 is refused; `rst` comes before everything else (70_reset_and_hazards.md
R270). -/
def step (s : State) : Host.Outcome State Fault Refusal :=
  if s.cfg.wf = false then .refused .badConfiguration
  else if s.rst then .next (holdReset s)
  else
    match s.resets with
    | [] => runStep s
    | p :: later => interrupt p later s (runStep s)

/-- `s` with a command word as the one the next step accepts (log 11). -/
def State.withFetchWord (s : State) (nbits w : Nat) : State :=
  presentCommand (BitVec.ofNat 64 (w % 2 ^ nbits)) s

end Sys2Proof.Machine
end

