-- ==== Sys2Proof/Machine/LedChain.lean ====
section
/-! DEFINITION. The receiver model of spec/40_led.md R137 (informative; the chain is outside the block) and the line
of a word (R132), for stating what the outside world observes. -/

namespace Sys2Proof.Machine

/-- The chain of LEDs: the words kept since the last latch, LED 0's first, and what each LED displays. -/
structure Chain where
  kept : List LedWord
  shown : List LedWord
  deriving DecidableEq, Repr

/-- What an event of the line does to the chain (R137): word `k` of a frame is kept by LED `k` for `k < 25`, later words
leave the end of the chain; at the latch every LED that kept a word displays it and the assignment starts again. That an
LED that kept no word, after a frame of fewer than 25 words (R135), goes on displaying what it did is the model's choice
(log 21). -/
def chainFeed (c : Chain) : Event → Chain
  | .ledWord w => if c.kept.length < ledCount then { c with kept := c.kept ++ [w] } else c
  | .ledLatch => { kept := [], shown := c.kept ++ c.shown.drop c.kept.length }
  | .tonOn _ _ | .tonOff | .slept _ | .polled _ _ | .rsp _ => c

/-- The chain after the events of a trace. -/
def chainRun (c : Chain) (es : List Event) : Chain := es.foldl chainFeed c

/-- The colour a word displays: green in [23:16], red in [15:8], blue in [7:0] (R137). -/
def wordColour (w : LedWord) : Pixel where
  r := w.extractLsb' 8 8
  g := w.extractLsb' 16 8
  b := w.extractLsb' 0 8

/-- One bit cell of `led_dout` (R132): the levels of the line with the nanoseconds each lasts. -/
def cellWave (cfg : Config) (bit : Bool) : List (Bool × Nat) :=
  [(true, highNs cfg bit), (false, tBitNs - highNs cfg bit)]

/-- The line of a word, 24 cells, bit 23 first (R65, R132, R133). -/
def wordWave (cfg : Config) (w : LedWord) : List (Bool × Nat) :=
  (ledWordBitsInOrder w).flatMap (cellWave cfg)

end Sys2Proof.Machine
end

