-- ==== Sys2Proof/Machine/Assembler.lean ====
section
/-! DEFINITION. The written form of a command and the pseudo-commands (spec/30_encoding.md R110, R111), and the
milliseconds a command sleeps (70_reset_and_hazards.md R290). Nothing here is state or behaviour of the block. -/

namespace Sys2Proof.Machine

/-- The mnemonic of a row (R94). -/
def opcodeMnemonic : Opcode → String
  | .ledinit => "LEDINIT"
  | .setpix => "SETPIX"
  | .clear => "CLEAR"
  | .write => "WRITE"
  | .pwminit => "PWMINIT"
  | .tone => "TONE"
  | .readsym => "READSYM"
  | .readseq => "READSEQ"
  | .delay => "DELAY"
  | .get => "GET"

/-- The operands in the order of R110. -/
def operandsInOrder : Instr → List Nat
  | .ledinit pin => [pin.toNat]
  | .setpix index r g b => [index.toNat, r.toNat, g.toNat, b.toNat]
  | .clear => []
  | .write => []
  | .pwminit pin => [pin.toNat]
  | .tone pin f ms => [pin.toNat, f.toNat, ms.toNat]
  | .readsym => []
  | .readseq n => [n.toNat]
  | .delay ms => [ms.toNat]
  | .get sel idx => [sel.code.toNat, idx.toNat]

/-- "Its mnemonic followed by its operands", separated by commas, numbers in decimal (R110). -/
def assemblerText (i : Instr) : String :=
  match operandsInOrder i with
  | [] => opcodeMnemonic i.opcode
  | ops => opcodeMnemonic i.opcode ++ " " ++ String.intercalate ", " (ops.map toString)

/-- `FILL r, g, b`: 25 SETPIX, index rising (R111). -/
def fillCommands (r g b : BitVec 8) : List Instr :=
  (List.range 25).map fun i => .setpix (BitVec.ofNat 8 i) r g b

/-- `SHOW r, g, b, ms` (R111). -/
def showCommands (r g b : BitVec 8) (ms : BitVec 16) : List Instr :=
  .clear :: (fillCommands r g b ++ [.write, .delay ms, .clear, .write])

/-- `BEEP f, ms`, with the pin given to the last PWMINIT (R111). -/
def beepCommands (pin : BitVec 8) (f : BitVec 32) (ms : BitVec 16) : List Instr := [.tone pin f ms]

/-- `NOP` (R111). -/
def nopCommands : List Instr := [.delay 0]

/-- The milliseconds of `Sleep` in a command that completes (R290): what its duration is at least, beside the wait for
a button. -/
def sleepMs : Instr → Nat
  | .tone _ _ ms => ms.toNat + 50
  | .readsym => 350
  | .readseq n => n.toNat * 350
  | .delay ms => ms.toNat
  | .ledinit _ | .setpix _ _ _ _ | .clear | .write | .pwminit _ | .get _ _ => 0

end Sys2Proof.Machine
end

