-- ==== Sys2Proof/Machine/RoundHost.lean ====
section
/-! DEFINITION. The reference host (spec/44_round_engine.md) and its run against the block: it issues one command, waits
for its response, and only then goes on. It is software outside the block (R6) and adds nothing to State; what it draws
is an argument (log 17). -/

namespace Sys2Proof.Machine

/-- The states of a round (R203), and the two the host has outside of a round (R202): it initialises the units, or it
has stopped because a command faulted. -/
inductive Phase where
  | starting
  | generating | displaying | collecting | judging | advancing | resetting
  | stopped
  deriving DecidableEq, Repr

/-- The host's state (R201), its two pin constants (R202), how many rounds it has ended since its start (R217), where the
oracle of its draws is (R204), and where it is in the command list of its phase (R200). -/
structure Game where
  ledPin : BitVec 8
  buzzerPin : BitVec 8
  level : Nat
  sequence : List Symbol
  player : List Symbol
  phase : Phase
  rounds : Nat
  /-- How many Sequences have been drawn, those before a reset too: every one is a draw of its own (R204, log 17). -/
  draws : Nat
  /-- The commands of the phase it has still to issue. -/
  todo : List Instr
  /-- The command whose response it waits for. -/
  awaiting : Option Instr
  deriving DecidableEq, Repr

/-! ## The commands of a phase -/

/-- HOST.FULL = 255 on the named channel, 0 on the others (R205, R210): blue for BLUE, red for RED. -/
def displayCommands (s : Symbol) : List Instr :=
  (match s with
    | .blue => showCommands 0 0 255 1000
    | .red => showCommands 255 0 0 1000) ++ [.delay 500]

/-- The commands the host issues in a phase (R202, R204 to R209, R217). -/
def gameCommands (g : Game) : List Instr :=
  match g.phase with
  | .starting => [.ledinit g.ledPin, .pwminit g.buzzerPin]
  | .generating => if g.rounds = 0 then [] else [.delay 1]
  | .displaying => g.sequence.flatMap displayCommands
  | .collecting =>
    .readseq (BitVec.ofNat 16 g.level) ::
      (List.range g.level).map fun i => .get .seqbuf (BitVec.ofNat 16 i)
  | .judging => []
  | .advancing => beepCommands g.buzzerPin 1000 200 ++ showCommands 0 255 0 1000
  | .resetting => beepCommands g.buzzerPin 100 500 ++ showCommands 255 0 0 1000
  | .stopped => []

/-- Into a phase, with its commands to issue. -/
def enterPhase (p : Phase) (g : Game) : Game :=
  { g with phase := p, todo := gameCommands { g with phase := p } }

/-- Before the first round (R202, R271): Level 1, no sequences, the two units to initialise. -/
def gameStart (ledPin buzzerPin : BitVec 8) : Game :=
  enterPhase .starting
    { ledPin := ledPin
      buzzerPin := buzzerPin
      level := 1
      sequence := []
      player := []
      phase := .starting
      rounds := 0
      draws := 0
      todo := []
      awaiting := none }

/-- The host after a reset (R271): at its start, with no Sequence. What it draws later is new (R204): the oracle is not
set back. -/
def gameRestart (g : Game) : Game := { gameStart g.ledPin g.buzzerPin with draws := g.draws }

/-! ## From phase to phase -/

/-- The verdict of JUDGING (R207): equal at every position. -/
def gameMatch (g : Game) : Bool := g.sequence == g.player

/-- Level after a round (R208, R209), "but not above 100" (R213). -/
def nextLevel (matched : Bool) (level : Nat) : Nat :=
  if matched then min seqCap (level + 1) else 1

/-- The end of a round: the new Level, and GENERATING again (R203, R208, R209). -/
def endRound (matched : Bool) (g : Game) : Game :=
  enterPhase .generating { g with level := nextLevel matched g.level, rounds := g.rounds + 1 }

/-- GENERATING: a Sequence of length Level, "freshly and independently generated" (R204): the next draw of the oracle. -/
def drawSequence (draw : Nat → Nat → Symbol) (g : Game) : Game :=
  { g with sequence := (List.range g.level).map (draw g.draws), draws := g.draws + 1 }

/-- The next phase, when every command of the phase has been answered (R202, R203). `draw n` is what the host draws the
`n`-th time, "an oracle under no law" (R204). PlayerSequence is built anew in every COLLECTING (R206). -/
def gameNext (draw : Nat → Nat → Symbol) (g : Game) : Game :=
  match g.phase with
  | .starting => enterPhase .generating g
  | .generating => enterPhase .displaying (drawSequence draw g)
  | .displaying => enterPhase .collecting { g with player := [] }
  | .collecting => enterPhase .judging g
  | .judging => enterPhase (if gameMatch g then .advancing else .resetting) g
  | .advancing => endRound true g
  | .resetting => endRound false g
  | .stopped => g

/-! ## Commands and responses -/

/-- The Symbol of a response of `GET SEQBUF[i]` (R100, R206). -/
def responseSymbol (w : Word64) : Symbol := if w.getLsbD 0 then .red else .blue

/-- The code of a response: 0 for a completion, the fault's otherwise (30_encoding.md R100). -/
def responseCode (w : Word64) : BitVec 4 := w.extractLsb' 52 4

/-- A response that carries a Symbol for PlayerSequence: that of a GET of SEQBUF (R206). -/
def copiesSymbol : Instr → Bool
  | .get sel _ => sel == .seqbuf
  | .ledinit _ | .setpix _ _ _ _ | .clear | .write | .pwminit _ | .tone _ _ _ | .readsym | .readseq _ | .delay _ => false

/-- The host takes the response `w` of its command `i`. "If LEDINIT faults the host never starts" (R202); a fault of
another command stops it too (log 17). A GET of SEQBUF extends PlayerSequence by the Symbol it returns (R206). -/
def gameReceive (i : Instr) (w : Word64) (g : Game) : Game :=
  if responseCode w = 0 then
    { g with awaiting := none, player := if copiesSymbol i then g.player ++ [responseSymbol w] else g.player }
  else { enterPhase .stopped g with awaiting := none }

/-- The host presents the command `i` on the port and waits for its response (R200, 70_reset_and_hazards.md R286). -/
def gameIssue (i : Instr) (rest : List Instr) (g : Game) (s : State) : Game × State :=
  ({ g with todo := rest, awaiting := some i }, { s with pending := [encode i] })

/-- What the host does next, if it does not wait for the block: "issues one command, waits for its response, and only
then issues the next" (R200). -/
def hostMove (draw : Nat → Nat → Symbol) (g : Game) (s : State) : Option (Game × State) :=
  match g.awaiting, g.todo with
  | some i, _ => if s.rspValidOut && !s.cmdValid then some (gameReceive i s.rspDataOut g, s) else none
  | none, i :: rest => some (gameIssue i rest g s)
  | none, [] => if g.phase = .stopped then none else some (gameNext draw g, s)

/-! ## Host and block together -/

/-- The condition of R217 on the configuration: the `DELAY 1` between two rounds covers the frame gap of
70_reset_and_hazards.md R281. -/
def roundGapFits (cfg : Config) : Bool := decide ((cfg.ledFifoDepth + 1) * ledWordNs + cfg.tLatchNs ≤ 1000000)

/-- The reference host and the block it drives. -/
structure Bench where
  game : Game
  block : State
  deriving DecidableEq, Repr

/-- Host and block right after a reset (R271). -/
def benchStart (cfg : Config) (ledPin buzzerPin : BitVec 8) : Bench where
  game := gameStart ledPin buzzerPin
  block := State.resetWith cfg

/-- The block takes a step beside the host `g`. -/
def blockStep (g : Game) (s : State) : Host.Outcome Bench Fault Refusal :=
  match step s with
  | .next t => .next ⟨g, t⟩
  | .fault f => .fault f
  | .refused r => .refused r

/-- One step of the two. A reset takes the host to its start as well (R271); else the host does what it can do without
waiting, in no time of the block's, or the block takes a step (log 17). -/
def benchStep (draw : Nat → Nat → Symbol) (b : Bench) : Host.Outcome Bench Fault Refusal :=
  if roundGapFits b.block.cfg = false then .refused .badConfiguration
  else if b.block.rst then blockStep (gameRestart b.game) { b.block with pending := [] }
  else
    match hostMove draw b.game b.block with
    | some (g, s) => .next ⟨g, s⟩
    | none => blockStep b.game b.block

/-- `n` such steps. -/
def benchRun (draw : Nat → Nat → Symbol) : Nat → Bench → Host.Outcome Bench Fault Refusal
  | 0, b => .next b
  | n + 1, b =>
    match benchStep draw b with
    | .next b' => benchRun draw n b'
    | .fault f => .fault f
    | .refused r => .refused r

end Sys2Proof.Machine
end

