-- ==== Sys2Proof/Safety.lean ====
section
/-! DEFINITION. What counts as a good state and a good run of JSQ-PB v1, and the views of a state that claims use. -/

namespace Sys2Proof.Machine

/-! ## Views of the trace (95_test_vectors.md Part 3) -/

/-- The events the timing engine produces; the others are the sequencer's. -/
def Event.fromEngine : Event → Bool
  | .ledWord _ | .ledLatch => true
  | .tonOn _ _ | .tonOff | .slept _ | .polled _ _ | .rsp _ => false

/-- The sequencer's events of a trace: their order among themselves "is exact". -/
def sequencerEvents (es : List Event) : List Event := es.filter fun e => !e.fromEngine

/-- The engine's events of a trace: their order among themselves "is exact". -/
def engineEvents (es : List Event) : List Event := es.filter Event.fromEngine

/-- The words that have gone on the line, oldest first. -/
def ledWordsOf : List Event → List LedWord
  | [] => []
  | .ledWord w :: es => w :: ledWordsOf es
  | .ledLatch :: es | .tonOn _ _ :: es | .tonOff :: es | .slept _ :: es | .polled _ _ :: es | .rsp _ :: es =>
    ledWordsOf es

/-- Every word pushed since reset, in the order pushed: those the engine has taken, then those still in TXQ. -/
def Clocked.pushedWords (c : Clocked) : List LedWord := ledWordsOf c.trace ++ c.tx.q

/-! ## Good states -/

/-- The timing engine takes a word at once (log 6), counts cells of 1,250 ns and 24 bits, and its idle time saturates
(10_state.md R36, R37). -/
structure TxEngine.Good (cfg : Config) (t : TxEngine) : Prop where
  queueFits : t.q.length ≤ cfg.ledFifoDepth
  shifter : match t.shift with
    | .idle => t.q = [] ∧ t.cellNs = 0 ∧ t.idleNs ≤ cfg.tLatchNs
    | .sending _ n => 1 ≤ n ∧ n ≤ ledWordBits ∧ t.cellNs < tBitNs ∧ t.idleNs = 0

/-- A read waits for a button (60_exceptions.md R246): the sampler is in POLL with reads left to make, and the reads
made and left of a READSEQ are its length. -/
structure State.Waiting (s : State) : Prop where
  busy : s.busy = true
  noResponse : s.rspValid = false
  channelReady : s.pwmInit = true
  poll : s.btnState = .poll
  command : (s.running = some .readsym ∧ s.btnRem = 1) ∨
    ∃ n : BitVec 16, s.running = some (.readseq n) ∧ n.toNat ≤ seqCap ∧ 0 < s.btnRem.toNat ∧
      s.seqlen.toNat + s.btnRem.toNat = n.toNat

/-- No command is running: the BTN unit and the sequencer are at rest (10_state.md R39). -/
structure State.AtRest (s : State) : Prop where
  idle : s.btnState = .idle
  noReads : s.btnRem = 0
  noCommand : s.running = none

/-- What holds of the block between two steps. -/
structure State.Inv (s : State) : Prop where
  cfgWf : s.cfg.wf = true
  /-- PIXBUF is in canonical form (R61), holds no value before LEDINIT and all 25 after it (R35). -/
  pixbufWf : s.pixbuf.wf ledCount = true
  pixbufUnset : s.ledInit = false → s.pixbuf = []
  pixbufHeld : s.ledInit = true → ∀ i < ledCount, (s.pixbuf.read i).isSome = true
  /-- SEQBUF is in canonical form (R62) and every element below SEQLEN holds a value (R41). -/
  seqbufWf : s.seqbuf.wf seqCap = true
  seqlenCap : s.seqlen.toNat ≤ seqCap
  seqbufHeld : ∀ i < s.seqlen.toNat, (s.seqbuf.read i).isSome = true
  /-- ENG_FREE only decreases, and only LEDINIT takes an engine (R34). -/
  enginesLeft : s.engFree.toNat ≤ s.cfg.engines
  engineClaimed : s.ledInit = true ↔ s.engFree.toNat < s.cfg.engines
  /-- "whenever BUSY = 0 (no command running), PWM_LEVEL = 0" (R161), and in POLL too. -/
  silent : s.pwmLevel = 0
  pwmEnabled : s.pwmEn = s.pwmInit
  pwmDivLegal : 1 ≤ s.pwmDiv.toNat
  pwmPreBelow : s.pwmPre.toNat < s.pwmDiv.toNat
  pwmCtrBelow : s.pwmCtr ≤ s.pwmTop
  pwmTopBelow : s.pwmTop.toNat < s.cfg.sysclkHz
  /-- "While PWM_EN = 0 (only before the first PWMINIT) nothing changes" (R156). -/
  pwmOff : s.pwmEn = false → s.pwmCtr = 0 ∧ s.pwmPre = 0 ∧ s.pwmTop = 0 ∧ s.pwmDiv = 1
  engine : s.tx.Good s.cfg
  timerZero : s.slpCnt = 0
  fracBelow : s.nsFrac < s.cfg.sysclkHz
  /-- HALTED and FAULT say the same (R24, R231, R240). -/
  faultHalted : s.halted = true ↔ s.fault ≠ 0
  faultCode : s.fault.toNat ≤ 8
  noFaultCmd : s.halted = false → s.faultCmd = 0
  haltedNotBusy : s.halted = true → s.busy = false
  rest : s.busy = false → s.AtRest
  wait : s.busy = true → s.Waiting
  /-- "While the input `rst` is 1 the block is in reset: every register takes the value of rule R271" (R270). -/
  resetHeld : s.rst = true → inReset s = s

/-! ## Reset (70_reset_and_hazards.md R270, R271) -/

/-- The values of R271, row by row. PIXBUF, RESULT and SEQBUF are not among them: they are "unspecified". -/
structure State.HasResetValues (s : State) : Prop where
  busy : s.busy = false
  halted : s.halted = false
  fault : s.fault = 0
  faultCmd : s.faultCmd = 0
  pwmInit : s.pwmInit = false
  pwmPin : s.pwmPin = 0
  pwmEn : s.pwmEn = false
  pwmDiv : s.pwmDiv = 1
  pwmPre : s.pwmPre = 0
  pwmTop : s.pwmTop = 0
  pwmLevel : s.pwmLevel = 0
  pwmCtr : s.pwmCtr = 0
  ledInit : s.ledInit = false
  ledPin : s.ledPin = 0
  engFree : s.engFree.toNat = s.cfg.engines
  txq : s.tx.q = []
  txShift : s.tx.shift = .idle
  txIdleNs : s.tx.idleNs = s.cfg.tLatchNs
  btnState : s.btnState.code = 0
  btnRem : s.btnRem = 0
  resultValid : s.resultValid = false
  seqlen : s.seqlen = 0
  slpCnt : s.slpCnt = 0
  cp : s.cp = 0
  trace : s.trace = []
  /-- "Value during and after reset" of the response ports (10_state.md R21). -/
  rspValid : s.rspValid = false
  rspData : s.rspData = 0

/-- No assertion of `rst` is due now, and none before `now` is `n`. -/
def State.Undisturbed (s : State) (n : Nat) : Prop :=
  ∀ p later, s.resets = p :: later → s.now < p.cycle ∧ n ≤ p.cycle

/-- Every stored pixel came from a scaled write: "mutated only through the scaled-write operation" (R124). -/
def State.PixbufScaled (s : State) : Prop :=
  ∀ i px, s.pixbuf.read i = some px → ∃ r g b : BitVec 8, px = scaledPixel s.cfg r g b

/-! ## Good and bad runs (60_exceptions.md R242, 70_reset_and_hazards.md R291) -/

/-- "A run in which HALTED = 1 has ended badly." -/
def State.Failed (s : State) : Prop := s.halted = true

/-- "A run of a finite command list ends well when ..." (R291), for a list of `n` commands: each has completed, the
block is at rest, the last frame is out and latched. -/
structure State.EndedWell (n : Nat) (s : State) : Prop where
  allDone : s.cp = n
  noneLeft : s.pending = []
  notBusy : s.busy = false
  notHalted : s.halted = false
  queueEmpty : s.tx.q = []
  shifterIdle : s.tx.shift = .idle
  latched : s.tx.idleNs = s.cfg.tLatchNs

/-! ## Relations between the state before and after a command -/

/-- Only time has passed for the two agents and the sleep timer, and the command's response `w` has been given: no
command has touched PWM_CTR, PWM_PRE, TXQ, TX_SHIFT or TX_IDLE_NS. -/
def OnlyTimePassed (w : Word64) (s t : State) : Prop :=
  ∃ k, t.toClocked = (record (.rsp w) (advance k s)).toClocked

/-- The timing engine has run on for the `k` cycles that have passed, and nothing else has touched it: TXQ, TX_SHIFT,
TX_IDLE_NS and its events are what `k` cycles make of them (00_scope.md R13, R17; 40_led.md R131: "the engine runs whether
or not the sequencer is busy, sleeping or halted"). -/
structure EngineRan (k : Nat) (s t : State) : Prop where
  now : t.now = s.now + k
  tx : t.tx = (advance k s).tx
  nsFrac : t.nsFrac = (advance k s).nsFrac
  events : engineEvents t.trace = engineEvents (advance k s).trace

/-- What every command that completes writes besides its own registers: the response, BUSY, `cp` (R21, R23, R24,
R100), given the registers it has left otherwise. -/
def completedRegs (i : Instr) (data : BitVec 32) (freeIdx : Nat) (r : Regs) : Regs :=
  { r with
      rspValid := true
      rspData := responseWord i.opcode.code 0 data
      busy := false
      running := none
      cp := r.cp + 1
      freeIdx := freeIdx }

/-- The state a fault leaves, written from R240: FAULT, FAULT_CMD, HALTED, BUSY and the response; everything else as
before. -/
def haltedState (e : Err) (c : Word64) (s : State) : State :=
  { s with
      fault := e.code
      faultCmd := c
      halted := true
      busy := false
      running := none
      rspValid := true
      rspData := c.extractLsb' 56 8 ++ e.code ++ (0 : BitVec 52)
      trace := s.trace ++ [.rsp (c.extractLsb' 56 8 ++ e.code ++ (0 : BitVec 52))] }

/-! ## The reference host and the block (44_round_engine.md) -/

/-- How many Symbols of COLLECTING are still to come: the GETs of SEQBUF not issued or not answered. -/
def Game.toCopy (g : Game) : Nat := ((g.awaiting.toList ++ g.todo).filter copiesSymbol).length

/-- What holds of host and block between two steps. -/
structure Bench.Inv (b : Bench) : Prop where
  block : b.block.Inv
  /-- "(1..100 cap)" (R201, R213). -/
  level : 1 ≤ b.game.level ∧ b.game.level ≤ 100
  wellFormed : ∀ i ∈ b.game.awaiting.toList ++ b.game.todo, i.wellFormed = true
  /-- A host that waits for nothing has no command on the port and none running; one that waits has its command on the
  port, not yet accepted, or none (R200). -/
  oneCommand : b.block.rst = false → match b.game.awaiting with
    | none => b.block.pending = [] ∧ b.block.busy = false
    | some i => b.block.pending = [] ∨ (b.block.pending = [encode i] ∧ b.block.busy = false)
  /-- "Ordered, finite list of Symbol, length = current level" (R201). -/
  sequenceLength : b.game.phase = .displaying ∨ b.game.phase = .collecting ∨ b.game.phase = .judging →
    b.game.sequence.length = b.game.level
  /-- PlayerSequence is "of the same length as Sequence" (R201) once its Symbols are copied (R206). -/
  playerLength : b.game.phase = .collecting ∨ b.game.phase = .judging →
    b.game.player.length + b.game.toCopy = b.game.level
  /-- JUDGING issues no command (R207), nor does a host that has stopped (R202). -/
  silentPhase : b.game.phase = .judging ∨ b.game.phase = .stopped → b.game.todo = [] ∧ b.game.awaiting = none

end Sys2Proof.Machine
end

