-- ==== Sys2Proof/Certificates/Slice0/Obligations.lean ====
section
/-! DEFINITION. The statements about JSQ-PB v1, each with the rule of spec/ it formalises. `t.freeIdx` stands where a
statement leaves open how many free values (log 3) a command uses. -/

open Sys2Proof
open Sys2Proof.Machine

/-! ## Encoding (30_encoding.md) -/

/-- Every operand of every well-formed command survives encoding and decoding (R91 to R96). -/
def Obligations.DecodeInvertsEncode : Prop :=
  ∀ i : Instr, i.wellFormed = true → decode (encode i) = .ok i

/-- A word that decodes is the word of its command: no bit of it is ignored (R96, R105). -/
def Obligations.EncodeInvertsDecode : Prop :=
  ∀ (c : Word64) (i : Instr), decode c = .ok i → i.wellFormed = true ∧ encode i = c

/-- Which of the 2^64 words are commands: `c and mask = match` for a row of R94, and for GET the two checks of R106. -/
def Obligations.DecodeAcceptsExactlyTheTable : Prop :=
  ∀ c : Word64, (∃ i, decode c = .ok i) ↔
    c &&& 0xFF00FFFFFFFFFFFF = 0x1000000000000000 ∨
    c &&& 0xFF00FFFFFF000000 = 0x1100000000000000 ∨
    c = 0x1200000000000000 ∨
    c = 0x1300000000000000 ∨
    c &&& 0xFF00FFFFFFFFFFFF = 0x2000000000000000 ∨
    c &&& 0xFF00000000000000 = 0x2100000000000000 ∨
    c = 0x3000000000000000 ∨
    c &&& 0xFFFF0000FFFFFFFF = 0x3100000000000000 ∨
    c &&& 0xFFFF0000FFFFFFFF = 0x4000000000000000 ∨
    (c &&& 0xFF000000FFFFFFFF = 0x4100000000000000 ∧
      (((c.extractLsb' 48 8).toNat ≤ 7 ∧ c.extractLsb' 32 16 = 0) ∨
        c.extractLsb' 48 8 = 0x10 ∨ c.extractLsb' 48 8 = 0x11))

/-- Words written out from the bit patterns of R95 (95_test_vectors.md V-E1 to V-E20). -/
def Obligations.SpecWordsDecode : Prop :=
  decode 0x1001000000000000 = .ok (.ledinit 1) ∧
  decode 0x1103000000FF9601 = .ok (.setpix 3 255 150 1) ∧
  decode 0x210200C8000003E8 = .ok (.tone 2 1000 200) ∧
  decode 0x3100006400000000 = .ok (.readseq 100) ∧
  decode 0x4110000300000000 = .ok (.get .pixbuf 3) ∧
  decode 0x1400000000000000 = .error .reservedOpcode ∧
  decode 0x1200000000000001 = .error .reservedBits ∧
  decode 0x4108000000000000 = .error .reservedSelector ∧
  decode 0x4102000100000000 = .error .unusedIndex

/-! ## One step (10_state.md R21, R23; 30_encoding.md R96) -/

/-- A step of a block that is ready accepts the command the host presents and is `exec` of what it decodes to, at the
state the acceptance leaves: the command is taken from the list, BUSY = 1, `rsp_valid` = 0, time has passed. No assertion
of `rst` may come before the command is over (`Obligations.ResetEndsWhatRuns` says what happens else). -/
def Obligations.StepRunsTheDecodedCommand : Prop :=
  ∀ (s : State) (c : Word64) (rest : List Word64) (i : Instr),
    s.cfg.wf = true → s.cmdReady = true → s.pending = c :: rest → decode c = .ok i →
    s.Undisturbed s.now → (∀ t, exec i (accept rest s) = .next t → s.Undisturbed t.now) →
    step s = exec i (accept rest s) ∧
    (accept rest s).toRegs =
      { s.toRegs with pending := rest, busy := true, rspValid := false, freeIdx := (accept rest s).freeIdx } ∧
    ∃ k, (accept rest s).toClocked = (advance k s).toClocked

/-- "An illegal word raises E_ILLEGAL" (R96): the halt of R240 with code 1, and nothing else happens. -/
def Obligations.IllegalWordHalts : Prop :=
  ∀ (s : State) (c : Word64) (rest : List Word64) (e : DecodeError),
    s.cfg.wf = true → s.cmdReady = true → s.pending = c :: rest → decode c = .error e →
    s.Undisturbed s.now → s.Undisturbed (accept rest s).now →
    step s = .next (haltedState .illegal c (accept rest s))

/-- "Every accepted command produces exactly one response word on the response port, at its completion or at its
fault" (R100), and `cp` counts the completions (R23): a step without a reset gives a response exactly when it accepts a
command or goes on with a waiting read, and ends it; then the trace gains the word on the port, else it gains no response.
That `rsp_valid` lasts until the next step is the model's choice (log 16). -/
def Obligations.OneResponsePerCommand : Prop :=
  ∀ s t : State, s.Inv → s.rst = false → step s = .next t → t.rst = false →
    (t.rspValid = true ↔ ((s.cmdReady = true ∧ s.pending ≠ []) ∨ s.busy = true) ∧ t.busy = false) ∧
    (t.trace.filterMap fun e => match e with | .rsp w => some w | _ => none) =
      (s.trace.filterMap fun e => match e with | .rsp w => some w | _ => none) ++
        (if t.rspValid then [t.rspData] else []) ∧
    t.cp = s.cp + (if t.rspValid && !t.halted then 1 else 0)

/-- No command is accepted while BUSY or HALTED is 1 (R21): what the host has still to issue stays as it is. -/
def Obligations.NotReadyAcceptsNothing : Prop :=
  ∀ s t : State, s.rst = false → s.cmdReady = false → step s = .next t → t.rst = false → t.pending = s.pending

/-! ## LED unit (40_led.md) -/

/-- LEDINIT (R121) with an engine free: one engine claimed, the pin stored, PIXBUF all (0,0,0), LED_INIT = 1, response
data 0, nothing transmitted; no other register is written. -/
def Obligations.LedinitClaimsEngineAndZeroesBuffer : Prop :=
  ∀ (s : State) (pin : BitVec 8), s.engFree ≠ 0 →
    ∃ t, exec (.ledinit pin) s = .next t ∧
      t.engFree.toNat = s.engFree.toNat - 1 ∧
      t.ledPin = pin ∧ t.ledInit = true ∧
      (∀ j < 25, t.pixbuf.read j = some ⟨0, 0, 0⟩) ∧
      (∀ j, 25 ≤ j → t.pixbuf.read j = s.pixbuf.read j) ∧
      t.rspData = 0x1000000000000000 ∧
      t.toRegs = completedRegs (.ledinit pin) 0 t.freeIdx
        { s.toRegs with engFree := t.engFree, ledPin := pin, ledInit := true, pixbuf := t.pixbuf } ∧
      OnlyTimePassed 0x1000000000000000 s t

/-- SETPIX (R123) after LEDINIT, index below 25: the element gets the three scaled channels, no other element and no
other register changes, nothing is transmitted. -/
def Obligations.SetpixStoresScaledPixel : Prop :=
  ∀ (s : State) (index r g b : BitVec 8), s.ledInit = true → index.toNat < 25 →
    ∃ t, exec (.setpix index r g b) s = .next t ∧
      t.pixbuf.read index.toNat =
        some ⟨BitVec.ofNat 8 (r.toNat * s.cfg.brightness / 150),
          BitVec.ofNat 8 (g.toNat * s.cfg.brightness / 150),
          BitVec.ofNat 8 (b.toNat * s.cfg.brightness / 150)⟩ ∧
      (∀ j, j ≠ index.toNat → t.pixbuf.read j = s.pixbuf.read j) ∧
      t.rspData = 0x1100000000000000 ∧
      t.toRegs = completedRegs (.setpix index r g b) 0 t.freeIdx { s.toRegs with pixbuf := t.pixbuf } ∧
      OnlyTimePassed 0x1100000000000000 s t

/-- CLEAR (R125): "sets every Pixel to (0,0,0) via setPixel; does not transmit", whatever BRIGHTNESS is. -/
def Obligations.ClearZeroesEveryPixel : Prop :=
  ∀ s : State, s.ledInit = true →
    ∃ t, exec .clear s = .next t ∧
      (∀ j < 25, t.pixbuf.read j = some ⟨0, 0, 0⟩) ∧
      (∀ j, 25 ≤ j → t.pixbuf.read j = s.pixbuf.read j) ∧
      t.rspData = 0x1200000000000000 ∧
      t.toRegs = completedRegs .clear 0 t.freeIdx { s.toRegs with pixbuf := t.pixbuf } ∧
      OnlyTimePassed 0x1200000000000000 s t

/-- "SETPIX and CLEAR are idempotent: repeating the same command leaves the same state" (R69), as to PIXBUF. -/
def Obligations.SetpixAndClearAreIdempotent : Prop :=
  ∀ (i : Instr) (s t u : State), (i = .clear ∨ ∃ index r g b, i = .setpix index r g b) →
    exec i s = .next t → exec i t = .next u → u.pixbuf = t.pixbuf

/-- WRITE (R126) after LEDINIT: the 25 stored pixels, pixel 0 first, are pushed as `g ‖ r ‖ b`, unscaled again, after
every word pushed before; no register but those of the response is written, PIXBUF is not changed, the PWM counter runs
on as time passes. -/
def Obligations.WritePushesTheFrame : Prop :=
  ∀ s : State, s.ledInit = true → (∀ i < 25, (s.pixbuf.read i).isSome = true) →
    ∃ (t : State) (px : List Pixel), exec .write s = .next t ∧
      px.length = 25 ∧ (∀ i < 25, s.pixbuf.read i = px[i]?) ∧
      t.pushedWords = s.pushedWords ++ px.map (fun p => p.g ++ p.r ++ p.b) ∧
      t.rspData = 0x1300000000000000 ∧
      t.toRegs = completedRegs .write 0 t.freeIdx s.toRegs ∧
      sequencerEvents t.trace = sequencerEvents s.trace ++ [.rsp 0x1300000000000000] ∧
      ∃ k, t.now = s.now + k ∧ t.pwmPre = (advance k s).pwmPre ∧ t.pwmCtr = (advance k s).pwmCtr ∧
        t.slpCnt = (advance k s).slpCnt

/-- What LEDINIT, SETPIX, CLEAR and WRITE do when a check fails, in the order of R233: the halt of R240 with
E_NO_ENGINE, E_NOT_INIT or E_INDEX, before anything is written. -/
def Obligations.LedCommandsHaltOnFailedCheck : Prop :=
  ∀ s : State,
    (∀ pin, s.engFree = 0 →
      exec (.ledinit pin) s = .next (haltedState .noEngine (encode (.ledinit pin)) s)) ∧
    (s.ledInit = false →
      (∀ index r g b,
        exec (.setpix index r g b) s = .next (haltedState .notInit (encode (.setpix index r g b)) s)) ∧
      exec .clear s = .next (haltedState .notInit (encode .clear) s) ∧
      exec .write s = .next (haltedState .notInit (encode .write) s)) ∧
    (s.ledInit = true → ∀ index r g b, 25 ≤ index.toNat →
      exec (.setpix index r g b) s = .next (haltedState .index (encode (.setpix index r g b)) s))

/-- `Scale` (R122): the definition, the laws and the values of the rule. -/
def Obligations.ScaleFollowsRule : Prop :=
  (∀ (cfg : Config) (c : BitVec 8), cfg.wf = true →
    (scale cfg c).toNat = c.toNat * cfg.brightness / 150 ∧ (scale cfg c).toNat ≤ c.toNat) ∧
  (∀ cfg : Config, scale cfg 0 = 0) ∧
  (∀ (cfg : Config) (c d : BitVec 8), cfg.wf = true → c ≤ d → scale cfg c ≤ scale cfg d) ∧
  (∀ (cfg : Config) (c : BitVec 8), cfg.brightness = 0 → scale cfg c = 0) ∧
  (∀ (cfg : Config) (c : BitVec 8), cfg.brightness = 150 → scale cfg c = c) ∧
  (∀ cfg : Config, cfg.brightness = 20 →
    scale cfg 0 = 0 ∧ scale cfg 1 = 0 ∧ scale cfg 150 = 20 ∧ scale cfg 255 = 34)

/-- "Mutated only through the scaled-write operation" (R124): if every stored pixel is the scaling of some request, it
is so after any step. -/
def Obligations.StepKeepsPixbufScaled : Prop :=
  ∀ s t : State, s.PixbufScaled → step s = .next t → t.PixbufScaled

/-! ## The timing engine (40_led.md R131 to R134, 20_memory.md R71, R72) -/

/-- What the engine does (R131, R134): an idle shifter given a word goes to `(w, 24)` and records it, a busy one leaves
it in TXQ; one bit cell brings the next bit; after the last bit the next word is taken and recorded, or the shifter is idle;
an idle shifter holds `led_dout` low and idle time grows, and reaching T_LATCH_NS is recorded once. That a word is taken in
the nanosecond in which it can be is the model's choice (log 6). -/
def Obligations.EngineFollowsItsSteps : Prop :=
  (∀ (s : State) (w : LedWord), s.tx.shift = .idle → s.tx.q = [] →
    (enqueue w s).tx = ⟨[], .sending w 24, 0, 0⟩ ∧ (enqueue w s).trace = s.trace ++ [.ledWord w]) ∧
  (∀ (s : State) (w v : LedWord) (n : Nat), s.tx.shift = .sending v n →
    (enqueue w s).tx = { s.tx with q := s.tx.q ++ [w] } ∧ (enqueue w s).trace = s.trace) ∧
  (∀ s : State, s.tx.shift = .idle → s.ledDout = false) ∧
  ∀ latch : Nat,
    (∀ (q : List LedWord) (w : LedWord) (cell idle : Nat),
      txRun latch 0 ⟨w :: q, .idle, cell, idle⟩ = (⟨q, .sending w 24, 0, 0⟩, [.ledWord w])) ∧
    (∀ (q : List LedWord) (w : LedWord) (n : Nat), 1 < n →
      txRun latch 1250 ⟨q, .sending w n, 0, 0⟩ = (⟨q, .sending w (n - 1), 0, 0⟩, [])) ∧
    (∀ (q : List LedWord) (w w' : LedWord),
      txRun latch 1250 ⟨w' :: q, .sending w 1, 0, 0⟩ = (⟨q, .sending w' 24, 0, 0⟩, [.ledWord w'])) ∧
    (0 < latch → ∀ w : LedWord, txRun latch 1250 ⟨[], .sending w 1, 0, 0⟩ = (⟨[], .idle, 0, 0⟩, [])) ∧
    (∀ idle d : Nat, idle + d < latch → txRun latch d ⟨[], .idle, 0, idle⟩ = (⟨[], .idle, 0, idle + d⟩, [])) ∧
    (∀ idle d : Nat, idle < latch → latch ≤ idle + d →
      txRun latch d ⟨[], .idle, 0, idle⟩ = (⟨[], .idle, 0, latch⟩, [.ledLatch])) ∧
    (∀ d : Nat, txRun latch d ⟨[], .idle, 0, latch⟩ = (⟨[], .idle, 0, latch⟩, []))

/-- The closed form of the engine is its nanoseconds one after the other, from every legal engine state. -/
def Obligations.EngineRunIsIteratedNanoseconds : Prop :=
  ∀ (cfg : Config) (d : Nat) (t : TxEngine), t.Good cfg →
    txRun cfg.tLatchNs d t = txTicks cfg.tLatchNs d t

/-- A word goes out most significant bit first, each bit a cell of 1,250 ns that is high for T1H_NS or T0H_NS (R65,
R131, R132): the line `j * 1250 + e` ns after the word was taken. -/
def Obligations.WordGoesOutMsbFirst : Prop :=
  ∀ (s : State) (w : LedWord) (q : List LedWord) (j e : Nat),
    s.rst = false → s.tx = ⟨q, .sending w 24, 0, 0⟩ → j < 24 → e < 1250 →
    State.ledDout { s with tx := (txRun s.cfg.tLatchNs (j * 1250 + e) s.tx).1 } =
      decide (e < if w.getLsbD (23 - j) then s.cfg.t1hNs else s.cfg.t0hNs)

/-- Words leave in the order they entered, none is lost, and nothing but WRITE pushes any (R71, R72, R73): over a step
the words pushed since reset grow by nothing or by the frame of the WRITE the step runs. -/
def Obligations.StepKeepsWordOrder : Prop :=
  ∀ s t : State, s.rst = false → step s = .next t → t.rst = false →
    ∃ pushed, t.pushedWords = s.pushedWords ++ pushed ∧
      (pushed = [] ∨
        (pushed.length = 25 ∧ s.pending.head? = some 0x1300000000000000 ∧
          ∀ i < 25, pushed[i]? = (s.pixbuf.read i).map fun p => p.g ++ p.r ++ p.b))

/-- The wait of R74 and R281: `(LED_FIFO_DEPTH + 1) * 30,000 ns + T_LATCH_NS` after any moment in which the block
pushes nothing more, the last frame is out and latched. Whole nanoseconds and their remainder are the model's (log 5). -/
def Obligations.FrameGapLatchesTheFrame : Prop :=
  ∀ (s : State) (k : Nat), s.cfg.wf = true → s.tx.Good s.cfg →
    ((s.cfg.ledFifoDepth + 1) * 30000 + s.cfg.tLatchNs) * s.cfg.sysclkHz ≤ k * 1000000000 →
    (advance k s).tx = ⟨[], .idle, 0, s.cfg.tLatchNs⟩

/-- A WRITE begun with the line latched (R126, R133, R137): its 25 words go out with no latch between them, then the
latch; a chain of LEDs displays at LED `i` the stored pixel `i`. Needs SYSCLK_HZ ≥ 1,000,000 as R133 does; that a push is
shorter than a word is the model's bound of log 4. -/
def Obligations.WriteDisplaysTheFrame : Prop :=
  ∀ (s : State) (shown : List LedWord), s.Inv → s.ledInit = true → 1000000 ≤ s.cfg.sysclkHz →
    s.tx = ⟨[], .idle, 0, s.cfg.tLatchNs⟩ → shown.length = 25 →
    ∃ (t : State) (px : List Pixel), exec .write s = .next t ∧
      px.length = 25 ∧ (∀ i < 25, s.pixbuf.read i = px[i]?) ∧
      ∀ k, ((s.cfg.ledFifoDepth + 1) * 30000 + s.cfg.tLatchNs) * s.cfg.sysclkHz ≤ k * 1000000000 →
        engineEvents (advance k t).trace =
          engineEvents s.trace ++ px.map (fun p => Event.ledWord (p.g ++ p.r ++ p.b)) ++ [.ledLatch] ∧
        (chainRun ⟨[], shown⟩ ((engineEvents (advance k t).trace).drop (engineEvents s.trace).length)).shown.map
          wordColour = px

/-! ## TONE unit (41_tone.md) -/

/-- `TopOf` and `LevelOf` (R152): the formulas, the ranges, the worked example of the document. -/
def Obligations.TopAndLevelFollowRule : Prop :=
  (∀ (cfg : Config) (f : Nat), cfg.wf = true → 1 ≤ f → f ≤ cfg.sysclkHz →
    topOf cfg f = cfg.sysclkHz / f - 1 ∧ levelOf (topOf cfg f) = 3 * topOf cfg f / 4 ∧
    topOf cfg f < 2 ^ 32 ∧ topOf cfg f ≤ cfg.sysclkHz - 1 ∧ levelOf (topOf cfg f) ≤ topOf cfg f) ∧
  (∀ (cfg : Config) (f g : Nat), 1 ≤ f → f ≤ g → topOf cfg g ≤ topOf cfg f) ∧
  (∀ cfg : Config, cfg.wf = true → topOf cfg cfg.sysclkHz = 0) ∧
  levelOf 0 = 0 ∧
  (∀ cfg : Config, cfg.sysclkHz = 125000000 → topOf cfg 1000 = 124999) ∧ levelOf 124999 = 93749

/-- PWMINIT (R151): the pin, the divider PWM_CLKDIV, PWM_PRE = 0, PWM_LEVEL = 0, PWM_EN = 1, PWM_INIT = 1; PWM_TOP is
not written, PWM_CTR changes only as the enabled counter runs; the output is low. -/
def Obligations.PwminitEnablesSilentChannel : Prop :=
  ∀ (s : State) (pin : BitVec 8),
    ∃ t, exec (.pwminit pin) s = .next t ∧
      t.pwmOut = false ∧
      t.rspData = 0x2000000000000000 ∧
      t.toRegs = completedRegs (.pwminit pin) 0 t.freeIdx
        { s.toRegs with
            pwmPin := pin
            pwmDiv := BitVec.ofNat 8 s.cfg.pwmClkdiv
            pwmLevel := 0
            pwmEn := true
            pwmInit := true } ∧
      OnlyTimePassed 0x2000000000000000
        { s with pwmDiv := BitVec.ofNat 8 s.cfg.pwmClkdiv, pwmEn := true, pwmPre := 0 } t

/-- TONE (R153, R154) with its four checks passed: top and level as the rule computes them, the order of its events, at
least `durationMs + 50` ms, PWM_TOP kept and PWM_LEVEL back at 0; no other register is written, no LED word pushed, and the
timing engine runs on for the cycles that pass (R13, R17, R131). -/
def Obligations.ToneSoundsThenSilences : Prop :=
  ∀ (s : State) (pin : BitVec 8) (f : BitVec 32) (ms : BitVec 16),
    s.cfg.wf = true → s.pwmInit = true → pin = s.pwmPin → f ≠ 0 → f.toNat ≤ s.cfg.sysclkHz →
    ∃ t, exec (.tone pin f ms) s = .next t ∧
      t.pwmTop.toNat = s.cfg.sysclkHz / f.toNat - 1 ∧
      t.pwmLevel = 0 ∧ t.pwmCtr ≤ t.pwmTop ∧ t.slpCnt = 0 ∧ t.pwmOut = false ∧
      t.rspData = 0x2100000000000000 ∧
      t.toRegs = completedRegs (.tone pin f ms) 0 t.freeIdx { s.toRegs with pwmTop := t.pwmTop, pwmLevel := 0 } ∧
      sequencerEvents t.trace = sequencerEvents s.trace ++
        [.tonOn (s.cfg.sysclkHz / f.toNat - 1) (3 * (s.cfg.sysclkHz / f.toNat - 1) / 4), .slept ms.toNat, .tonOff,
          .slept 50, .rsp 0x2100000000000000] ∧
      s.now + (ms.toNat + 50) * (s.cfg.sysclkHz / 1000) ≤ t.now ∧
      t.pushedWords = s.pushedWords ∧ ∃ k, EngineRan k s t

/-- What TONE does when a check fails (R153, R233): E_NOT_INIT, then E_PIN, then E_FREQ_ZERO, then E_FREQ_RANGE, each a
halt before any register is written. -/
def Obligations.ToneHaltsOnFailedCheck : Prop :=
  ∀ (s : State) (pin : BitVec 8) (f : BitVec 32) (ms : BitVec 16),
    (s.pwmInit = false →
      exec (.tone pin f ms) s = .next (haltedState .notInit (encode (.tone pin f ms)) s)) ∧
    (s.pwmInit = true → pin ≠ s.pwmPin →
      exec (.tone pin f ms) s = .next (haltedState .pin (encode (.tone pin f ms)) s)) ∧
    (s.pwmInit = true → pin = s.pwmPin → f = 0 →
      exec (.tone pin f ms) s = .next (haltedState .freqZero (encode (.tone pin f ms)) s)) ∧
    (s.pwmInit = true → pin = s.pwmPin → f ≠ 0 → s.cfg.sysclkHz < f.toNat →
      exec (.tone pin f ms) s = .next (haltedState .freqRange (encode (.tone pin f ms)) s))

/-- The counter agent (R156): what one rising edge of `clk` does, in every state, and the period of
(PWM_TOP + 1) * PWM_DIV cycles. -/
def Obligations.CounterFollowsEdgeRule : Prop :=
  ∀ s : State,
    (s.pwmEn = true →
      (s.pwmDiv.toNat ≤ s.pwmPre.toNat + 1 →
        (advance 1 s).pwmPre = 0 ∧
        (s.pwmTop.toNat ≤ s.pwmCtr.toNat → (advance 1 s).pwmCtr = 0) ∧
        (s.pwmCtr.toNat < s.pwmTop.toNat → (advance 1 s).pwmCtr.toNat = s.pwmCtr.toNat + 1)) ∧
      (s.pwmPre.toNat + 1 < s.pwmDiv.toNat →
        (advance 1 s).pwmPre.toNat = s.pwmPre.toNat + 1 ∧ (advance 1 s).pwmCtr = s.pwmCtr) ∧
      (s.pwmPre.toNat < s.pwmDiv.toNat → s.pwmCtr ≤ s.pwmTop →
        (advance ((s.pwmTop.toNat + 1) * s.pwmDiv.toNat) s).pwmPre = s.pwmPre ∧
        (advance ((s.pwmTop.toNat + 1) * s.pwmDiv.toNat) s).pwmCtr = s.pwmCtr)) ∧
    (s.pwmEn = false → ∀ k, (advance k s).pwmPre = s.pwmPre ∧ (advance k s).pwmCtr = s.pwmCtr)

/-- "`pwm_out = PWM_EN and (PWM_CTR < PWM_LEVEL)`", so low for every counter value when PWM_LEVEL = 0 (R157); with the
counter in 0..PWM_TOP and a level up to PWM_TOP the output is high on the first PWM_LEVEL counts of a period. -/
def Obligations.OutputIsComparison : Prop :=
  ∀ s : State, s.rst = false →
    (s.pwmOut = true ↔ s.pwmEn = true ∧ s.pwmCtr.toNat < s.pwmLevel.toNat) ∧
    (s.pwmLevel = 0 → s.pwmOut = false)

/-- The waveform while a tone sounds (R158): periodic with period `(SYSCLK_HZ div f) * PWM_DIV` cycles, and in any
stretch of that length high for `level * PWM_DIV` cycles. -/
def Obligations.ToneWaveform : Prop :=
  ∀ (s : State) (f k : Nat), s.cfg.wf = true → s.rst = false → s.pwmEn = true → 1 ≤ s.pwmDiv.toNat →
    1 ≤ f → f ≤ s.cfg.sysclkHz →
    (advance (k + s.cfg.sysclkHz / f * s.pwmDiv.toNat) (toneStart f s)).pwmOut =
      (advance k (toneStart f s)).pwmOut ∧
    ((List.range (s.cfg.sysclkHz / f * s.pwmDiv.toNat)).filter
      fun j => (advance (k + j) (toneStart f s)).pwmOut).length =
        3 * (s.cfg.sysclkHz / f - 1) / 4 * s.pwmDiv.toNat

/-- "A tone can never be left sounding, not even by a halt" (R161): PWM_LEVEL is 0 after reset, and every step keeps it
so. -/
def Obligations.StepKeepsSilence : Prop :=
  (∀ cfg : Config, (State.resetWith cfg).pwmLevel = 0) ∧
    ∀ s t : State, s.pwmLevel = 0 → step s = .next t → t.pwmLevel = 0 ∧ t.pwmOut = false

/-- The closed form of the PWM counter is its edges one after the other, from every state. -/
def Obligations.CounterRunIsIteratedEdges : Prop :=
  ∀ (k : Nat) (div pre : BitVec 8) (top ctr : BitVec 32),
    pwmRun k div pre top ctr = (fun p : BitVec 8 × BitVec 32 => pwmEdge div p.1 top p.2)^[k] (pre, ctr)

/-! ## Time (00_scope.md R8, R13; 70_reset_and_hazards.md R290) -/

/-- Running the block `k` cycles in closed form (log 2) is `k` rising edges of `clk` one after the other, from every state
with a legal engine and a part of a nanosecond left over that is less than one. That the engine counts whole nanoseconds
and carries their remainder is the model's choice (log 5). -/
def Obligations.AdvanceIsIteratedClockEdges : Prop :=
  ∀ (k : Nat) (s : State), s.tx.Good s.cfg → s.nsFrac < s.cfg.sysclkHz → advance k s = clockEdges k s

/-- The lower bounds of R290: a command that completes has taken at least its sleeps. -/
def Obligations.CommandsTakeTheirSleeps : Prop :=
  ∀ (i : Instr) (s t : State), s.cfg.wf = true → exec i s = .next t → t.halted = false → t.busy = false →
    s.now + sleepMs i * (s.cfg.sysclkHz / 1000) ≤ t.now

/-! ## BTN unit (42_button.md) -/

/-- READSYM (R172, R174) when the environment supplies an asserted sample after some released ones: the first asserted
sample decides, A before B; the polls, the feedback tone, its gap and the debounce period, in order; the response; no
other register is written, SEQBUF and SEQLEN among them; the timing engine runs on for the cycles that pass (R13, R17,
R131). -/
def Obligations.ReadsymReturnsFirstPress : Prop :=
  ∀ (s : State) (waits : List Sample) (p : Sample) (rest : List Sample) (sym : Symbol),
    s.cfg.wf = true → s.pwmInit = true →
    s.inputs = waits ++ p :: rest → (∀ q ∈ waits, q.aN = true ∧ q.bN = true) →
    ((p.aN = false ∧ sym = s.cfg.symA) ∨ (p.aN = true ∧ p.bN = false ∧ sym = s.cfg.symB)) →
    ∃ t, exec .readsym s = .next t ∧
      t.rspData = (if sym = .red then 0x3000000000000001 else 0x3000000000000000) ∧
      t.pwmTop.toNat = s.cfg.sysclkHz / 500 - 1 ∧
      t.toRegs = completedRegs .readsym (if sym = .red then 1 else 0) t.freeIdx
        { s.toRegs with
            inputs := rest
            btnState := .idle
            btnRem := 0
            result := sym
            resultValid := true
            pwmTop := t.pwmTop
            pwmLevel := 0 } ∧
      sequencerEvents t.trace = sequencerEvents s.trace ++
        waits.map (fun q => .polled q.aN q.bN) ++
        [.polled p.aN p.bN,
          .tonOn (s.cfg.sysclkHz / 500 - 1) (3 * (s.cfg.sysclkHz / 500 - 1) / 4), .slept 100, .tonOff, .slept 50,
          .slept 200, .rsp t.rspData] ∧
      s.now + waits.length * s.cfg.pollCycles + 350 * (s.cfg.sysclkHz / 1000) ≤ t.now ∧
      t.slpCnt = 0 ∧ t.pushedWords = s.pushedWords ∧ ∃ k, EngineRan k s t

/-- READSEQ (R176) when the samples supplied hold at least `length` presses: SEQBUF gets their symbols in order, SEQLEN
is `length`, the response carries `length`; the samples used end with the last press; all other registers stay. R41 leaves
the elements from `length` on unspecified: that they stay as they were is the model's choice (log 9). The timing engine
runs on for the cycles that pass (R13, R17, R131), and a sleep timer at 0, or one that has slept, is at 0 (R43). -/
def Obligations.ReadseqStoresThePresses : Prop :=
  ∀ (s : State) (length : BitVec 16) (presses : List Symbol),
    s.cfg.wf = true → s.pwmInit = true → length.toNat ≤ 100 →
    (s.inputs.filterMap fun p =>
      if p.aN = false then some s.cfg.symA else if p.bN = false then some s.cfg.symB else none) = presses →
    length.toNat ≤ presses.length →
    ∃ (t : State) (used : List Sample), exec (.readseq length) s = .next t ∧
      (∀ i < length.toNat, t.seqbuf.read i = presses[i]?) ∧
      (∀ i, length.toNat ≤ i → t.seqbuf.read i = s.seqbuf.read i) ∧
      t.seqlen.toNat = length.toNat ∧
      s.inputs = used ++ t.inputs ∧
      (used.filterMap fun p =>
        if p.aN = false then some s.cfg.symA else if p.bN = false then some s.cfg.symB else none) =
          presses.take length.toNat ∧
      (∀ p, used.getLast? = some p → p.aN = false ∨ p.bN = false) ∧
      t.rspData = (0x31 : BitVec 8) ++ (0 : BitVec 40) ++ length ∧
      t.toRegs = completedRegs (.readseq length) (length.setWidth 32) t.freeIdx
        { s.toRegs with
            inputs := t.inputs
            btnState := .idle
            btnRem := 0
            result := if length = 0 then s.result else (presses.take length.toNat).getLast?.getD s.result
            resultValid := s.resultValid || decide (length ≠ 0)
            seqbuf := t.seqbuf
            seqlen := t.seqlen
            pwmTop := if length = 0 then s.pwmTop else BitVec.ofNat 32 (s.cfg.sysclkHz / 500 - 1)
            pwmLevel := if length = 0 then s.pwmLevel else 0 } ∧
      s.now + length.toNat * 350 * (s.cfg.sysclkHz / 1000) ≤ t.now ∧
      (length ≠ 0 ∨ s.slpCnt = 0 → t.slpCnt = 0) ∧
      t.pushedWords = s.pushedWords ∧ ∃ k, EngineRan k s t

/-- A read for which the samples supplied hold too few presses waits (R246): all samples are used, BUSY = 1, the sampler
is in POLL, there is no response, `cp` stays, and neither HALTED nor FAULT is touched; a READSEQ has stored the presses
it got. -/
def Obligations.ReadWaitsWithoutPress : Prop :=
  ∀ (s : State) (i : Instr) (n : Nat) (presses : List Symbol),
    s.pwmInit = true →
    ((i = .readsym ∧ n = 1) ∨ ∃ length : BitVec 16, i = .readseq length ∧ n = length.toNat ∧ n ≤ 100) →
    (s.inputs.filterMap fun p =>
      if p.aN = false then some s.cfg.symA else if p.bN = false then some s.cfg.symB else none) = presses →
    presses.length < n →
    ∃ t, exec i s = .next t ∧
      t.busy = true ∧ t.running = some i ∧ t.btnState = .poll ∧ t.btnRem.toNat = n - presses.length ∧
      t.inputs = [] ∧ t.rspValid = s.rspValid ∧ t.cp = s.cp ∧ t.halted = s.halted ∧ t.fault = s.fault ∧
      t.pending = s.pending ∧
      (i ≠ .readsym → t.seqlen.toNat = presses.length ∧ ∀ j < presses.length, t.seqbuf.read j = presses[j]?) ∧
      (s.tx.Good s.cfg → s.nsFrac < s.cfg.sysclkHz → ∃ k, EngineRan k s t)

/-- "If the environment never asserts an input, BUSY stays 1 for ever, no response is given, HALTED stays 0 and FAULT
stays 0" (R246): from a waiting read with no press to come, any number of steps only polls. That the inputs are released
where none is listed, and one poll iteration a step, are the model's choices (log 7, log 8). -/
def Obligations.WaitingReadHangs : Prop :=
  ∀ (n : Nat) (s : State), s.cfg.wf = true → s.rst = false → s.halted = false → s.Waiting → s.inputs = [] →
    s.resets = [] → ∃ t : State, Host.Core.run Sys2Proof.core n s = .next t ∧
      t.toRegs = s.toRegs ∧
      sequencerEvents t.trace = sequencerEvents s.trace ++ List.replicate n (.polled true true) ∧
      t.now = s.now + n * s.cfg.pollCycles ∧
      (s.tx.Good s.cfg → s.nsFrac < s.cfg.sysclkHz → EngineRan (n * s.cfg.pollCycles) s t)

/-- A read that waited goes on where it was (R171, R246): splitting the samples before a read and while it waits makes
no difference to where it ends. The step at which a read waits is the model's choice (log 8). -/
def Obligations.WaitingReadGoesOn : Prop :=
  ∀ (s w : State) (i : Instr) (early late : List Sample),
    s.cfg.wf = true → s.rst = false → s.resets = [] → s.halted = false → s.busy = true → s.pwmInit = true →
    (i = .readsym ∨ ∃ length : BitVec 16, i = .readseq length ∧ length.toNat ≤ 100) → late ≠ [] →
    exec i { s with inputs := early } = .next w → w.busy = true →
    step { w with inputs := late } = exec i { s with inputs := early ++ late }

/-- "`READSEQ n` leaves the same RESULT, the same tone and sleep sequence and the same inputs consumed as `n` READSYM
commands" (R176 corner case d). -/
def Obligations.ReadseqIsRepeatedReadsym : Prop :=
  ∀ (s t : State) (length : BitVec 16), s.Inv → s.cmdReady = true → s.resets = [] → s.pwmInit = true →
    length.toNat ≤ 100 → exec (.readseq length) s = .next t → t.busy = false →
    ∃ u : State,
      Host.Core.run Sys2Proof.core length.toNat
        { s with pending := List.replicate length.toNat 0x3000000000000000 } = .next u ∧
      u.result = t.result ∧ u.resultValid = t.resultValid ∧ u.inputs = t.inputs ∧ u.pwmTop = t.pwmTop ∧
      (sequencerEvents u.trace).filter (fun e => match e with | .rsp _ => false | _ => true) =
        (sequencerEvents t.trace).filter (fun e => match e with | .rsp _ => false | _ => true)

/-- READSYM and READSEQ when a check fails (R174, R176, R233): E_NOT_INIT, then E_SEQ_LEN, before the first sample. -/
def Obligations.ReadsHaltOnFailedCheck : Prop :=
  ∀ s : State,
    (s.pwmInit = false →
      exec .readsym s = .next (haltedState .notInit (encode .readsym) s) ∧
      ∀ length, exec (.readseq length) s = .next (haltedState .notInit (encode (.readseq length)) s)) ∧
    (s.pwmInit = true → ∀ length : BitVec 16, 100 < length.toNat →
      exec (.readseq length) s = .next (haltedState .seqLen (encode (.readseq length)) s))

/-! ## Service commands (43_service.md) -/

/-- DELAY (R190): sleeps `ms` milliseconds, at least `ms * CYC_PER_MS` cycles; no register but those of the response
changes; the PWM counter and the timing engine keep running for the cycles that pass. -/
def Obligations.DelayOnlyLetsTimePass : Prop :=
  ∀ (s : State) (ms : BitVec 16), s.cfg.wf = true →
    ∃ (t : State) (k : Nat), exec (.delay ms) s = .next t ∧
      t.rspData = 0x4000000000000000 ∧
      t.toRegs = completedRegs (.delay ms) 0 t.freeIdx s.toRegs ∧
      sequencerEvents t.trace = sequencerEvents s.trace ++ [.slept ms.toNat, .rsp 0x4000000000000000] ∧
      ms.toNat * (s.cfg.sysclkHz / 1000) ≤ k ∧ EngineRan k s t ∧
      t.pwmPre = (advance k s).pwmPre ∧ t.pwmCtr = (advance k s).pwmCtr ∧ t.slpCnt = 0

/-- GET of the selectors 0x00 to 0x07 (R44, R192): the data of the table, "bits not listed read as 0", in every state;
"GET changes no state". -/
def Obligations.GetReturnsTheRegister : Prop :=
  ∀ (s : State) (sel : Selector) (data : Nat),
    (sel, data) ∈
      [(.status, s.ledInit.toNat + 2 * s.pwmInit.toNat + 4 * s.resultValid.toNat + 256 * s.engFree.toNat),
        (.pwmCsr, s.pwmEn.toNat + 256 * s.pwmDiv.toNat + 65536 * s.pwmPin.toNat),
        (.pwmTop, s.pwmTop.toNat), (.pwmLevel, s.pwmLevel.toNat), (.pwmCtr, s.pwmCtr.toNat),
        (.ledCsr, s.ledInit.toNat + 256 * s.ledPin.toNat),
        (.result, (if s.resultValid = true ∧ s.result = .red then 1 else 0) + 256 * s.resultValid.toNat),
        (.seqlen, s.seqlen.toNat)] →
    ∃ t, exec (.get sel 0) s = .next t ∧
      t.rspData.toNat = 0x41 * 2 ^ 56 + data ∧
      t.toRegs = completedRegs (.get sel 0) (BitVec.ofNat 32 data) t.freeIdx s.toRegs ∧
      OnlyTimePassed t.rspData s t

/-- GET PIXBUF (R192, R66) after LEDINIT, index below 25: the stored channels, r in [23:16], g in [15:8], b in [7:0];
"GET changes no state". -/
def Obligations.GetReturnsThePixel : Prop :=
  ∀ (s : State) (idx : BitVec 16) (px : Pixel), s.ledInit = true → idx.toNat < 25 →
    s.pixbuf.read idx.toNat = some px →
    ∃ t, exec (.get .pixbuf idx) s = .next t ∧
      t.rspData = (0x41 : BitVec 8) ++ (0 : BitVec 32) ++ px.r ++ px.g ++ px.b ∧
      t.toRegs = completedRegs (.get .pixbuf idx) ((0 : BitVec 8) ++ px.r ++ px.g ++ px.b) t.freeIdx s.toRegs ∧
      OnlyTimePassed t.rspData s t

/-- GET SEQBUF (R192), index below SEQLEN: the symbol in bit 0; "GET changes no state". -/
def Obligations.GetReturnsTheSymbol : Prop :=
  ∀ (s : State) (idx : BitVec 16) (sym : Symbol), idx.toNat < s.seqlen.toNat →
    s.seqbuf.read idx.toNat = some sym →
    ∃ t, exec (.get .seqbuf idx) s = .next t ∧
      t.rspData = (if sym = .red then 0x4100000000000001 else 0x4100000000000000) ∧
      t.toRegs = completedRegs (.get .seqbuf idx) (if sym = .red then 1 else 0) t.freeIdx s.toRegs ∧
      OnlyTimePassed t.rspData s t

/-- GET when a check fails (R192, R233): E_NOT_INIT for PIXBUF before LEDINIT, E_INDEX outside PIXBUF or from SEQLEN on,
E_ILLEGAL for an index with a selector that takes none. -/
def Obligations.GetHaltsOnFailedCheck : Prop :=
  ∀ (s : State) (idx : BitVec 16),
    (s.ledInit = false →
      exec (.get .pixbuf idx) s = .next (haltedState .notInit (encode (.get .pixbuf idx)) s)) ∧
    (s.ledInit = true → 25 ≤ idx.toNat →
      exec (.get .pixbuf idx) s = .next (haltedState .index (encode (.get .pixbuf idx)) s)) ∧
    (s.seqlen.toNat ≤ idx.toNat →
      exec (.get .seqbuf idx) s = .next (haltedState .index (encode (.get .seqbuf idx)) s)) ∧
    (∀ sel : Selector, sel.code.toNat ≤ 7 → idx ≠ 0 →
      exec (.get sel idx) s = .next (haltedState .illegal (encode (.get sel idx)) s))

/-- GET PWM_CTR returns a value in 0..PWM_TOP when PWM_EN = 1, and 0 when PWM_EN = 0 (R193); GET PWM_LEVEL returns 0
(R192): in every state that meets the invariant, through the step that accepts the command. -/
def Obligations.GetOfToneCounterIsBounded : Prop :=
  ∀ (s : State) (rest : List Word64), s.Inv → s.cmdReady = true → s.resets = [] →
    (s.pending = 0x4104000000000000 :: rest →
      ∃ t, step s = .next t ∧ t.rspData.toNat ≤ 0x41 * 2 ^ 56 + s.pwmTop.toNat ∧
        0x41 * 2 ^ 56 ≤ t.rspData.toNat ∧ (s.pwmEn = false → t.rspData = 0x4100000000000000)) ∧
    (s.pending = 0x4103000000000000 :: rest →
      ∃ t, step s = .next t ∧ t.rspData = 0x4100000000000000)

/-! ## Halt and reset (60_exceptions.md R240 to R243, 70_reset_and_hazards.md R270, R271) -/

/-- After a halt (R240, R241, R243): in any number of steps without a reset no command is accepted, no event of the
sequencer happens, every register stays, FAULT among them; the two agents go on with the clock. That a step is then one
clock cycle is the model's choice (log 2, log 13). -/
def Obligations.HaltIsForever : Prop :=
  ∀ (n : Nat) (s : State), s.cfg.wf = true → s.rst = false → s.halted = true → s.tx.Good s.cfg →
    s.nsFrac < s.cfg.sysclkHz → s.resets = [] →
    ∃ t : State, Host.Core.run Sys2Proof.core n s = .next t ∧
      t.toRegs = { s.toRegs with rspValid := if n = 0 then s.rspValid else false } ∧
      t.toClocked = (advance n s).toClocked ∧
      sequencerEvents t.trace = sequencerEvents s.trace

/-- In reset (R270, 10_state.md R21): in every state with `rst` = 1 the output ports are 0; in every such state that meets
the invariant every register has its value of R271 (RESULT, PIXBUF and SEQBUF get none a claim could use), and after a step
from any; `rst` stays 1 for as many edges of `clk` as the environment holds it, no command is accepted, and from the edge
that takes its release on `cmd_ready` = 1. -/
def Obligations.ResetGivesResetValues : Prop :=
  (∀ s : State, s.rst = true →
    s.cmdReady = false ∧ s.rspValidOut = false ∧ s.rspDataOut = 0 ∧ s.pwmOut = false ∧ s.ledDout = false ∧
      s.haltedOut = false ∧ s.faultOut = 0) ∧
  (∀ s : State, s.Inv → s.rst = true → s.HasResetValues) ∧
  ∀ s : State, s.cfg.wf = true → s.rst = true →
    ∃ t, step s = .next t ∧ t.HasResetValues ∧ t.cfg = s.cfg ∧ t.pending = s.pending ∧ t.inputs = s.inputs ∧
      (s.rstHold = 0 → t.cmdReady = true ∧ t.rst = false) ∧
      (∀ n, s.rstHold = n + 1 → t.rst = true ∧ t.rstHold = n) ∧
      t.rspValidOut = false ∧ t.rspDataOut = 0 ∧ t.pwmOut = false ∧ t.ledDout = false ∧
      t.haltedOut = false ∧ t.faultOut = 0

/-- The invariant holds after reset, for every legal configuration (R271). -/
def Obligations.ResetMeetsInvariant : Prop :=
  ∀ cfg : Config, cfg.wf = true → (State.resetWith cfg).Inv ∧ State.reset = State.resetWith Config.worked

/-- HEADLINE. Every step keeps the invariant, from every state that meets it, whatever the host presents and the buttons
do: the memories' canonical form and held elements, SEQLEN up to 100, the engine count, silence between commands, the
counter up to its top, the legal engine, BUSY only for a waiting read, HALTED exactly when FAULT is set. -/
def Obligations.StepKeepsInvariant : Prop :=
  ∀ s t : State, s.Inv → step s = .next t → t.Inv

/-- In a state that meets the invariant a step always has a next state: the model's own stops (log 9, log 15) are for
states no run reaches. -/
def Obligations.StepAlwaysGoesOn : Prop :=
  ∀ s : State, s.Inv → ∃ t, step s = .next t

/-- The parameters of R7 are fixed, and a configuration outside their ranges is refused: the spec says so of SYSCLK_HZ and
BRIGHTNESS (93_implementation_defined.md U16, U17); that the other ranges of R7 are refused as well is the model's choice
(log 15). -/
def Obligations.ConfigurationIsFixedAndChecked : Prop :=
  (∀ s t : State, step s = .next t → t.cfg = s.cfg) ∧
  (∀ s : State, 150 < s.cfg.brightness ∨ s.cfg.sysclkHz < 1000 ∨ 2 ^ 32 ≤ s.cfg.sysclkHz ∨
      s.cfg.pwmClkdiv = 0 ∨ 255 < s.cfg.pwmClkdiv ∨ 255 < s.cfg.engines ∨ s.cfg.ledFifoDepth = 0 ∨ s.cfg.t0hNs = 0 ∨
      s.cfg.t1hNs ≤ s.cfg.t0hNs ∨ 1250 ≤ s.cfg.t1hNs ∨ s.cfg.tLatchNs ≤ 1250 ∨ s.cfg.pollCycles = 0 →
    step s = .refused .badConfiguration)

/-! ## The reference host (44_round_engine.md) -/

/-- JUDGING (R207): no command is issued, and "`match` holds exactly when Sequence[i] = PlayerSequence[i] for every i in 0..Level-1". -/
def Obligations.JudgingComparesEveryPosition : Prop :=
  ∀ (g : Game), g.phase = .judging → g.sequence.length = g.level → g.player.length = g.level →
    gameCommands g = [] ∧ ∀ draw : Nat → Nat → Symbol,
      ((gameNext draw g).phase = .advancing ↔ ∀ i < g.level, g.sequence[i]? = g.player[i]?) ∧
      ((gameNext draw g).phase = .resetting ↔ ∃ i < g.level, g.sequence[i]? ≠ g.player[i]?)

/-- The level (R201, R208, R209, R213) and the draw (R204): one more after a match below 100, 100 after a match at 100,
1 after a mismatch; a new sequence of length Level, the next draw of the oracle, so that no draw serves twice; a reset puts
Level back to 1 and discards the sequences (70_reset_and_hazards.md R271). That the draws are counted, and that a reset
leaves their count as it was, is the model's choice (log 17). Level stays in 1..100, so READSEQ is never asked for more. -/
def Obligations.LevelStaysInRange : Prop :=
  ∀ (g : Game) (draw : Nat → Nat → Symbol), 1 ≤ g.level → g.level ≤ 100 →
    (g.phase = .advancing → g.level < 100 → (gameNext draw g).level = g.level + 1) ∧
    (g.phase = .advancing → g.level = 100 → (gameNext draw g).level = 100) ∧
    (g.phase = .resetting → (gameNext draw g).level = 1) ∧
    (g.phase = .generating → (gameNext draw g).sequence.length = g.level ∧
      (∀ i < g.level, (gameNext draw g).sequence[i]? = some (draw g.draws i)) ∧
      (gameNext draw g).draws = g.draws + 1) ∧
    (g.phase ≠ .generating → (gameNext draw g).draws = g.draws ∧ (gameNext draw g).sequence = g.sequence) ∧
    (∀ (s : State) (b : Bench), s.rst = true → benchStep draw ⟨g, s⟩ = .next b →
      b.game.level = 1 ∧ b.game.sequence = [] ∧ b.game.player = [] ∧ b.game.draws = g.draws) ∧
    1 ≤ (gameNext draw g).level ∧ (gameNext draw g).level ≤ 100 ∧
    (∀ n, Instr.readseq n ∈ gameCommands g → n.toNat = g.level) ∧
    (∀ i ∈ gameCommands g, i.wellFormed = true)

/-- The number of commands of a round and the time they sleep (R215). -/
def Obligations.RoundCommandsAndTimes : Prop :=
  ∀ g : Game, 1 ≤ g.level → g.level ≤ 100 →
    (g.phase = .displaying → g.sequence.length = g.level →
      (gameCommands g).length = g.level * 31 ∧ ((gameCommands g).map sleepMs).sum = g.level * 1500) ∧
    (g.phase = .collecting →
      (gameCommands g).length = 1 + g.level ∧ ((gameCommands g).map sleepMs).sum = g.level * 350) ∧
    (g.phase = .advancing → (gameCommands g).length = 31 ∧ ((gameCommands g).map sleepMs).sum = 1250) ∧
    (g.phase = .resetting → (gameCommands g).length = 31 ∧ ((gameCommands g).map sleepMs).sum = 1550)

/-- "The host issues one command, waits for its response, and only then issues the next" (R200); Sequence and
PlayerSequence have the length Level (R201): in every run of the reference host against the block, from every state that
meets the invariant. It holds at the start. That the host takes no time of its own, and that no step, a reset neither, takes a draw back, are
the model's choices (log 17). -/
def Obligations.HostIssuesOneCommandAtATime : Prop :=
  (∀ (cfg : Config) (ledPin buzzerPin : BitVec 8), cfg.wf = true → (benchStart cfg ledPin buzzerPin).Inv) ∧
  ∀ (draw : Nat → Nat → Symbol) (b b' : Bench), b.Inv → benchStep draw b = .next b' → b'.Inv ∧
    b.game.draws ≤ b'.game.draws

/-- The start (R202): LEDINIT, then PWMINIT, then the first round at Level 1; "if LEDINIT faults the host never starts",
and a host that has stopped does nothing any more. -/
def Obligations.HostStartsOrStops : Prop :=
  ∀ (draw : Nat → Nat → Symbol) (cfg : Config) (ledPin buzzerPin : BitVec 8),
    cfg.wf = true → (cfg.ledFifoDepth + 1) * 30000 + cfg.tLatchNs ≤ 1000000 →
    (0 < cfg.engines →
      ∃ b, benchRun draw 7 (benchStart cfg ledPin buzzerPin) = .next b ∧ b.game.phase = .generating ∧
        b.game.level = 1 ∧ b.block.ledInit = true ∧ b.block.ledPin = ledPin ∧ b.block.pwmInit = true ∧
        b.block.pwmPin = buzzerPin ∧ b.block.cp = 2) ∧
    (cfg.engines = 0 →
      ∃ b, benchRun draw 3 (benchStart cfg ledPin buzzerPin) = .next b ∧ b.game.phase = .stopped ∧
        b.block.halted = true ∧ b.block.fault = 3) ∧
    ∀ b b' : Bench, b.Inv → b.block.rst = false → b.game.phase = .stopped → benchStep draw b = .next b' →
      b'.game = b.game ∧ (b'.block.rst = false → b'.block.pending = [])

/-- COLLECTING (R206, R201): with at least Level presses among the samples, READSEQ and the GETs of SEQBUF bring the
host to JUDGING with a PlayerSequence of exactly the first Level presses, in order. -/
def Obligations.CollectingCopiesThePresses : Prop :=
  ∀ (draw : Nat → Nat → Symbol) (b : Bench) (presses : List Symbol),
    b.Inv → b.block.rst = false → b.block.resets = [] → b.block.halted = false → b.block.pwmInit = true →
    (b.block.cfg.ledFifoDepth + 1) * 30000 + b.block.cfg.tLatchNs ≤ 1000000 →
    b.game.phase = .collecting → b.game.awaiting = none → b.game.todo = gameCommands b.game → b.game.player = [] →
    (b.block.inputs.filterMap fun p =>
      if p.aN = false then some b.block.cfg.symA else if p.bN = false then some b.block.cfg.symB else none) = presses →
    b.game.level ≤ presses.length →
    ∃ (n : Nat) (b' : Bench), benchRun draw n b = .next b' ∧ b'.game.phase = .judging ∧
      b'.game.player = presses.take b.game.level ∧ b'.game.sequence = b.game.sequence ∧
      b'.game.level = b.game.level

/-- The gap between rounds (R217, R281): on a configuration that meets the condition of R217 the `DELAY 1` before the first
frame of a round lets the last frame of the round before go out and latch. It needs a millisecond that is one: a SYSCLK_HZ
that is a multiple of 1000 (93_implementation_defined.md U15). -/
def Obligations.RoundGapLatchesTheFrame : Prop :=
  ∀ s : State, s.cfg.wf = true → s.tx.Good s.cfg →
    (s.cfg.ledFifoDepth + 1) * 30000 + s.cfg.tLatchNs ≤ 1000000 → s.cfg.sysclkHz % 1000 = 0 →
    (∀ g : Game, g.phase = .generating → g.rounds ≠ 0 → gameCommands g = [.delay 1]) ∧
    ∃ t, exec (.delay 1) s = .next t ∧ t.tx = ⟨[], .idle, 0, s.cfg.tLatchNs⟩

/-! ## Reset while something runs (70_reset_and_hazards.md R270) -/

/-- "Assertion of `rst` takes effect at once (asynchronously), whatever the block is doing: it ends a running command, a
hang and a halt alike, and no response is given for an interrupted command" (R270): an assertion that comes before a step
is over leaves the block in reset, with no event in the trace; one that comes before a command has slept its sleeps ends
the command. An assertion that comes later leaves the step alone. When `rst` comes, and what the host and the buttons do
after it, is the environment's (log 12). -/
def Obligations.ResetEndsWhatRuns : Prop :=
  ∀ (s : State) (p : ResetPulse) (later : List ResetPulse),
    s.cfg.wf = true → s.rst = false → s.resets = p :: later →
    ((p.cycle ≤ s.now ∨ ∃ u, runStep s = .next u ∧ p.cycle < u.now) →
      ∃ t, step s = .next t ∧ t.rst = true ∧ t.HasResetValues ∧ t.cfg = s.cfg ∧
        t.rstHold = p.hold ∧ t.resets = later ∧ t.pending = p.pending ∧ t.inputs = p.inputs) ∧
    (∀ (c : Word64) (rest : List Word64) (i : Instr) (u : State),
      s.cmdReady = true → s.pending = c :: rest → decode c = .ok i →
      exec i (accept rest s) = .next u → u.halted = false → u.busy = false →
      p.cycle < s.now + sleepMs i * (s.cfg.sysclkHz / 1000) →
      ∃ t, step s = .next t ∧ t.rst = true ∧ t.HasResetValues ∧ t.pwmOut = false) ∧
    ((s.now < p.cycle ∧ ∀ u, runStep s = .next u → u.now ≤ p.cycle) → step s = runStep s)
end

