-- ==== Sys2Proof/Laws/State.lean ====
section
/-! SUPPORT. What each shared operation leaves and writes, field by field, true by unfolding: no later proof unfolds an
update. `toRegs` is all that only the sequencer and the environment change, so one lemma about it stands for all its
fields. -/

namespace Sys2Proof.Machine

/-! ## Time changes the clocked fields only -/

@[simp] theorem advance_toRegs (k : Nat) (s : State) : (advance k s).toRegs = s.toRegs := rfl
@[simp] theorem clockEdge_toRegs (s : State) : (clockEdge s).toRegs = s.toRegs := rfl
theorem advance_toClocked (k : Nat) (s : State) :
    (advance k s).toClocked = clockedRun s.toRegs k s.toClocked := rfl
theorem advance_now (k : Nat) (s : State) : (advance k s).now = s.now + k := rfl

theorem clockedRun_now (r : Regs) (k : Nat) (c : Clocked) : (clockedRun r k c).now = c.now + k := rfl
theorem clockedRun_slpCnt (r : Regs) (k : Nat) (c : Clocked) :
    (clockedRun r k c).slpCnt = BitVec.ofNat 39 (c.slpCnt.toNat - k) := rfl
theorem clockedRun_tx (r : Regs) (k : Nat) (c : Clocked) :
    (clockedRun r k c).tx = (txRun r.cfg.tLatchNs ((c.nsFrac + k * nsPerSec) / r.cfg.sysclkHz) c.tx).1 := rfl
theorem clockedRun_trace (r : Regs) (k : Nat) (c : Clocked) :
    (clockedRun r k c).trace =
      c.trace ++ (txRun r.cfg.tLatchNs ((c.nsFrac + k * nsPerSec) / r.cfg.sysclkHz) c.tx).2 := rfl
theorem clockedRun_nsFrac (r : Regs) (k : Nat) (c : Clocked) :
    (clockedRun r k c).nsFrac = (c.nsFrac + k * nsPerSec) % r.cfg.sysclkHz := rfl

@[simp] theorem takeFree_toRegs (s : State) : (takeFree s).toRegs = { s.toRegs with freeIdx := s.freeIdx + 1 } := rfl
@[simp] theorem takeFree_toClocked (s : State) : (takeFree s).toClocked = s.toClocked := rfl
@[simp] theorem gap_toRegs (s : State) : (gap s).toRegs = { s.toRegs with freeIdx := s.freeIdx + 1 } := rfl
theorem gap_toClocked (s : State) :
    (gap s).toClocked = clockedRun s.toRegs (Config.freeCycles s.freeIdx) s.toClocked := rfl

/-! ## The trace -/

@[simp] theorem record_toRegs (e : Event) (s : State) : (record e s).toRegs = s.toRegs := rfl
@[simp] theorem record_toClocked (e : Event) (s : State) :
    (record e s).toClocked = { s.toClocked with trace := s.trace ++ [e] } := rfl

/-! ## Sleeping -/

@[simp] theorem setTimer_toRegs (ms : Nat) (s : State) : (setTimer ms s).toRegs = s.toRegs := rfl
@[simp] theorem setTimer_toClocked (ms : Nat) (s : State) :
    (setTimer ms s).toClocked = { s.toClocked with slpCnt := BitVec.ofNat 39 (ms * cycPerMs s.cfg) } := rfl
@[simp] theorem beginSleep_toRegs (ms : Nat) (s : State) : (beginSleep ms s).toRegs = s.toRegs := rfl
@[simp] theorem beginSleep_toClocked (ms : Nat) (s : State) :
    (beginSleep ms s).toClocked =
      { s.toClocked with slpCnt := BitVec.ofNat 39 (ms * cycPerMs s.cfg), trace := s.trace ++ [.slept ms] } := rfl
@[simp] theorem sleep_toRegs (ms : Nat) (s : State) : (sleep ms s).toRegs = s.toRegs := rfl

/-! ## A tone -/

@[simp] theorem setTop_toRegs (top : Nat) (s : State) :
    (setTop top s).toRegs = { s.toRegs with pwmTop := BitVec.ofNat 32 top } := rfl
@[simp] theorem setTop_toClocked (top : Nat) (s : State) :
    (setTop top s).toClocked = { s.toClocked with pwmCtr := 0, pwmPre := 0 } := rfl
@[simp] theorem setLevel_toRegs (level : Nat) (s : State) :
    (setLevel level s).toRegs = { s.toRegs with pwmLevel := BitVec.ofNat 32 level } := rfl
@[simp] theorem setLevel_toClocked (level : Nat) (s : State) : (setLevel level s).toClocked = s.toClocked := rfl
@[simp] theorem enableChannel_toRegs (pin : BitVec 8) (s : State) :
    (enableChannel pin s).toRegs =
      { s.toRegs with
          pwmPin := pin
          pwmDiv := BitVec.ofNat 8 s.cfg.pwmClkdiv
          pwmLevel := 0
          pwmEn := true
          pwmInit := true } := rfl
@[simp] theorem enableChannel_toClocked (pin : BitVec 8) (s : State) :
    (enableChannel pin s).toClocked = { s.toClocked with pwmPre := 0 } := rfl

@[simp] theorem toneStart_toRegs (f : Nat) (s : State) :
    (toneStart f s).toRegs =
      { s.toRegs with
          pwmTop := BitVec.ofNat 32 (topOf s.cfg f)
          pwmLevel := BitVec.ofNat 32 (levelOf (topOf s.cfg f))
          freeIdx := s.freeIdx + 1 } := by
  simp [toneStart]
@[simp] theorem toneStop_toRegs (s : State) :
    (toneStop s).toRegs = { s.toRegs with pwmLevel := 0, freeIdx := s.freeIdx + 1 } := by
  simp [toneStop]
@[simp] theorem tone_toRegs (f ms : Nat) (s : State) :
    (tone f ms s).toRegs =
      { s.toRegs with
          pwmTop := BitVec.ofNat 32 (topOf s.cfg f)
          pwmLevel := 0
          freeIdx := s.freeIdx + 1 + 1 } := by
  simp [tone]

/-! ## Feeding the engine -/

@[simp] theorem waitForRoom_toRegs (s : State) : (waitForRoom s).toRegs = s.toRegs := rfl
@[simp] theorem enqueue_toRegs (w : LedWord) (s : State) : (enqueue w s).toRegs = s.toRegs := rfl
@[simp] theorem txPush_toRegs (w : LedWord) (s : State) :
    (txPush w s).toRegs = { s.toRegs with freeIdx := s.freeIdx + 1 } := by
  simp [txPush]

/-! ## Pixels -/

@[simp] theorem claimEngine_toRegs (pin : BitVec 8) (s : State) :
    (claimEngine pin s).toRegs =
      { s.toRegs with
          engFree := s.engFree - 1
          ledPin := pin
          pixbuf := fillPixels darkPixel s.pixbuf
          ledInit := true } := rfl
@[simp] theorem claimEngine_toClocked (pin : BitVec 8) (s : State) : (claimEngine pin s).toClocked = s.toClocked := by
  simp only [claimEngine]
@[simp] theorem storePixel_toRegs (i : Nat) (px : Pixel) (s : State) :
    (storePixel i px s).toRegs = { s.toRegs with pixbuf := s.pixbuf.write i px } := rfl
@[simp] theorem storePixel_toClocked (i : Nat) (px : Pixel) (s : State) :
    (storePixel i px s).toClocked = s.toClocked := rfl
@[simp] theorem storeAllPixels_toRegs (px : Pixel) (s : State) :
    (storeAllPixels px s).toRegs = { s.toRegs with pixbuf := fillPixels px s.pixbuf } := rfl
@[simp] theorem storeAllPixels_toClocked (px : Pixel) (s : State) : (storeAllPixels px s).toClocked = s.toClocked := by
  simp only [storeAllPixels]

/-! ## Responses and faults -/

@[simp] theorem presentResponse_toRegs (w : Word64) (s : State) :
    (presentResponse w s).toRegs =
      { s.toRegs with rspValid := true, rspData := w, busy := false, running := none } := rfl
@[simp] theorem presentResponse_toClocked (w : Word64) (s : State) : (presentResponse w s).toClocked = s.toClocked := rfl
@[simp] theorem countCompletion_toRegs (s : State) :
    (countCompletion s).toRegs = { s.toRegs with cp := s.cp + 1 } := rfl
@[simp] theorem countCompletion_toClocked (s : State) : (countCompletion s).toClocked = s.toClocked := rfl
@[simp] theorem halt_toRegs (e : Err) (c : Word64) (s : State) :
    (halt e c s).toRegs = { s.toRegs with fault := e.code, faultCmd := c, halted := true } := rfl
@[simp] theorem halt_toClocked (e : Err) (c : Word64) (s : State) : (halt e c s).toClocked = s.toClocked := rfl

@[simp] theorem respond_toRegs (w : Word64) (s : State) :
    (respond w s).toRegs =
      { s.toRegs with rspValid := true, rspData := w, busy := false, running := none } := by
  simp [respond]
@[simp] theorem respond_toClocked (w : Word64) (s : State) :
    (respond w s).toClocked = { s.toClocked with trace := s.trace ++ [.rsp w] } := by
  simp [respond]
@[simp] theorem complete_toRegs (i : Instr) (data : BitVec 32) (s : State) :
    (complete i data s).toRegs = completedRegs i data (s.freeIdx + 1) s.toRegs := by
  simp [complete, completedRegs]
theorem complete_toClocked (i : Instr) (data : BitVec 32) (s : State) :
    (complete i data s).toClocked =
      { (gap s).toClocked with trace := (gap s).trace ++ [.rsp (responseWord i.opcode.code 0 data)] } := by
  simp [complete]
@[simp] theorem raiseFault_toRegs (e : Err) (c : Word64) (s : State) :
    (raiseFault e c s).toRegs =
      { s.toRegs with
          fault := e.code
          faultCmd := c
          halted := true
          rspValid := true
          rspData := responseWord (opField c) e.code 0
          busy := false
          running := none } := by
  simp [raiseFault]
@[simp] theorem raiseFault_toClocked (e : Err) (c : Word64) (s : State) :
    (raiseFault e c s).toClocked =
      { s.toClocked with trace := s.trace ++ [.rsp (responseWord (opField c) e.code 0)] } := by
  simp [raiseFault]

theorem append_zeros (x : BitVec 12) :
    ((x ++ (0 : BitVec 20)) ++ (0 : BitVec 32) : Word64) = x ++ (0 : BitVec 52) := by
  apply BitVec.eq_of_toNat_eq
  rw [BitVec.toNat_append, BitVec.toNat_append, BitVec.toNat_append]
  simp [← Nat.shiftLeft_add]

/-- The response of a fault, `c[63:56] ‖ code(F) ‖ zeros` (R240). -/
theorem raiseFault_eq_haltedState (e : Err) (c : Word64) (s : State) : raiseFault e c s = haltedState e c s := by
  have h : responseWord (opField c) e.code (0 : BitVec 32) = c.extractLsb' 56 8 ++ e.code ++ (0 : BitVec 52) :=
    append_zeros _
  unfold raiseFault haltedState respond record presentResponse halt
  rw [h]

/-! ## The states of the sampler (R171) -/

@[simp] theorem enterPoll_toRegs (rem : Nat) (s : State) :
    (enterPoll rem s).toRegs = { s.toRegs with btnState := .poll, btnRem := BitVec.ofNat 7 rem } := rfl
@[simp] theorem enterPoll_toClocked (rem : Nat) (s : State) : (enterPoll rem s).toClocked = s.toClocked := rfl
@[simp] theorem latchPress_toRegs (sym : Symbol) (s : State) :
    (latchPress sym s).toRegs = { s.toRegs with result := sym, resultValid := true, btnState := .fbTone } := rfl
@[simp] theorem latchPress_toClocked (sym : Symbol) (s : State) : (latchPress sym s).toClocked = s.toClocked := rfl
@[simp] theorem enterGap_toRegs (s : State) : (enterGap s).toRegs = { s.toRegs with btnState := .fbGap } := rfl
@[simp] theorem enterGap_toClocked (s : State) : (enterGap s).toClocked = s.toClocked := rfl
@[simp] theorem enterDebounce_toRegs (s : State) :
    (enterDebounce s).toRegs = { s.toRegs with btnState := .debounce } := rfl
@[simp] theorem enterDebounce_toClocked (s : State) : (enterDebounce s).toClocked = s.toClocked := rfl
@[simp] theorem enterIdle_toRegs (s : State) :
    (enterIdle s).toRegs = { s.toRegs with btnState := .idle, btnRem := 0 } := rfl
@[simp] theorem enterIdle_toClocked (s : State) : (enterIdle s).toClocked = s.toClocked := rfl
@[simp] theorem storeSymbol_toRegs (sym : Symbol) (s : State) :
    (storeSymbol sym s).toRegs =
      { s.toRegs with
          seqbuf := s.seqbuf.write s.seqlen.toNat sym
          seqlen := BitVec.ofNat 7 (s.seqlen.toNat + 1) } := rfl
@[simp] theorem storeSymbol_toClocked (sym : Symbol) (s : State) : (storeSymbol sym s).toClocked = s.toClocked := rfl
@[simp] theorem emptySequence_toRegs (s : State) : (emptySequence s).toRegs = { s.toRegs with seqlen := 0 } := rfl
@[simp] theorem emptySequence_toClocked (s : State) : (emptySequence s).toClocked = s.toClocked := rfl
@[simp] theorem keepWaiting_toRegs (i : Instr) (s : State) :
    (keepWaiting i s).toRegs = { s.toRegs with busy := true, running := some i } := rfl
@[simp] theorem keepWaiting_toClocked (i : Instr) (s : State) : (keepWaiting i s).toClocked = s.toClocked := rfl
@[simp] theorem takeSample_toRegs (p : Sample) (rest : List Sample) (s : State) :
    (takeSample p rest s).toRegs = { s.toRegs with inputs := rest } := rfl
@[simp] theorem takeSample_toClocked (p : Sample) (rest : List Sample) (s : State) :
    (takeSample p rest s).toClocked = { s.toClocked with trace := s.trace ++ [.polled p.aN p.bN] } := rfl

/-! ## Reset -/

@[simp] theorem inReset_rst (s : State) : (inReset s).rst = true := rfl
@[simp] theorem inReset_cfg (s : State) : (inReset s).cfg = s.cfg := rfl
theorem inReset_toClocked (s : State) : (inReset s).toClocked = (State.resetWith s.cfg).toClocked := rfl
/-- Being in reset again changes nothing. -/
@[simp] theorem inReset_inReset (s : State) : inReset (inReset s) = inReset s := rfl
@[simp] theorem assertReset_rst (p : ResetPulse) (later : List ResetPulse) (s : State) :
    (assertReset p later s).rst = true := rfl
@[simp] theorem assertReset_cfg (p : ResetPulse) (later : List ResetPulse) (s : State) :
    (assertReset p later s).cfg = s.cfg := rfl
@[simp] theorem inReset_assertReset (p : ResetPulse) (later : List ResetPulse) (s : State) :
    inReset (assertReset p later s) = assertReset p later s := rfl
@[simp] theorem releaseReset_rst (s : State) : (releaseReset s).rst = false := rfl
@[simp] theorem releaseReset_cfg (s : State) : (releaseReset s).cfg = s.cfg := rfl

theorem holdReset_zero {s : State} (h : s.rstHold = 0) : holdReset s = releaseReset s := by
  simp [holdReset, h]
theorem holdReset_succ {s : State} {n : Nat} (h : s.rstHold = n + 1) :
    holdReset s = inReset { s with rstHold := n } := by
  simp [holdReset, h]

/-- Every register of a block in reset has its value of R271; so has one just released. -/
theorem inReset_values {s : State} (h : s.cfg.engines ≤ 255) : (inReset s).HasResetValues := by
  refine ⟨rfl, rfl, rfl, rfl, rfl, rfl, rfl, rfl, rfl, rfl, rfl, rfl, rfl, rfl, ?_, rfl, rfl, rfl, rfl, rfl, rfl, rfl, rfl,
    rfl, rfl, rfl, rfl⟩
  show (BitVec.ofNat 8 s.cfg.engines).toNat = s.cfg.engines
  rw [BitVec.toNat_ofNat]
  exact Nat.mod_eq_of_lt (by omega)

theorem releaseReset_values {s : State} (h : s.cfg.engines ≤ 255) : (releaseReset s).HasResetValues := by
  obtain ⟨h1, h2, h3, h4, h5, h6, h7, h8, h9, h10, h11, h12, h13, h14, h15, h16, h17, h18, h19, h20, h21, h22, h23, h24,
    h25, h26, h27⟩ := inReset_values h
  exact ⟨h1, h2, h3, h4, h5, h6, h7, h8, h9, h10, h11, h12, h13, h14, h15, h16, h17, h18, h19, h20, h21, h22, h23, h24,
    h25, h26, h27⟩

theorem assertReset_values {p : ResetPulse} {later : List ResetPulse} {s : State} (h : s.cfg.engines ≤ 255) :
    (assertReset p later s).HasResetValues :=
  inReset_values (s := { s with rstHold := p.hold, resets := later, pending := p.pending, inputs := p.inputs }) h

theorem holdReset_values {s : State} (h : s.cfg.engines ≤ 255) : (holdReset s).HasResetValues := by
  unfold holdReset
  split
  · exact releaseReset_values h
  · exact inReset_values h

/-! ## Between commands -/

@[simp] theorem dropResponse_toRegs (s : State) : (dropResponse s).toRegs = { s.toRegs with rspValid := false } := rfl
@[simp] theorem dropResponse_toClocked (s : State) : (dropResponse s).toClocked = s.toClocked := rfl
@[simp] theorem beginCommand_toRegs (rest : List Word64) (s : State) :
    (beginCommand rest s).toRegs = { s.toRegs with pending := rest, busy := true, rspValid := false } := rfl
@[simp] theorem beginCommand_toClocked (rest : List Word64) (s : State) :
    (beginCommand rest s).toClocked = s.toClocked := rfl

@[simp] theorem accept_toRegs (rest : List Word64) (s : State) :
    (accept rest s).toRegs =
      { s.toRegs with pending := rest, busy := true, rspValid := false, freeIdx := s.freeIdx + 1 } := by
  simp [accept]
theorem accept_toClocked (rest : List Word64) (s : State) :
    (accept rest s).toClocked = (advance (Config.freeCycles s.freeIdx) s).toClocked := rfl
@[simp] theorem idleCycle_toRegs (s : State) : (idleCycle s).toRegs = { s.toRegs with rspValid := false } := rfl
@[simp] theorem idleCycle_toClocked (s : State) : (idleCycle s).toClocked = (advance 1 s).toClocked := rfl
@[simp] theorem pollReleased_toRegs (s : State) : (pollReleased s).toRegs = s.toRegs := rfl

end Sys2Proof.Machine
end

