-- ==== Sys2Proof/Laws/Clock.lean ====
section
/-! SUPPORT. The laws of passing time: the closed forms of the PWM counter, of the timing engine and of the whole block
are additive in the time they run, keep what is legal, and lose no word. -/

namespace Sys2Proof.Machine

/-! ## The PWM counter -/

/-- PWM_PRE after a run, as a number. -/
theorem pwmRun_pre (k : Nat) (div pre : BitVec 8) (top ctr : BitVec 32) :
    (pwmRun k div pre top ctr).1.toNat =
      if (min pre.toNat (max 1 div.toNat - 1) + k) / max 1 div.toNat = 0 then pre.toNat + k
      else (min pre.toNat (max 1 div.toNat - 1) + k) % max 1 div.toNat := by
  have hd := div.isLt
  have hp := pre.isLt
  unfold pwmRun
  split <;> rename_i h
  · rw [if_pos h]
    rw [Nat.div_eq_zero_iff_lt (by omega)] at h
    exact Nat.mod_eq_of_lt (by omega)
  · rw [if_neg h]
    exact Nat.mod_eq_of_lt (lt_of_lt_of_le (Nat.mod_lt _ (by omega)) (by omega))

/-- PWM_CTR after a run, as a number. -/
theorem pwmRun_ctr (k : Nat) (div pre : BitVec 8) (top ctr : BitVec 32) :
    (pwmRun k div pre top ctr).2.toNat =
      if (min pre.toNat (max 1 div.toNat - 1) + k) / max 1 div.toNat = 0 then ctr.toNat
      else (min ctr.toNat top.toNat + (min pre.toNat (max 1 div.toNat - 1) + k) / max 1 div.toNat) %
        (top.toNat + 1) := by
  have ht := top.isLt
  unfold pwmRun
  split <;> rename_i h
  · rw [if_pos h]
  · rw [if_neg h]
    exact Nat.mod_eq_of_lt (lt_of_lt_of_le (Nat.mod_lt _ (by omega)) (by omega))

@[simp] theorem pwmRun_zero (div pre : BitVec 8) (top ctr : BitVec 32) : pwmRun 0 div pre top ctr = (pre, ctr) := by
  have h : min pre.toNat (max 1 div.toNat - 1) / max 1 div.toNat = 0 := by
    rw [Nat.div_eq_zero_iff_lt (by omega)]; omega
  simp only [pwmRun, Nat.add_zero, if_pos h, BitVec.ofNat_toNat, BitVec.setWidth_eq]

theorem pwmRun_add (a b : Nat) (div pre : BitVec 8) (top ctr : BitVec 32) :
    pwmRun (a + b) div pre top ctr =
      pwmRun b div (pwmRun a div pre top ctr).1 top (pwmRun a div pre top ctr).2 := by
  obtain ⟨P, hP⟩ : ∃ P, max 1 div.toNat = P := ⟨_, rfl⟩
  have hP1 : 1 ≤ P := by omega
  obtain ⟨E, hE⟩ : ∃ E, min pre.toNat (P - 1) + a = E := ⟨_, rfl⟩
  have hpre := pwmRun_pre a div pre top ctr
  have hctr := pwmRun_ctr a div pre top ctr
  rw [hP, hE] at hpre hctr
  have hmin : min (pwmRun a div pre top ctr).1.toNat (P - 1) = E % P := by
    rw [hpre]
    split
    · next h =>
      rw [Nat.div_eq_zero_iff_lt (by omega)] at h
      rw [Nat.mod_eq_of_lt h]; omega
    · have := Nat.mod_lt E (show P > 0 by omega); omega
  have hsum : min pre.toNat (P - 1) + (a + b) = E + b := by omega
  have hdiv : (E + b) / P = E / P + (E % P + b) / P := by
    conv_lhs => rw [← Nat.div_add_mod E P, Nat.add_assoc, Nat.mul_add_div (by omega)]
  have hmod : (E + b) % P = (E % P + b) % P := by simp
  apply Prod.ext <;> apply BitVec.eq_of_toNat_eq
  · rw [pwmRun_pre, pwmRun_pre, hP, hsum, hmin, hdiv, hmod, hpre]
    by_cases h1 : E / P = 0
    · rw [h1, if_pos rfl, Nat.zero_add]
      split
      · omega
      · rfl
    · have : E / P + (E % P + b) / P ≠ 0 := fun h => h1 (Nat.add_eq_zero_iff.mp h).1
      rw [if_neg this, if_neg h1]
      split
      · next h2 => rw [Nat.div_eq_zero_iff_lt (by omega)] at h2; exact Nat.mod_eq_of_lt h2
      · rfl
  · rw [pwmRun_ctr, pwmRun_ctr, hP, hsum, hmin, hdiv, hctr]
    by_cases h1 : E / P = 0
    · rw [h1, if_pos rfl, Nat.zero_add]
    · have : E / P + (E % P + b) / P ≠ 0 := fun h => h1 (Nat.add_eq_zero_iff.mp h).1
      rw [if_neg this, if_neg h1]
      have hle : (min ctr.toNat top.toNat + E / P) % (top.toNat + 1) ≤ top.toNat :=
        Nat.lt_succ_iff.mp (Nat.mod_lt _ (by omega))
      split
      · next h2 => rw [h2, Nat.add_zero]
      · rw [Nat.min_eq_left hle, ← Nat.add_assoc, Nat.mod_add_mod]

/-- The counter never passes the top once it is not above it. -/
theorem pwmRun_ctr_le (k : Nat) (div pre : BitVec 8) {top ctr : BitVec 32} (h : ctr ≤ top) :
    (pwmRun k div pre top ctr).2 ≤ top := by
  rw [BitVec.le_def] at h ⊢
  rw [pwmRun_ctr]
  split
  · exact h
  · exact Nat.lt_succ_iff.mp (Nat.mod_lt _ (by omega))

/-- The prescaler stays below a legal divider. -/
theorem pwmRun_pre_lt (k : Nat) {div pre : BitVec 8} (top ctr : BitVec 32) (h : pre.toNat < div.toNat) :
    (pwmRun k div pre top ctr).1.toNat < div.toNat := by
  rw [pwmRun_pre, show max 1 div.toNat = div.toNat by omega]
  split
  · next h0 => rw [Nat.div_eq_zero_iff_lt (by omega)] at h0; omega
  · exact Nat.mod_lt _ (by omega)

/-! ## The timing engine -/

theorem txIdleRun_add (latch idle a b : Nat) :
    txIdleRun latch idle (a + b) =
      ((txRun latch b (txIdleRun latch idle a).1).1,
        (txIdleRun latch idle a).2 ++ (txRun latch b (txIdleRun latch idle a).1).2) := by
  unfold txIdleRun
  by_cases h1 : latch ≤ idle
  · simp [h1, txRun, txIdleRun]
  · by_cases h2 : latch ≤ idle + a
    · have h3 : latch ≤ idle + (a + b) := by omega
      simp [h1, h2, h3, txRun, txIdleRun]
    · by_cases h3 : latch ≤ idle + (a + b)
      · have h4 : latch ≤ idle + a + b := by omega
        simp [h1, h2, h3, h4, txRun, txIdleRun]
      · simp [h1, h2, h3, txRun, txIdleRun, Nat.add_assoc]

theorem txSendRun_add (latch : Nat) (w : LedWord) (n cell a b : Nat) (q : List LedWord) :
    txSendRun latch w n cell (a + b) q =
      ((txRun latch b (txSendRun latch w n cell a q).1).1,
        (txSendRun latch w n cell a q).2 ++ (txRun latch b (txSendRun latch w n cell a q).1).2) := by
  induction q generalizing w n cell a with
  | nil =>
    by_cases ha : a < wordLeft n cell
    · have hk : (cell + a) / tBitNs < n := by
        unfold wordLeft at ha
        rw [Nat.div_lt_iff_lt_mul (by decide)]; omega
      have hw : wordLeft (n - (cell + a) / tBitNs) ((cell + a) % tBitNs) = wordLeft n cell - a := by
        have := Nat.div_add_mod (cell + a) tBitNs
        unfold wordLeft
        rw [Nat.sub_mul]
        have h2 : (cell + a) / tBitNs * tBitNs = tBitNs * ((cell + a) / tBitNs) := Nat.mul_comm _ _
        omega
      have he : (cell + a) % tBitNs + b = cell + (a + b) - tBitNs * ((cell + a) / tBitNs) := by
        have := Nat.div_add_mod (cell + a) tBitNs; omega
      have hd : n - (cell + a) / tBitNs - ((cell + a) % tBitNs + b) / tBitNs = n - (cell + (a + b)) / tBitNs := by
        have h3 : (cell + (a + b)) / tBitNs = (cell + a) / tBitNs + ((cell + a) % tBitNs + b) / tBitNs := by
          conv_lhs => rw [← Nat.add_assoc, ← Nat.div_add_mod (cell + a) tBitNs, Nat.add_assoc,
            Nat.mul_add_div (by decide)]
        omega
      have hm : ((cell + a) % tBitNs + b) % tBitNs = (cell + (a + b)) % tBitNs := by
        rw [Nat.mod_add_mod, Nat.add_assoc]
      simp only [txSendRun, ha, if_true, txRun]
      by_cases hb : a + b < wordLeft n cell
      · have hb' : b < wordLeft n cell - a := by omega
        simp [hb, hw, hb', hd, hm]
      · have hb' : ¬ b < wordLeft n cell - a := by omega
        have hs : b - (wordLeft n cell - a) = a + b - wordLeft n cell := by omega
        simp [hb, hw, hb', hs]
    · have hb : ¬ a + b < wordLeft n cell := by omega
      have hs : a + b - wordLeft n cell = (a - wordLeft n cell) + b := by omega
      simp only [txSendRun, ha, hb, if_false, hs]
      rw [txIdleRun_add]
  | cons w' q ih =>
    by_cases ha : a < wordLeft n cell
    · have hk : (cell + a) / tBitNs < n := by
        unfold wordLeft at ha
        rw [Nat.div_lt_iff_lt_mul (by decide)]; omega
      have hw : wordLeft (n - (cell + a) / tBitNs) ((cell + a) % tBitNs) = wordLeft n cell - a := by
        have := Nat.div_add_mod (cell + a) tBitNs
        unfold wordLeft
        rw [Nat.sub_mul]
        have h2 : (cell + a) / tBitNs * tBitNs = tBitNs * ((cell + a) / tBitNs) := Nat.mul_comm _ _
        omega
      have hd : n - (cell + a) / tBitNs - ((cell + a) % tBitNs + b) / tBitNs = n - (cell + (a + b)) / tBitNs := by
        have h3 : (cell + (a + b)) / tBitNs = (cell + a) / tBitNs + ((cell + a) % tBitNs + b) / tBitNs := by
          conv_lhs => rw [← Nat.add_assoc, ← Nat.div_add_mod (cell + a) tBitNs, Nat.add_assoc,
            Nat.mul_add_div (by decide)]
        omega
      have hm : ((cell + a) % tBitNs + b) % tBitNs = (cell + (a + b)) % tBitNs := by
        rw [Nat.mod_add_mod, Nat.add_assoc]
      simp only [txSendRun, ha, if_true, txRun]
      by_cases hb : a + b < wordLeft n cell
      · have hb' : b < wordLeft n cell - a := by omega
        simp [hb, hw, hb', hd, hm]
      · have hb' : ¬ b < wordLeft n cell - a := by omega
        have hs : b - (wordLeft n cell - a) = a + b - wordLeft n cell := by omega
        simp [hb, hw, hb', hs]
    · have hb : ¬ a + b < wordLeft n cell := by omega
      have hs : a + b - wordLeft n cell = (a - wordLeft n cell) + b := by omega
      simp only [txSendRun, ha, hb, if_false, hs]
      rw [ih]
      simp

/-- Running the engine is additive in time, from every state. -/
theorem txRun_add (latch a b : Nat) (t : TxEngine) :
    txRun latch (a + b) t =
      ((txRun latch b (txRun latch a t).1).1, (txRun latch a t).2 ++ (txRun latch b (txRun latch a t).1).2) := by
  obtain ⟨q, shift, cell, idle⟩ := t
  cases shift with
  | sending w n => exact txSendRun_add latch w n cell a b q
  | idle =>
    cases q with
    | nil => exact txIdleRun_add latch idle a b
    | cons w q =>
      simp only [txRun]
      rw [txSendRun_add]
      simp [txRun]

/-! ### No word is lost -/

@[simp] theorem ledWordsOf_append (es fs : List Event) : ledWordsOf (es ++ fs) = ledWordsOf es ++ ledWordsOf fs := by
  induction es with
  | nil => rfl
  | cons e es ih => cases e <;> simp [ledWordsOf, ih]

theorem txIdleRun_words (latch idle d : Nat) :
    ledWordsOf (txIdleRun latch idle d).2 = [] ∧ (txIdleRun latch idle d).1.q = [] := by
  unfold txIdleRun
  split
  · simp [ledWordsOf]
  · split <;> simp [ledWordsOf]

theorem txSendRun_words (latch : Nat) (w : LedWord) (n cell d : Nat) (q : List LedWord) :
    ledWordsOf (txSendRun latch w n cell d q).2 ++ (txSendRun latch w n cell d q).1.q = q := by
  induction q generalizing w n cell d with
  | nil =>
    simp only [txSendRun]
    split
    · simp [ledWordsOf]
    · simp [txIdleRun_words]
  | cons w' q ih =>
    simp only [txSendRun]
    split
    · simp [ledWordsOf]
    · simp [ledWordsOf, ih]

/-- What the engine takes from TXQ goes on the line, in order; the rest stays queued. -/
theorem txRun_words (latch d : Nat) (t : TxEngine) :
    ledWordsOf (txRun latch d t).2 ++ (txRun latch d t).1.q = t.q := by
  obtain ⟨q, shift, cell, idle⟩ := t
  cases shift with
  | sending w n => exact txSendRun_words latch w n cell d q
  | idle =>
    cases q with
    | nil => simp [txRun, txIdleRun_words]
    | cons w q => simp [txRun, ledWordsOf, txSendRun_words]

theorem txTake_words (t : TxEngine) : ledWordsOf (txTake t).2 ++ (txTake t).1.q = t.q := by
  unfold txTake
  split
  · next h => simp [ledWordsOf, h]
  · simp [ledWordsOf]

/-! ### The engine's events are the engine's -/

theorem txIdleRun_events (latch idle d : Nat) : ∀ e ∈ (txIdleRun latch idle d).2, e.fromEngine = true := by
  unfold txIdleRun
  split
  · simp
  · split <;> simp [Event.fromEngine]

theorem txSendRun_events (latch : Nat) (w : LedWord) (n cell d : Nat) (q : List LedWord) :
    ∀ e ∈ (txSendRun latch w n cell d q).2, e.fromEngine = true := by
  induction q generalizing w n cell d with
  | nil =>
    simp only [txSendRun]
    split
    · simp
    · exact txIdleRun_events _ _ _
  | cons w' q ih =>
    simp only [txSendRun]
    split
    · simp
    · intro e he
      rcases List.mem_cons.mp he with rfl | he
      · rfl
      · exact ih _ _ _ _ e he

theorem txRun_events (latch d : Nat) (t : TxEngine) : ∀ e ∈ (txRun latch d t).2, e.fromEngine = true := by
  obtain ⟨q, shift, cell, idle⟩ := t
  cases shift with
  | sending w n => exact txSendRun_events latch w n cell d q
  | idle =>
    cases q with
    | nil => exact txIdleRun_events latch idle d
    | cons w q =>
      intro e he
      rcases List.mem_cons.mp he with rfl | he
      · rfl
      · exact txSendRun_events _ _ _ _ _ _ e he

/-! ### Legal engine states stay legal -/

theorem txIdleRun_good (cfg : Config) {idle : Nat} (d : Nat) (h : idle ≤ cfg.tLatchNs) :
    (txIdleRun cfg.tLatchNs idle d).1.Good cfg := by
  unfold txIdleRun
  split
  · exact ⟨by simp, by simp [h]⟩
  · split
    · exact ⟨by simp, by simp⟩
    · exact ⟨by simp, by simp; omega⟩

theorem sending_good (cfg : Config) (w : LedWord) {n cell d : Nat} {q : List LedWord}
    (h24 : n ≤ ledWordBits) (hq : q.length ≤ cfg.ledFifoDepth) (hd : d < wordLeft n cell) :
    TxEngine.Good cfg ⟨q, .sending w (n - (cell + d) / tBitNs), (cell + d) % tBitNs, 0⟩ := by
  have hk : (cell + d) / tBitNs < n := by
    unfold wordLeft at hd
    rw [Nat.div_lt_iff_lt_mul (by decide)]; omega
  refine ⟨hq, ?_, ?_, Nat.mod_lt _ (by decide), rfl⟩
  · omega
  · exact Nat.le_trans (Nat.sub_le _ _) h24

theorem txSendRun_good (cfg : Config) (w : LedWord) {n cell : Nat} (d : Nat) {q : List LedWord}
    (h24 : n ≤ ledWordBits) (hq : q.length ≤ cfg.ledFifoDepth) :
    (txSendRun cfg.tLatchNs w n cell d q).1.Good cfg := by
  induction q generalizing w n cell d with
  | nil =>
    simp only [txSendRun]
    split
    · exact sending_good cfg w h24 hq ‹_›
    · exact txIdleRun_good cfg _ (Nat.zero_le _)
  | cons w' q ih =>
    simp only [txSendRun]
    split
    · exact sending_good cfg w h24 hq ‹_›
    · exact ih w' _ (Nat.le_refl _) (Nat.le_trans (Nat.le_succ _) hq)

/-- The engine keeps its legal states. -/
theorem txRun_good {cfg : Config} (d : Nat) {t : TxEngine} (h : t.Good cfg) : (txRun cfg.tLatchNs d t).1.Good cfg := by
  obtain ⟨q, shift, cell, idle⟩ := t
  obtain ⟨hq, hs⟩ := h
  cases shift with
  | sending w n => exact txSendRun_good cfg w d hs.2.1 hq
  | idle =>
    obtain ⟨rfl, -, hi⟩ := hs
    exact txIdleRun_good cfg d hi

/-- No time, no change, from a legal engine state. -/
theorem txRun_zero {cfg : Config} {t : TxEngine} (h : t.Good cfg) : txRun cfg.tLatchNs 0 t = (t, []) := by
  obtain ⟨q, shift, cell, idle⟩ := t
  obtain ⟨hq, hs⟩ := h
  have hb : tBitNs = 1250 := rfl
  cases shift with
  | sending w n =>
    obtain ⟨h1, h2, h3, h4⟩ := hs
    simp only at h1 h2 h3 h4
    subst h4
    have hl : 0 < wordLeft n cell := by unfold wordLeft; rw [hb] at *; omega
    have hd : cell / tBitNs = 0 := by rw [Nat.div_eq_zero_iff_lt (by decide)]; exact h3
    have hm : cell % tBitNs = cell := Nat.mod_eq_of_lt h3
    cases q <;> simp [txRun, txSendRun, hl, hd, hm]
  | idle =>
    obtain ⟨h1, h2, h3⟩ := hs
    simp only at h1 h2 h3
    subst h1; subst h2
    simp [txRun, txIdleRun]

/-! ## The whole block -/

/-- No cycle, no change, from a legal engine state with less than a nanosecond left over. -/
theorem advance_zero {s : State} (h : s.tx.Good s.cfg) (hn : s.nsFrac < s.cfg.sysclkHz) : advance 0 s = s := by
  have h0 := pwmRun_zero s.pwmDiv s.pwmPre s.pwmTop s.pwmCtr
  have h1 : s.nsFrac / s.cfg.sysclkHz = 0 := by rw [Nat.div_eq_zero_iff_lt (by omega)]; exact hn
  have h2 := txRun_zero h
  have h3 := Nat.mod_eq_of_lt hn
  unfold advance clockedRun
  simp [h1, h2, h3]

theorem sequencerEvents_append (es fs : List Event) :
    sequencerEvents (es ++ fs) = sequencerEvents es ++ sequencerEvents fs := List.filter_append ..

theorem sequencerEvents_engine {es : List Event} (h : ∀ e ∈ es, e.fromEngine = true) : sequencerEvents es = [] := by
  unfold sequencerEvents
  rw [List.filter_eq_nil_iff]
  intro e he
  simp [h e he]

/-- `k` cycles record no event of the sequencer. -/
@[simp] theorem advance_sequencerEvents (k : Nat) (s : State) :
    sequencerEvents (advance k s).trace = sequencerEvents s.trace := by
  rw [advance_toClocked, clockedRun_trace, sequencerEvents_append, sequencerEvents_engine (txRun_events _ _ _),
    List.append_nil]

/-- `k` cycles push no word and lose none. -/
@[simp] theorem advance_pushedWords (k : Nat) (s : State) : (advance k s).pushedWords = s.pushedWords := by
  unfold Clocked.pushedWords
  rw [advance_toClocked, clockedRun_trace, clockedRun_tx, ledWordsOf_append, List.append_assoc, txRun_words]

theorem clockedRun_add (r : Regs) (a b : Nat) (c : Clocked) :
    clockedRun r (a + b) c = clockedRun r b (clockedRun r a c) := by
  have hns : (c.nsFrac + (a + b) * nsPerSec) / r.cfg.sysclkHz =
      (c.nsFrac + a * nsPerSec) / r.cfg.sysclkHz +
        ((c.nsFrac + a * nsPerSec) % r.cfg.sysclkHz + b * nsPerSec) / r.cfg.sysclkHz := by
    rcases Nat.eq_zero_or_pos r.cfg.sysclkHz with h | h
    · simp [h]
    · conv_lhs => rw [Nat.add_mul, ← Nat.add_assoc, ← Nat.div_add_mod (c.nsFrac + a * nsPerSec) r.cfg.sysclkHz,
        Nat.add_assoc, Nat.mul_add_div h]
  have hfrac : (c.nsFrac + (a + b) * nsPerSec) % r.cfg.sysclkHz =
      ((c.nsFrac + a * nsPerSec) % r.cfg.sysclkHz + b * nsPerSec) % r.cfg.sysclkHz := by
    rw [Nat.mod_add_mod, Nat.add_mul, ← Nat.add_assoc]
  have hslp : BitVec.ofNat 39 (c.slpCnt.toNat - (a + b)) =
      BitVec.ofNat 39 ((BitVec.ofNat 39 (c.slpCnt.toNat - a)).toNat - b) := by
    have := c.slpCnt.isLt
    rw [BitVec.toNat_ofNat, Nat.mod_eq_of_lt (by omega), Nat.sub_sub]
  have htx := txRun_add r.cfg.tLatchNs ((c.nsFrac + a * nsPerSec) / r.cfg.sysclkHz)
    (((c.nsFrac + a * nsPerSec) % r.cfg.sysclkHz + b * nsPerSec) / r.cfg.sysclkHz) c.tx
  unfold clockedRun
  simp only [hns, hfrac, hslp, htx]
  cases r.pwmEn <;> simp [pwmRun_add, Nat.add_assoc]

/-- Two stretches of time are one. -/
theorem advance_add (a b : Nat) (s : State) : advance (a + b) s = advance b (advance a s) := by
  unfold advance
  rw [clockedRun_add]

end Sys2Proof.Machine
end

