-- ==== Sys2Proof/Laws/Decode.lean ====
section
/-! SUPPORT. The laws of the word's four fields, of the masks and of the two code tables, cited by the proofs about decoding
and encoding. -/

namespace Sys2Proof

/-! ## Fields (spec/30_encoding.md R91) -/

@[simp] theorem opField_fieldsWord (o p : BitVec 8) (d : BitVec 16) (w : BitVec 32) : opField (fieldsWord o p d w) = o := by
  apply BitVec.eq_of_getLsbD_eq
  intro i hi
  unfold opField fieldsWord
  rw [BitVec.getLsbD_extractLsb', BitVec.getLsbD_append, BitVec.getLsbD_append, BitVec.getLsbD_append]
  rw [if_neg (by omega), if_neg (by omega), if_neg (by omega), decide_eq_true hi, Bool.true_and]
  congr 1; omega
@[simp] theorem pField_fieldsWord (o p : BitVec 8) (d : BitVec 16) (w : BitVec 32) : pField (fieldsWord o p d w) = p := by
  apply BitVec.eq_of_getLsbD_eq
  intro i hi
  unfold pField fieldsWord
  rw [BitVec.getLsbD_extractLsb', BitVec.getLsbD_append, BitVec.getLsbD_append, BitVec.getLsbD_append]
  rw [if_neg (by omega), if_neg (by omega), if_pos (by omega), decide_eq_true hi, Bool.true_and]
  congr 1; omega
@[simp] theorem dField_fieldsWord (o p : BitVec 8) (d : BitVec 16) (w : BitVec 32) : dField (fieldsWord o p d w) = d := by
  apply BitVec.eq_of_getLsbD_eq
  intro i hi
  unfold dField fieldsWord
  rw [BitVec.getLsbD_extractLsb', BitVec.getLsbD_append, BitVec.getLsbD_append]
  rw [if_neg (by omega), if_pos (by omega), decide_eq_true hi, Bool.true_and]
  congr 1; omega
@[simp] theorem wField_fieldsWord (o p : BitVec 8) (d : BitVec 16) (w : BitVec 32) : wField (fieldsWord o p d w) = w := by
  apply BitVec.eq_of_getLsbD_eq
  intro i hi
  unfold wField fieldsWord
  rw [BitVec.getLsbD_extractLsb', BitVec.getLsbD_append]
  rw [if_pos (by omega), decide_eq_true hi, Bool.true_and]
  congr 1; omega

/-- A word is its four fields (R91). -/
@[simp] theorem fieldsWord_fields (c : Word64) : fieldsWord (opField c) (pField c) (dField c) (wField c) = c := by
  unfold fieldsWord opField pField dField wField
  apply BitVec.eq_of_getLsbD_eq
  intro i hi
  simp only [BitVec.getLsbD_append, BitVec.getLsbD_extractLsb']
  by_cases h1 : i < 32
  · simp [h1]
  · by_cases h2 : i < 48
    · have : i - 32 < 16 := by omega
      simp [h1, this]; congr 1; omega
    · by_cases h3 : i < 56
      · have h4 : ¬ i - 32 < 16 := by omega
        have h5 : i - 32 - 16 < 8 := by omega
        simp [h1, h4, h5]; congr 1; omega
      · have h4 : ¬ i - 32 < 16 := by omega
        have h5 : ¬ i - 32 - 16 < 8 := by omega
        have h6 : i - 32 - 16 - 8 < 8 := by omega
        simp [h1, h4, h5, h6]; congr 1; omega

/-- A mask works field by field. -/
theorem fieldsWord_and (o p : BitVec 8) (d : BitVec 16) (w : BitVec 32) (o' p' : BitVec 8) (d' : BitVec 16) (w' : BitVec 32) :
    fieldsWord o p d w &&& fieldsWord o' p' d' w' =
      fieldsWord (o &&& o') (p &&& p') (d &&& d') (w &&& w') := by
  unfold fieldsWord
  rw [BitVec.and_append, BitVec.and_append, BitVec.and_append]

theorem fieldsWord_inj {o p o' p' : BitVec 8} {d d' : BitVec 16} {w w' : BitVec 32}
    (h : fieldsWord o p d w = fieldsWord o' p' d' w') : o = o' ∧ p = p' ∧ d = d' ∧ w = w' := by
  have h1 := congrArg opField h
  have h2 := congrArg pField h
  have h3 := congrArg dField h
  have h4 := congrArg wField h
  simp only [opField_fieldsWord, pField_fieldsWord, dField_fieldsWord, wField_fieldsWord] at h1 h2 h3 h4
  exact ⟨h1, h2, h3, h4⟩

/-! ## Masks (R94) -/

/-- `c and mask = match`, field by field: the opcode byte is the row's, the masked bits of the other fields are zero. -/
theorem and_mask_eq_iff (c : Word64) (code pm : BitVec 8) (dm : BitVec 16) (wm : BitVec 32) :
    c &&& fieldsWord 0xFF pm dm wm = fieldsWord code 0 0 0 ↔
      opField c = code ∧ pField c &&& pm = 0 ∧ dField c &&& dm = 0 ∧ wField c &&& wm = 0 := by
  have hop : opField c &&& 0xFF = opField c := BitVec.and_allOnes
  conv_lhs => rw [← fieldsWord_fields c, fieldsWord_and, hop]
  constructor
  · intro h
    exact fieldsWord_inj h
  · rintro ⟨h1, h2, h3, h4⟩
    rw [h1, h2, h3, h4]

theorem Opcode.matchWord_eq (o : Opcode) : o.matchWord = fieldsWord o.code 0 0 0 := by cases o <;> decide

/-! ## Codes (R94, 10_state.md R44) -/

@[simp] theorem Opcode.ofCode_code (o : Opcode) : Opcode.ofCode o.code = some o := by cases o <;> decide

theorem Opcode.code_of_ofCode {b : BitVec 8} {o : Opcode} (h : Opcode.ofCode b = some o) : o.code = b := by
  simpa using List.find?_some h

@[simp] theorem Selector.ofCode_code (sel : Selector) : Selector.ofCode sel.code = some sel := by cases sel <;> decide

theorem Selector.code_of_ofCode {b : BitVec 8} {sel : Selector} (h : Selector.ofCode b = some sel) : sel.code = b := by
  simpa using List.find?_some h

/-- The opcode byte of an instruction's word. -/
@[simp] theorem opField_encode (i : Instr) : opField (encode i) = i.opcode.code := by cases i <;> simp [encode]

end Sys2Proof
end

