-- ==== Sys2Proof/Laws/Memory.lean ====
section
/-! SUPPORT. The laws of the element memories: a read after a write, and the canonical form. -/

namespace Sys2Proof.Machine

variable {α : Type}

@[simp] theorem Memory.read_nil (i : Nat) : Memory.read ([] : Memory α) i = none := rfl

theorem Memory.read_cons (j : Nat) (v : α) (m : Memory α) (i : Nat) :
    Memory.read ((j, v) :: m) i = if i = j then some v else Memory.read m i := rfl

@[simp] theorem Memory.read_write_same (m : Memory α) (i : Nat) (v : α) :
    (Memory.write m i v).read i = some v := by
  induction m with
  | nil => simp [Memory.write, Memory.read_cons]
  | cons p m ih =>
    obtain ⟨j, u⟩ := p
    simp only [Memory.write]
    split
    · simp [Memory.read_cons]
    · split
      · simp [Memory.read_cons]
      · next h => simp [Memory.read_cons, h, ih]

theorem Memory.read_write_other (m : Memory α) {i j : Nat} (v : α) (h : j ≠ i) :
    (Memory.write m i v).read j = m.read j := by
  induction m with
  | nil => simp [Memory.write, Memory.read_cons, h]
  | cons p m ih =>
    obtain ⟨k, u⟩ := p
    simp only [Memory.write]
    split
    · simp [Memory.read_cons, h]
    · split
      · next hk => subst hk; simp [Memory.read_cons, h]
      · simp [Memory.read_cons, ih]

theorem Memory.read_write (m : Memory α) (i j : Nat) (v : α) :
    (Memory.write m i v).read j = if j = i then some v else m.read j := by
  split
  · next h => subst h; simp
  · next h => exact Memory.read_write_other m v h

theorem Memory.write_write_same (m : Memory α) (i : Nat) (u v : α) :
    Memory.write (Memory.write m i u) i v = Memory.write m i v := by
  induction m with
  | nil => simp [Memory.write]
  | cons p m ih =>
    obtain ⟨j, w⟩ := p
    simp only [Memory.write]
    split
    · simp [Memory.write]
    · split
      · simp [Memory.write]
      · next h1 h2 => simp [Memory.write, h1, h2, ih]

theorem Memory.wfFrom_write {size lo : Nat} {m : Memory α} {i : Nat} (v : α)
    (h : Memory.wfFrom size lo m = true) (hlo : lo ≤ i) (hi : i < size) :
    Memory.wfFrom size lo (Memory.write m i v) = true := by
  induction m generalizing lo with
  | nil => simp [Memory.write, Memory.wfFrom, hlo, hi]
  | cons p m ih =>
    obtain ⟨j, u⟩ := p
    simp only [Memory.wfFrom, Bool.and_eq_true, decide_eq_true_eq] at h
    obtain ⟨⟨h1, h2⟩, h3⟩ := h
    simp only [Memory.write]
    split
    · simp only [Memory.wfFrom, Bool.and_eq_true, decide_eq_true_eq]
      exact ⟨⟨hlo, hi⟩, ⟨by omega, h2⟩, h3⟩
    · split
      · next he =>
        subst he
        simp only [Memory.wfFrom, Bool.and_eq_true, decide_eq_true_eq]
        exact ⟨⟨hlo, hi⟩, h3⟩
      · simp only [Memory.wfFrom, Bool.and_eq_true, decide_eq_true_eq]
        exact ⟨⟨h1, h2⟩, ih h3 (by omega)⟩

/-- A write inside the memory keeps the canonical form. -/
theorem Memory.wf_write {size : Nat} {m : Memory α} {i : Nat} (v : α)
    (h : m.wf size = true) (hi : i < size) : (Memory.write m i v).wf size = true :=
  Memory.wfFrom_write v h (Nat.zero_le i) hi

@[simp] theorem Memory.wf_nil (size : Nat) : Memory.wf size ([] : Memory α) = true := rfl

theorem Memory.wfFrom_read_none {size lo : Nat} {m : Memory α} {i : Nat}
    (h : Memory.wfFrom size lo m = true) (hi : i < lo ∨ size ≤ i) : m.read i = none := by
  induction m generalizing lo with
  | nil => rfl
  | cons p m ih =>
    obtain ⟨j, u⟩ := p
    simp only [Memory.wfFrom, Bool.and_eq_true, decide_eq_true_eq] at h
    obtain ⟨⟨h1, h2⟩, h3⟩ := h
    rw [Memory.read_cons, if_neg (by omega)]
    exact ih h3 (by omega)

/-- A memory in canonical form holds nothing outside its space. -/
theorem Memory.read_outside {size : Nat} {m : Memory α} {i : Nat} (h : m.wf size = true) (hi : size ≤ i) :
    m.read i = none := Memory.wfFrom_read_none h (Or.inr hi)

/-- Two memories in canonical form that read the same everywhere are the same list. -/
theorem Memory.wfFrom_ext {size lo : Nat} {m n : Memory α} (hm : Memory.wfFrom size lo m = true)
    (hn : Memory.wfFrom size lo n = true) (h : ∀ i, m.read i = n.read i) : m = n := by
  induction m generalizing lo n with
  | nil =>
    cases n with
    | nil => rfl
    | cons q n => obtain ⟨k, v⟩ := q; have := h k; simp [Memory.read_cons] at this
  | cons p m ih =>
    obtain ⟨j, u⟩ := p
    cases n with
    | nil => have := h j; simp [Memory.read_cons] at this
    | cons q n =>
      obtain ⟨k, v⟩ := q
      simp only [Memory.wfFrom, Bool.and_eq_true, decide_eq_true_eq] at hm hn
      have hjk : j = k := by
        rcases Nat.lt_trichotomy j k with hlt | heq | hgt
        · have := h j
          rw [Memory.read_cons, if_pos rfl, Memory.read_cons, if_neg (by omega),
            Memory.wfFrom_read_none hn.2 (Or.inl (by omega))] at this
          cases this
        · exact heq
        · have := h k
          rw [Memory.read_cons, if_neg (by omega), Memory.read_cons, if_pos rfl,
            Memory.wfFrom_read_none hm.2 (Or.inl (by omega))] at this
          cases this
      subst hjk
      have huv : u = v := by simpa [Memory.read_cons] using h j
      subst huv
      congr 1
      refine ih hm.2 hn.2 fun i => ?_
      by_cases hi : i = j
      · subst hi
        rw [Memory.wfFrom_read_none hm.2 (Or.inl (by omega)), Memory.wfFrom_read_none hn.2 (Or.inl (by omega))]
      · have := h i
        rwa [Memory.read_cons, if_neg hi, Memory.read_cons, if_neg hi] at this

/-! ## Writing the same value to the first elements -/

theorem foldl_write_read (v : α) (is : List Nat) (m : Memory α) (j : Nat) :
    (is.foldl (fun acc i => Memory.write acc i v) m).read j = if j ∈ is then some v else m.read j := by
  induction is generalizing m with
  | nil => simp
  | cons i is ih =>
    rw [List.foldl_cons, ih, Memory.read_write]
    by_cases h : j ∈ is <;> by_cases h' : j = i <;> simp [h, h']

theorem foldl_write_wf {size : Nat} (v : α) (is : List Nat) (m : Memory α) (h : m.wf size = true)
    (his : ∀ i ∈ is, i < size) : (is.foldl (fun acc i => Memory.write acc i v) m).wf size = true := by
  induction is generalizing m with
  | nil => exact h
  | cons i is ih =>
    rw [List.foldl_cons]
    exact ih _ (Memory.wf_write v h (his i (by simp))) fun k hk => his k (by simp [hk])

theorem read_map_range (v : α) (m : Memory α) (is : List Nat) (j : Nat) :
    Memory.read (is.map (fun i => (i, v)) ++ m) j = if j ∈ is then some v else m.read j := by
  induction is with
  | nil => simp
  | cons i is ih =>
    rw [List.map_cons, List.cons_append, Memory.read_cons, ih]
    by_cases h : j ∈ is <;> by_cases h' : j = i <;> simp [h, h']

theorem read_filter (n : Nat) (m : Memory α) {j : Nat} (h : n ≤ j) :
    Memory.read (m.filter fun e => decide (n ≤ e.1)) j = m.read j := by
  induction m with
  | nil => rfl
  | cons p m ih =>
    obtain ⟨k, u⟩ := p
    rw [List.filter_cons]
    split
    · rw [Memory.read_cons, Memory.read_cons, ih]
    · next hk => rw [ih, Memory.read_cons, if_neg (by simp at hk; omega)]

theorem Memory.fill_read (n : Nat) (v : α) (m : Memory α) (j : Nat) :
    (m.fill n v).read j = if j < n then some v else m.read j := by
  unfold Memory.fill
  rw [read_map_range]
  simp only [List.mem_range]
  split
  · rfl
  · exact read_filter n m (by omega)

theorem wfFrom_filter {size lo : Nat} (n : Nat) {m : Memory α} (h : Memory.wfFrom size lo m = true) :
    Memory.wfFrom size (max n lo) (m.filter fun e => decide (n ≤ e.1)) = true := by
  induction m generalizing lo with
  | nil => rfl
  | cons p m ih =>
    obtain ⟨k, u⟩ := p
    simp only [Memory.wfFrom, Bool.and_eq_true, decide_eq_true_eq] at h
    obtain ⟨⟨h1, h2⟩, h3⟩ := h
    have ih := ih h3
    rw [List.filter_cons]
    split <;> rename_i hk <;> simp at hk
    · rw [Nat.max_eq_right (by omega)] at ih
      simp only [Memory.wfFrom, Bool.and_eq_true, decide_eq_true_eq]
      exact ⟨⟨by omega, h2⟩, ih⟩
    · rwa [Nat.max_eq_left (by omega)] at ih ⊢

theorem wfFrom_map_range' {size : Nat} (v : α) {m : Memory α} (n lo : Nat) (h : Memory.wfFrom size (lo + n) m = true)
    (hn : lo + n ≤ size) : Memory.wfFrom size lo ((List.range' lo n).map (fun i => (i, v)) ++ m) = true := by
  induction n generalizing lo with
  | zero => simpa using h
  | succ n ih =>
    rw [List.range'_succ, List.map_cons, List.cons_append]
    simp only [Memory.wfFrom, Bool.and_eq_true, decide_eq_true_eq]
    exact ⟨⟨Nat.le_refl _, by omega⟩, ih (lo + 1) (by rwa [show lo + 1 + n = lo + (n + 1) by omega]) (by omega)⟩

theorem Memory.fill_wf {size n : Nat} (v : α) {m : Memory α} (h : m.wf size = true) (hn : n ≤ size) :
    (m.fill n v).wf size = true := by
  have := wfFrom_filter n h
  rw [Nat.max_eq_left (Nat.zero_le _)] at this
  unfold Memory.fill Memory.wf
  rw [List.range_eq_range']
  exact wfFrom_map_range' v n 0 (by rwa [Nat.zero_add]) (by omega)

/-- Filling is writing one element after the other (spec/20_memory.md R68, 40_led.md R121, R125). -/
theorem Memory.fill_eq_writes {size n : Nat} (v : α) {m : Memory α} (h : m.wf size = true) (hn : n ≤ size) :
    m.fill n v = (List.range n).foldl (fun acc i => Memory.write acc i v) m := by
  refine Memory.wfFrom_ext (Memory.fill_wf v h hn)
    (foldl_write_wf v (List.range n) m h fun i hi => by rw [List.mem_range] at hi; omega) fun j => ?_
  rw [Memory.fill_read, foldl_write_read]
  simp only [List.mem_range]

/-- Filling twice is filling once. -/
theorem Memory.fill_fill (n : Nat) (v : α) (m : Memory α) : (m.fill n v).fill n v = m.fill n v := by
  unfold Memory.fill
  rw [List.filter_append, List.filter_filter]
  simp

/-- LEDINIT and CLEAR give every element of PIXBUF the same value and touch nothing else. -/
theorem fillPixels_read (px : Pixel) (m : Memory Pixel) (j : Nat) :
    (fillPixels px m).read j = if j < ledCount then some px else m.read j := Memory.fill_read _ _ _ _

theorem fillPixels_wf (px : Pixel) {m : Memory Pixel} (h : m.wf ledCount = true) :
    (fillPixels px m).wf ledCount = true := Memory.fill_wf px h (Nat.le_refl _)

end Sys2Proof.Machine
end

