-- ==== Sys2Proof/Laws/Ops.lean ====
section
/-! SUPPORT. What each shared operation does to the trace, to the words in flight and to the time: one lemma per
operation and view, cited instead of unfolding it. -/

namespace Sys2Proof.Machine

/-! ## The end of an operation's trace, the sequencer's part -/

theorem sequencerEvents_snoc (es : List Event) {e : Event} (h : e.fromEngine = false) :
    sequencerEvents (es ++ [e]) = sequencerEvents es ++ [e] := by
  rw [sequencerEvents_append]
  simp [sequencerEvents, h]

theorem record_sequencerEvents {e : Event} (s : State) (h : e.fromEngine = false := by rfl) :
    sequencerEvents (record e s).trace = sequencerEvents s.trace ++ [e] := sequencerEvents_snoc s.trace h

@[simp] theorem gap_sequencerEvents (s : State) : sequencerEvents (gap s).trace = sequencerEvents s.trace := by
  unfold gap
  rw [advance_sequencerEvents, takeFree_toClocked]

@[simp] theorem sleep_sequencerEvents (ms : Nat) (s : State) :
    sequencerEvents (sleep ms s).trace = sequencerEvents s.trace ++ [.slept ms] := by
  unfold sleep
  rw [advance_sequencerEvents]
  exact sequencerEvents_snoc s.trace rfl

@[simp] theorem toneStart_sequencerEvents (f : Nat) (s : State) :
    sequencerEvents (toneStart f s).trace =
      sequencerEvents s.trace ++ [.tonOn (topOf s.cfg f) (levelOf (topOf s.cfg f))] := by
  unfold toneStart
  dsimp only
  rw [record_sequencerEvents, setLevel_toClocked, gap_sequencerEvents, setTop_toClocked]

@[simp] theorem toneStop_sequencerEvents (s : State) :
    sequencerEvents (toneStop s).trace = sequencerEvents s.trace ++ [.tonOff] := by
  unfold toneStop
  rw [record_sequencerEvents, setLevel_toClocked, gap_sequencerEvents]

@[simp] theorem tone_sequencerEvents (f ms : Nat) (s : State) :
    sequencerEvents (tone f ms s).trace =
      sequencerEvents s.trace ++
        [.tonOn (topOf s.cfg f) (levelOf (topOf s.cfg f)), .slept ms, .tonOff, .slept toneGapMs] := by
  simp [tone]

@[simp] theorem complete_sequencerEvents (i : Instr) (data : BitVec 32) (s : State) :
    sequencerEvents (complete i data s).trace =
      sequencerEvents s.trace ++ [.rsp (responseWord i.opcode.code 0 data)] := by
  unfold complete respond
  rw [record_sequencerEvents, presentResponse_toClocked, countCompletion_toClocked, gap_sequencerEvents]

@[simp] theorem raiseFault_sequencerEvents (e : Err) (c : Word64) (s : State) :
    sequencerEvents (raiseFault e c s).trace =
      sequencerEvents s.trace ++ [.rsp (responseWord (opField c) e.code 0)] :=
  sequencerEvents_snoc s.trace rfl

@[simp] theorem waitForRoom_sequencerEvents (s : State) :
    sequencerEvents (waitForRoom s).trace = sequencerEvents s.trace := by
  unfold waitForRoom
  rw [advance_sequencerEvents]

theorem txTake_events (t : TxEngine) : ∀ e ∈ (txTake t).2, e.fromEngine = true := by
  unfold txTake
  split
  · simp [Event.fromEngine]
  · simp

@[simp] theorem enqueue_sequencerEvents (w : LedWord) (s : State) :
    sequencerEvents (enqueue w s).trace = sequencerEvents s.trace := by
  show sequencerEvents (s.trace ++ (txTake _).2) = _
  rw [sequencerEvents_append, sequencerEvents_engine (txTake_events _), List.append_nil]

@[simp] theorem txPush_sequencerEvents (w : LedWord) (s : State) :
    sequencerEvents (txPush w s).trace = sequencerEvents s.trace := by
  unfold txPush
  rw [enqueue_sequencerEvents, waitForRoom_sequencerEvents, advance_sequencerEvents, takeFree_toClocked]

/-! ## The words pushed -/

theorem record_pushedWords {e : Event} (c : Clocked) (h : e.fromEngine = false := by rfl) :
    Clocked.pushedWords { c with trace := c.trace ++ [e] } = c.pushedWords := by
  cases e <;> simp_all [Clocked.pushedWords, ledWordsOf, Event.fromEngine]

@[simp] theorem gap_pushedWords (s : State) : (gap s).pushedWords = s.pushedWords := by
  unfold gap
  rw [advance_pushedWords, takeFree_toClocked]

@[simp] theorem sleep_pushedWords (ms : Nat) (s : State) : (sleep ms s).pushedWords = s.pushedWords := by
  unfold sleep
  rw [advance_pushedWords]
  exact record_pushedWords (e := .slept ms) { s.toClocked with slpCnt := _ }

@[simp] theorem toneStart_pushedWords (f : Nat) (s : State) : (toneStart f s).pushedWords = s.pushedWords := by
  unfold toneStart
  dsimp only
  rw [record_toClocked, record_pushedWords, setLevel_toClocked, gap_pushedWords]
  rfl

@[simp] theorem toneStop_pushedWords (s : State) : (toneStop s).pushedWords = s.pushedWords := by
  unfold toneStop
  rw [record_toClocked, record_pushedWords, setLevel_toClocked, gap_pushedWords]

@[simp] theorem tone_pushedWords (f ms : Nat) (s : State) : (tone f ms s).pushedWords = s.pushedWords := by
  simp [tone]

@[simp] theorem complete_pushedWords (i : Instr) (data : BitVec 32) (s : State) :
    (complete i data s).pushedWords = s.pushedWords := by
  rw [complete_toClocked, record_pushedWords, gap_pushedWords]

@[simp] theorem raiseFault_pushedWords (e : Err) (c : Word64) (s : State) :
    (raiseFault e c s).pushedWords = s.pushedWords := by
  rw [raiseFault_toClocked]
  exact record_pushedWords (e := .rsp _) _

@[simp] theorem waitForRoom_pushedWords (s : State) : (waitForRoom s).pushedWords = s.pushedWords := by
  unfold waitForRoom
  rw [advance_pushedWords]

@[simp] theorem enqueue_pushedWords (w : LedWord) (s : State) : (enqueue w s).pushedWords = s.pushedWords ++ [w] := by
  show ledWordsOf (s.trace ++ (txTake _).2) ++ (txTake _).1.q = _
  rw [ledWordsOf_append, List.append_assoc, txTake_words, ← List.append_assoc]
  rfl

/-- `TxPush(w)` appends `w` to the words pushed, and nothing else goes on or gets lost (R15). -/
@[simp] theorem txPush_pushedWords (w : LedWord) (s : State) : (txPush w s).pushedWords = s.pushedWords ++ [w] := by
  unfold txPush
  rw [enqueue_pushedWords, waitForRoom_pushedWords, advance_pushedWords, takeFree_toClocked]

/-! ## The time -/

@[simp] theorem gap_now (s : State) : (gap s).now = s.now + Config.freeCycles s.freeIdx := rfl

theorem sleep_now_eq (ms : Nat) (s : State) : (sleep ms s).now = s.now + ms * cycPerMs s.cfg % 2 ^ 39 := by
  unfold sleep
  rw [advance_now, beginSleep_toClocked]
  exact congrArg (s.now + ·) (BitVec.toNat_ofNat _ _)

/-- A legal configuration's parameters are in the ranges of R7. -/
theorem Config.wf_ranges {c : Config} (h : c.wf = true) :
    c.brightness ≤ 150 ∧ 1000 ≤ c.sysclkHz ∧ c.sysclkHz < 2 ^ 32 ∧ 1 ≤ c.pwmClkdiv ∧ c.pwmClkdiv ≤ 255 ∧
      c.engines ≤ 255 ∧ 1 ≤ c.ledFifoDepth ∧ 0 < c.t0hNs ∧ c.t0hNs < c.t1hNs ∧ c.t1hNs < 1250 ∧
      1250 < c.tLatchNs ∧ 1 ≤ c.pollCycles := by
  simpa [Config.wf, and_assoc] using h

/-- `Sleep(ms)` is exactly `ms * CYC_PER_MS` cycles (R13); SLP_CNT is wide enough (R43). -/
theorem sleep_now {ms : Nat} {s : State} (h : s.cfg.wf = true) (hms : ms ≤ 65535) :
    (sleep ms s).now = s.now + ms * cycPerMs s.cfg := by
  have hr := Config.wf_ranges h
  have hc : cycPerMs s.cfg ≤ 4294967 := by unfold cycPerMs; omega
  have : ms * cycPerMs s.cfg ≤ 65535 * 4294967 := Nat.mul_le_mul hms hc
  rw [sleep_now_eq, Nat.mod_eq_of_lt (by omega)]

@[simp] theorem toneStart_now (f : Nat) (s : State) :
    (toneStart f s).now = s.now + Config.freeCycles s.freeIdx := by
  simp [toneStart]
@[simp] theorem toneStop_now (s : State) : (toneStop s).now = s.now + Config.freeCycles s.freeIdx := by
  simp [toneStop]
@[simp] theorem complete_now (i : Instr) (data : BitVec 32) (s : State) :
    (complete i data s).now = s.now + Config.freeCycles s.freeIdx := by
  simp [complete]
theorem raiseFault_now (e : Err) (c : Word64) (s : State) : (raiseFault e c s).now = s.now := by simp

/-- `Tone(f, ms)` takes at least `ms + 50` ms (R154). -/
theorem tone_now {f ms : Nat} {s : State} (h : s.cfg.wf = true) (hms : ms ≤ 65535) :
    s.now + (ms + 50) * cycPerMs s.cfg ≤ (tone f ms s).now := by
  have h1 : (toneStart f s).cfg.wf = true := by simpa using h
  have h2 : (toneStop (sleep ms (toneStart f s))).cfg.wf = true := by simpa using h
  unfold tone
  rw [sleep_now h2 (by decide), toneStop_now, sleep_now h1 hms, toneStart_now]
  simp only [toneStart_toRegs, toneStop_toRegs, sleep_toRegs, toneGapMs, Nat.add_mul]
  omega

/-! ## The sleep timer -/

/-- SLP_CNT is zero after a sleep (R43). -/
@[simp] theorem sleep_slpCnt (ms : Nat) (s : State) : (sleep ms s).slpCnt = 0 := by
  unfold sleep
  rw [advance_toClocked, clockedRun_slpCnt, Nat.sub_self]
  rfl

/-- Time does not restart a sleep timer that is zero. -/
theorem advance_slpCnt {k : Nat} {s : State} (h : s.slpCnt = 0) : (advance k s).slpCnt = 0 := by
  rw [advance_toClocked, clockedRun_slpCnt, h]
  simp

end Sys2Proof.Machine
end

