-- ==== Sys2Proof/Laws/Invariant.lean ====
section
/-! SUPPORT. What is legal in the clocked part of a state, and that every shared operation keeps it. -/

namespace Sys2Proof.Machine

/-- The part of `State.Inv` about the registers only time changes. -/
structure ClockedOk (r : Regs) (c : Clocked) : Prop where
  preBelow : c.pwmPre.toNat < r.pwmDiv.toNat
  ctrBelow : c.pwmCtr ≤ r.pwmTop
  off : r.pwmEn = false → c.pwmCtr = 0 ∧ c.pwmPre = 0
  engine : c.tx.Good r.cfg
  timerZero : c.slpCnt = 0
  fracBelow : c.nsFrac < r.cfg.sysclkHz

/-- The legal clocked part of a whole state. -/
def State.ClockOk (s : State) : Prop := ClockedOk s.toRegs s.toClocked

theorem State.Inv.clockOk {s : State} (h : s.Inv) : s.ClockOk where
  preBelow := h.pwmPreBelow
  ctrBelow := h.pwmCtrBelow
  off hen := ⟨(h.pwmOff hen).1, (h.pwmOff hen).2.1⟩
  engine := h.engine
  timerZero := h.timerZero
  fracBelow := h.fracBelow

/-! ## Time keeps it -/

theorem advance_pwmPre_lt {s : State} (k : Nat) (h : s.pwmPre.toNat < s.pwmDiv.toNat) :
    (advance k s).pwmPre.toNat < s.pwmDiv.toNat := by
  show (clockedRun s.toRegs k s.toClocked).pwmPre.toNat < _
  unfold clockedRun
  dsimp only
  split
  · exact pwmRun_pre_lt _ _ _ h
  · exact h

theorem advance_pwmCtr_le {s : State} (k : Nat) (h : s.pwmCtr ≤ s.pwmTop) : (advance k s).pwmCtr ≤ s.pwmTop := by
  show (clockedRun s.toRegs k s.toClocked).pwmCtr ≤ _
  unfold clockedRun
  dsimp only
  split
  · exact pwmRun_ctr_le _ _ _ h
  · exact h

theorem advance_pwm_off {s : State} (k : Nat) (h : s.pwmEn = false) :
    (advance k s).pwmCtr = s.pwmCtr ∧ (advance k s).pwmPre = s.pwmPre := by
  simp [advance_toClocked, clockedRun, h]

/-- Time keeps the clocked part legal, but for a running sleep timer. -/
theorem advance_clockOk {s : State} (k : Nat) (hpre : s.pwmPre.toNat < s.pwmDiv.toNat) (hctr : s.pwmCtr ≤ s.pwmTop)
    (hoff : s.pwmEn = false → s.pwmCtr = 0 ∧ s.pwmPre = 0) (heng : s.tx.Good s.cfg)
    (hslp : (advance k s).slpCnt = 0) (hfrac : s.nsFrac < s.cfg.sysclkHz) : (advance k s).ClockOk where
  preBelow := advance_pwmPre_lt k hpre
  ctrBelow := advance_pwmCtr_le k hctr
  off hen := by
    obtain ⟨h1, h2⟩ := advance_pwm_off k (s := s) hen
    rw [h1, h2]
    exact hoff hen
  engine := txRun_good _ heng
  timerZero := hslp
  fracBelow := Nat.mod_lt _ (Nat.lt_of_le_of_lt (Nat.zero_le _) hfrac)

theorem State.ClockOk.advance {s : State} (h : s.ClockOk) (k : Nat) : (advance k s).ClockOk :=
  advance_clockOk k h.preBelow h.ctrBelow h.off h.engine (advance_slpCnt h.timerZero) h.fracBelow

/-! ## So do one edge of the counter and one nanosecond of the engine -/

theorem txNs_good {cfg : Config} {t : TxEngine} (h : t.Good cfg) : (txNs cfg.tLatchNs t).1.Good cfg := by
  obtain ⟨q, shift, cell, idle⟩ := t
  obtain ⟨hq, hs⟩ := h
  cases shift with
  | sending w n =>
    obtain ⟨h1, h2, h3, h4⟩ := hs
    simp only [txNs]
    split
    · exact ⟨hq, h1, h2, by assumption, h4⟩
    · split
      · exact ⟨hq, Nat.le_sub_one_of_lt ‹_›, Nat.le_trans (Nat.sub_le _ _) h2, Nat.zero_lt_succ _, h4⟩
      · cases q with
        | nil => exact ⟨hq, rfl, rfl, Nat.zero_le _⟩
        | cons w' q =>
          exact ⟨Nat.le_trans (Nat.le_succ _) hq, Nat.le_add_left _ _, Nat.le_refl _, Nat.zero_lt_succ _, rfl⟩
  | idle =>
    obtain ⟨rfl, h2, h3⟩ := hs
    simp only [txNs]
    split
    · exact ⟨hq, rfl, h2, h3⟩
    · exact ⟨hq, rfl, h2, Nat.succ_le_of_lt (Nat.not_le.mp ‹_›)⟩

theorem txTicks_good {cfg : Config} (d : Nat) {t : TxEngine} (h : t.Good cfg) :
    (txTicks cfg.tLatchNs d t).1.Good cfg := by
  induction d generalizing t with
  | zero => exact h
  | succ d ih => exact ih (txNs_good h)

theorem pwmEdge_pre_lt {div pre : BitVec 8} (top ctr : BitVec 32) (h : pre.toNat < div.toNat) :
    (pwmEdge div pre top ctr).1.toNat < div.toNat := by
  have hd := div.isLt
  unfold pwmEdge
  split
  · exact Nat.lt_of_le_of_lt (Nat.zero_le _) h
  · show (pre + 1).toNat < _
    rw [BitVec.toNat_add, show (1 : BitVec 8).toNat = 1 from rfl, Nat.mod_eq_of_lt (by omega)]
    omega

theorem pwmEdge_ctr_le (div pre : BitVec 8) {top ctr : BitVec 32} (h : ctr ≤ top) :
    (pwmEdge div pre top ctr).2 ≤ top := by
  have ht := top.isLt
  unfold pwmEdge
  split
  · show (if top ≤ ctr then (0 : BitVec 32) else ctr + 1) ≤ top
    split
    · exact Nat.zero_le _
    next hlt =>
      rw [BitVec.le_def] at hlt ⊢
      rw [BitVec.toNat_add, show (1 : BitVec 32).toNat = 1 from rfl, Nat.mod_eq_of_lt (by omega)]
      omega
  · exact h

/-! ## So do the operations -/

/-- A change of registers the clocked part does not depend on, and of the trace. -/
theorem State.ClockOk.congr {s t : State} (h : s.ClockOk) (hr : t.pwmDiv = s.pwmDiv ∧ t.pwmTop = s.pwmTop ∧
    t.pwmEn = s.pwmEn ∧ t.cfg = s.cfg) (hc : t.pwmPre = s.pwmPre ∧ t.pwmCtr = s.pwmCtr ∧ t.tx = s.tx ∧
    t.slpCnt = s.slpCnt ∧ t.nsFrac = s.nsFrac) : t.ClockOk := by
  obtain ⟨h1, h2, h3, h4⟩ := hr
  obtain ⟨h5, h6, h7, h8, h9⟩ := hc
  refine ⟨?_, ?_, ?_, ?_, ?_, ?_⟩
  · rw [h5, h1]; exact h.preBelow
  · rw [h6, h2]; exact h.ctrBelow
  · rw [h3, h6, h5]; exact h.off
  · rw [h7, h4]; exact h.engine
  · rw [h8]; exact h.timerZero
  · rw [h9, h4]; exact h.fracBelow

theorem State.ClockOk.takeFree {s : State} (h : s.ClockOk) : (takeFree s).ClockOk :=
  h.congr ⟨rfl, rfl, rfl, rfl⟩ ⟨rfl, rfl, rfl, rfl, rfl⟩

theorem State.ClockOk.gap {s : State} (h : s.ClockOk) : (gap s).ClockOk := h.takeFree.advance _

theorem State.ClockOk.record {s : State} (h : s.ClockOk) (e : Event) : (record e s).ClockOk :=
  h.congr ⟨rfl, rfl, rfl, rfl⟩ ⟨rfl, rfl, rfl, rfl, rfl⟩

theorem State.ClockOk.sleep {s : State} (h : s.ClockOk) (ms : Nat) : (sleep ms s).ClockOk :=
  advance_clockOk _ h.preBelow h.ctrBelow h.off h.engine (sleep_slpCnt ms s) h.fracBelow

theorem State.ClockOk.setTop {s : State} (h : s.ClockOk) (top : Nat) : (setTop top s).ClockOk :=
  ⟨Nat.lt_of_le_of_lt (Nat.zero_le _) h.preBelow, Nat.zero_le (BitVec.toNat _), fun _ => ⟨rfl, rfl⟩, h.engine,
    h.timerZero, h.fracBelow⟩

theorem State.ClockOk.setLevel {s : State} (h : s.ClockOk) (level : Nat) : (setLevel level s).ClockOk :=
  h.congr ⟨rfl, rfl, rfl, rfl⟩ ⟨rfl, rfl, rfl, rfl, rfl⟩

theorem State.ClockOk.toneStart {s : State} (h : s.ClockOk) (f : Nat) : (toneStart f s).ClockOk :=
  ((h.setTop _).gap.setLevel _).record _

theorem State.ClockOk.toneStop {s : State} (h : s.ClockOk) : (toneStop s).ClockOk := (h.gap.setLevel _).record _

theorem State.ClockOk.tone {s : State} (h : s.ClockOk) (f ms : Nat) : (tone f ms s).ClockOk :=
  (((h.toneStart f).sleep ms).toneStop).sleep _

theorem State.ClockOk.respond {s : State} (h : s.ClockOk) (w : Word64) : (respond w s).ClockOk :=
  State.ClockOk.record (s := presentResponse w s) (h.congr ⟨rfl, rfl, rfl, rfl⟩ ⟨rfl, rfl, rfl, rfl, rfl⟩) _

theorem State.ClockOk.countCompletion {s : State} (h : s.ClockOk) : (countCompletion s).ClockOk :=
  h.congr ⟨rfl, rfl, rfl, rfl⟩ ⟨rfl, rfl, rfl, rfl, rfl⟩

theorem State.ClockOk.halt {s : State} (h : s.ClockOk) (e : Err) (c : Word64) : (halt e c s).ClockOk :=
  h.congr ⟨rfl, rfl, rfl, rfl⟩ ⟨rfl, rfl, rfl, rfl, rfl⟩

theorem State.ClockOk.complete {s : State} (h : s.ClockOk) (i : Instr) (data : BitVec 32) :
    (complete i data s).ClockOk := h.gap.countCompletion.respond _

theorem State.ClockOk.raiseFault {s : State} (h : s.ClockOk) (e : Err) (c : Word64) : (raiseFault e c s).ClockOk :=
  (h.halt e c).respond _

theorem State.ClockOk.dropResponse {s : State} (h : s.ClockOk) : (dropResponse s).ClockOk :=
  h.congr ⟨rfl, rfl, rfl, rfl⟩ ⟨rfl, rfl, rfl, rfl, rfl⟩

theorem State.ClockOk.beginCommand {s : State} (h : s.ClockOk) (rest : List Word64) : (beginCommand rest s).ClockOk :=
  h.congr ⟨rfl, rfl, rfl, rfl⟩ ⟨rfl, rfl, rfl, rfl, rfl⟩

theorem State.ClockOk.accept {s : State} (h : s.ClockOk) (rest : List Word64) : (accept rest s).ClockOk :=
  (h.beginCommand rest).gap

theorem State.ClockOk.claimEngine {s : State} (h : s.ClockOk) (pin : BitVec 8) : (claimEngine pin s).ClockOk :=
  h.congr (by simp) (by simp)

theorem State.ClockOk.storePixel {s : State} (h : s.ClockOk) (i : Nat) (px : Pixel) : (storePixel i px s).ClockOk :=
  h.congr (by simp) (by simp)

theorem State.ClockOk.storeAllPixels {s : State} (h : s.ClockOk) (px : Pixel) : (storeAllPixels px s).ClockOk :=
  h.congr (by simp) (by simp)

theorem State.ClockOk.emptySequence {s : State} (h : s.ClockOk) : (emptySequence s).ClockOk :=
  h.congr ⟨rfl, rfl, rfl, rfl⟩ ⟨rfl, rfl, rfl, rfl, rfl⟩

theorem State.ClockOk.keepWaiting {s : State} (h : s.ClockOk) (i : Instr) : (keepWaiting i s).ClockOk :=
  h.congr ⟨rfl, rfl, rfl, rfl⟩ ⟨rfl, rfl, rfl, rfl, rfl⟩

theorem State.ClockOk.enableChannel {s : State} (hcfg : s.cfg.wf = true) (h : s.ClockOk) (pin : BitVec 8) :
    (enableChannel pin s).ClockOk := by
  have hr := Config.wf_ranges hcfg
  have hd : (Machine.enableChannel pin s).pwmDiv.toNat = s.cfg.pwmClkdiv := by
    simp only [enableChannel_toRegs, BitVec.toNat_ofNat]
    exact Nat.mod_eq_of_lt (by omega)
  refine ⟨?_, h.ctrBelow, fun hen => ?_, h.engine, h.timerZero, h.fracBelow⟩
  · show (0 : BitVec 8).toNat < (Machine.enableChannel pin s).pwmDiv.toNat
    rw [hd]
    exact hr.2.2.2.1
  · simp at hen

/-! ## Feeding the engine -/

theorem txSendRun_queue_le (latch : Nat) (w : LedWord) (n cell d : Nat) (q : List LedWord) :
    (txSendRun latch w n cell d q).1.q.length ≤ q.length := by
  have h := congrArg List.length (txSendRun_words latch w n cell d q)
  rw [List.length_append] at h
  omega

/-- In the cycles `cyclesFor` counts, at least the nanoseconds asked for pass. -/
theorem cyclesFor_enough (s : State) (ns : Nat) (h : 0 < s.cfg.sysclkHz) :
    ns ≤ (s.nsFrac + cyclesFor s ns * nsPerSec) / s.cfg.sysclkHz := by
  rw [Nat.le_div_iff_mul_le h]
  have := Nat.div_add_mod (ns * s.cfg.sysclkHz - s.nsFrac + (nsPerSec - 1)) nsPerSec
  have hm := Nat.mod_lt (ns * s.cfg.sysclkHz - s.nsFrac + (nsPerSec - 1)) (show nsPerSec > 0 by decide)
  unfold cyclesFor
  rw [Nat.mul_comm _ nsPerSec]
  have h9 : nsPerSec = 1000000000 := rfl
  omega

/-- Running the engine never lengthens TXQ. -/
theorem txRun_queue_le (latch d : Nat) (t : TxEngine) : (txRun latch d t).1.q.length ≤ t.q.length := by
  have h := congrArg List.length (txRun_words latch d t)
  rw [List.length_append] at h
  omega

/-- After the wait of R15 there is room in TXQ. -/
theorem waitForRoom_room {s : State} (hcfg : s.cfg.wf = true) (h : s.ClockOk) :
    (waitForRoom s).tx.q.length < s.cfg.ledFifoDepth := by
  unfold waitForRoom roomCycles
  rw [advance_toClocked, clockedRun_tx]
  split
  · exact Nat.lt_of_le_of_lt (txRun_queue_le _ _ _) ‹_›
  next hfull =>
    have hr := Config.wf_ranges hcfg
    have hns := cyclesFor_enough s (engineBusyNs s.tx) (by omega)
    generalize (s.nsFrac + cyclesFor s (engineBusyNs s.tx) * nsPerSec) / s.cfg.sysclkHz = d at hns ⊢
    have hgood := h.engine
    revert hns hfull hgood
    change ¬ s.tx.q.length < _ → _ → s.tx.Good s.cfg → _
    obtain ⟨q, shift, cell, idle⟩ := s.tx
    intro hfull hns ⟨hq, hs⟩
    cases shift with
    | idle => obtain ⟨rfl, -⟩ := hs; simp at hfull; omega
    | sending w n =>
      cases q with
      | nil => simp at hfull; omega
      | cons w' q =>
        have : ¬ d < wordLeft n cell := by simpa [engineBusyNs] using hns
        have hle := txSendRun_queue_le s.cfg.tLatchNs w' ledWordBits 0 (d - wordLeft n cell) q
        simp only [txRun, txSendRun, this, if_false]
        simp only [List.length_cons] at hq
        omega

theorem txTake_good {cfg : Config} {t : TxEngine} (hq : t.q.length ≤ cfg.ledFifoDepth)
    (hs : match t.shift with
      | .idle => t.cellNs = 0 ∧ t.idleNs ≤ cfg.tLatchNs
      | .sending _ n => 1 ≤ n ∧ n ≤ ledWordBits ∧ t.cellNs < tBitNs ∧ t.idleNs = 0) : (txTake t).1.Good cfg := by
  obtain ⟨q, shift, cell, idle⟩ := t
  cases shift with
  | sending w n => exact ⟨hq, hs⟩
  | idle =>
    cases q with
    | nil => exact ⟨hq, rfl, hs⟩
    | cons w q => exact ⟨Nat.le_trans (Nat.le_succ _) hq, Nat.le_add_left _ _, Nat.le_refl _, Nat.zero_lt_succ _, rfl⟩

theorem State.ClockOk.enqueue {s : State} (h : s.ClockOk) (w : LedWord)
    (hroom : s.tx.q.length < s.cfg.ledFifoDepth) : (enqueue w s).ClockOk where
  preBelow := h.preBelow
  ctrBelow := h.ctrBelow
  off := h.off
  engine := by
    refine txTake_good (by simpa using hroom) ?_
    have hs := h.engine.shifter
    revert hs
    change (match s.tx.shift with | .idle => _ | .sending _ n => _) → _
    cases s.tx.shift with
    | idle => exact fun hs => hs.2
    | sending w n => exact id
  timerZero := h.timerZero
  fracBelow := h.fracBelow

theorem State.ClockOk.txPush {s : State} (hcfg : s.cfg.wf = true) (h : s.ClockOk) (w : LedWord) :
    (txPush w s).ClockOk := by
  have h1 := h.takeFree.advance (pushCycles s)
  refine State.ClockOk.enqueue ?_ w ?_
  · exact h1.advance _
  · rw [waitForRoom_toRegs]
    exact waitForRoom_room hcfg h1

end Sys2Proof.Machine
end

