-- ==== Sys2Proof/Laws/Reads.lean ====
section
/-! SUPPORT. What the polling loop, the feedback of a press and a run of reads do, said once each. -/

namespace Sys2Proof.Machine

/-! ## The polling loop (spec/42_button.md R172) -/

/-- What a loop that has looked at the samples `seen` has done: time has passed, the samples are recorded. -/
structure Polled (seen : List Sample) (cycles : Nat) (s t : State) : Prop where
  regs : t.toRegs = { s.toRegs with inputs := t.inputs }
  events : sequencerEvents t.trace = sequencerEvents s.trace ++ seen.map fun q => .polled q.aN q.bN
  time : t.now = s.now + cycles * s.cfg.pollCycles
  pushed : t.pushedWords = s.pushedWords
  clockOk : s.ClockOk → t.ClockOk

theorem Polled.refl (s : State) : Polled [] 0 s s :=
  ⟨rfl, by simp, by simp, rfl, id⟩

theorem takeSample_pushedWords (p : Sample) (rest : List Sample) (s : State) :
    (takeSample p rest s).pushedWords = s.pushedWords := by
  rw [takeSample_toClocked]
  exact record_pushedWords (e := .polled _ _) _

theorem State.ClockOk.takeSample {s : State} (h : s.ClockOk) (p : Sample) (rest : List Sample) :
    (takeSample p rest s).ClockOk :=
  h.congr ⟨rfl, rfl, rfl, rfl⟩ ⟨rfl, rfl, rfl, rfl, rfl⟩

/-- One released sample, then the rest of the loop. -/
theorem Polled.cons {q : Sample} {rest seen : List Sample} {n : Nat} {s t : State}
    (h : Polled seen n (advance s.cfg.pollCycles (takeSample q rest s)) t) :
    Polled (q :: seen) (n + 1) s t where
  regs := h.regs
  events := by
    rw [h.events, advance_sequencerEvents, takeSample_toClocked, sequencerEvents_snoc _ rfl]
    simp
  time := by
    rw [h.time, advance_now]
    simp only [takeSample_toClocked, advance_toRegs, takeSample_toRegs, Nat.add_mul]
    omega
  pushed := by rw [h.pushed, advance_pushedWords, takeSample_pushedWords]
  clockOk hs := h.clockOk ((hs.takeSample q rest).advance _)

/-- The first sample with an asserted input ends the loop. -/
theorem pollLoop_press {waits : List Sample} {p : Sample} {rest : List Sample} {sym : Symbol} {s : State}
    (hw : ∀ q ∈ waits, pressedSymbol s.cfg q = none) (hp : pressedSymbol s.cfg p = some sym) :
    ∃ t, pollLoop (waits ++ p :: rest) s = (some sym, t) ∧ t.inputs = rest ∧
      Polled (waits ++ [p]) waits.length s t := by
  induction waits generalizing s with
  | nil =>
    refine ⟨takeSample p rest s, by simp [pollLoop, hp], rfl, rfl, ?_, by simp, takeSample_pushedWords _ _ _, fun h =>
      h.takeSample p rest⟩
    exact sequencerEvents_snoc s.trace rfl
  | cons q waits ih =>
    have hq : pressedSymbol s.cfg q = none := hw q (by simp)
    simp only [List.cons_append, pollLoop, hq]
    obtain ⟨t, h1, h2, h3⟩ := ih (s := advance s.cfg.pollCycles (takeSample q (waits ++ p :: rest) s)) (fun q' hq' => hw q' (by simp [hq'])) hp
    exact ⟨t, h1, h2, h3.cons⟩

/-- With no asserted sample among those supplied, the loop has looked at all of them and goes on. -/
theorem pollLoop_released {waits : List Sample} {s : State} (hi : s.inputs = waits)
    (hw : ∀ q ∈ waits, pressedSymbol s.cfg q = none) :
    ∃ t, pollLoop waits s = (none, t) ∧ t.inputs = [] ∧ Polled waits waits.length s t := by
  induction waits generalizing s with
  | nil => exact ⟨s, rfl, hi, Polled.refl s⟩
  | cons q waits ih =>
    have hq : pressedSymbol s.cfg q = none := hw q (by simp)
    simp only [pollLoop, hq]
    obtain ⟨t, h1, h2, h3⟩ := ih (s := advance s.cfg.pollCycles (takeSample q waits s)) rfl (fun q' hq' => hw q' (by simp [hq']))
    exact ⟨t, h1, h2, h3.cons⟩

/-- The samples a loop sees hold a first asserted one, or none. -/
theorem press_split (cfg : Config) (ins : List Sample) :
    (∀ q ∈ ins, pressedSymbol cfg q = none) ∨
      ∃ waits p rest sym, ins = waits ++ p :: rest ∧ (∀ q ∈ waits, pressedSymbol cfg q = none) ∧
        pressedSymbol cfg p = some sym := by
  induction ins with
  | nil => exact .inl (by simp)
  | cons q ins ih =>
    cases hq : pressedSymbol cfg q with
    | some sym => exact .inr ⟨[], q, ins, sym, rfl, by simp, hq⟩
    | none =>
      rcases ih with h | ⟨waits, p, rest, sym, h1, h2, h3⟩
      · exact .inl (by simpa [hq] using h)
      · exact .inr ⟨q :: waits, p, rest, sym, by simp [h1], by simpa [hq] using h2, h3⟩

/-! ## The feedback of a press (R171, R172) -/

@[simp] theorem feedback_toRegs (sym : Symbol) (s : State) :
    (feedback sym s).toRegs =
      { s.toRegs with
          result := sym
          resultValid := true
          btnState := .debounce
          pwmTop := BitVec.ofNat 32 (topOf s.cfg feedbackHz)
          pwmLevel := 0
          freeIdx := s.freeIdx + 1 + 1 } := by
  simp [feedback]

@[simp] theorem feedback_sequencerEvents (sym : Symbol) (s : State) :
    sequencerEvents (feedback sym s).trace = sequencerEvents s.trace ++
      [.tonOn (topOf s.cfg feedbackHz) (levelOf (topOf s.cfg feedbackHz)), .slept feedbackMs, .tonOff, .slept toneGapMs,
        .slept debounceMs] := by
  simp [feedback]

@[simp] theorem feedback_pushedWords (sym : Symbol) (s : State) : (feedback sym s).pushedWords = s.pushedWords := by
  simp [feedback]

theorem State.ClockOk.latchPress {s : State} (h : s.ClockOk) (sym : Symbol) : (latchPress sym s).ClockOk :=
  h.congr ⟨rfl, rfl, rfl, rfl⟩ ⟨rfl, rfl, rfl, rfl, rfl⟩
theorem State.ClockOk.enterGap {s : State} (h : s.ClockOk) : (enterGap s).ClockOk :=
  h.congr ⟨rfl, rfl, rfl, rfl⟩ ⟨rfl, rfl, rfl, rfl, rfl⟩
theorem State.ClockOk.enterDebounce {s : State} (h : s.ClockOk) : (enterDebounce s).ClockOk :=
  h.congr ⟨rfl, rfl, rfl, rfl⟩ ⟨rfl, rfl, rfl, rfl, rfl⟩
theorem State.ClockOk.enterIdle {s : State} (h : s.ClockOk) : (enterIdle s).ClockOk :=
  h.congr ⟨rfl, rfl, rfl, rfl⟩ ⟨rfl, rfl, rfl, rfl, rfl⟩
theorem State.ClockOk.enterPoll {s : State} (h : s.ClockOk) (rem : Nat) : (enterPoll rem s).ClockOk :=
  h.congr ⟨rfl, rfl, rfl, rfl⟩ ⟨rfl, rfl, rfl, rfl, rfl⟩
theorem State.ClockOk.storeSymbol {s : State} (h : s.ClockOk) (sym : Symbol) : (storeSymbol sym s).ClockOk :=
  h.congr ⟨rfl, rfl, rfl, rfl⟩ ⟨rfl, rfl, rfl, rfl, rfl⟩

theorem State.ClockOk.feedback {s : State} (h : s.ClockOk) (sym : Symbol) : (feedback sym s).ClockOk :=
  (((((h.latchPress sym).toneStart feedbackHz).sleep feedbackMs).toneStop.enterGap.sleep toneGapMs).enterDebounce).sleep
    debounceMs

/-- A read takes at least 350 ms from the sample that ends its loop (R175). -/
theorem feedback_now {sym : Symbol} {s : State} (h : s.cfg.wf = true) :
    s.now + 350 * cycPerMs s.cfg ≤ (feedback sym s).now := by
  unfold feedback
  dsimp only
  rw [sleep_now (by simpa using h) (by decide), enterDebounce_toClocked, sleep_now (by simpa using h) (by decide),
    enterGap_toClocked, toneStop_now, sleep_now (by simpa using h) (by decide), toneStart_now, latchPress_toClocked]
  simp only [enterDebounce_toRegs, enterGap_toRegs, sleep_toRegs, toneStop_toRegs, toneStart_toRegs, latchPress_toRegs,
    feedbackMs, toneGapMs, debounceMs]
  omega

@[simp] theorem feedback_slpCnt (sym : Symbol) (s : State) : (feedback sym s).slpCnt = 0 := by
  unfold feedback
  exact sleep_slpCnt _ _

/-! ## One read after the other (R171, R176) -/

theorem reads_zero (store : Bool) (s : State) : reads store 0 s = (true, enterIdle s) := rfl

/-- A read with a press among the samples supplied ends; the next one begins with the samples after it. -/
theorem reads_press {store : Bool} {rem : Nat} {waits : List Sample} {p : Sample} {rest : List Sample} {sym : Symbol}
    {s : State} (hi : s.inputs = waits ++ p :: rest) (hw : ∀ q ∈ waits, pressedSymbol s.cfg q = none)
    (hp : pressedSymbol s.cfg p = some sym) :
    ∃ t, t.inputs = rest ∧ Polled (waits ++ [p]) waits.length (enterPoll (rem + 1) s) t ∧
      reads store (rem + 1) s =
        reads store rem (if store then storeSymbol sym (feedback sym t) else feedback sym t) := by
  obtain ⟨t, h1, h2, h3⟩ := pollLoop_press (rest := rest) (s := enterPoll (rem + 1) s) hw hp
  refine ⟨t, h2, h3, ?_⟩
  rw [reads, hi, h1]

/-- A read with no press among the samples supplied waits in POLL. -/
theorem reads_released {store : Bool} {rem : Nat} {s : State} (hw : ∀ q ∈ s.inputs, pressedSymbol s.cfg q = none) :
    ∃ t, t.inputs = [] ∧ Polled s.inputs s.inputs.length (enterPoll (rem + 1) s) t ∧
      reads store (rem + 1) s = (false, t) := by
  obtain ⟨t, h1, h2, h3⟩ := pollLoop_released (s := enterPoll (rem + 1) s) rfl hw
  refine ⟨t, h2, h3, ?_⟩
  rw [enterPoll_toRegs] at h1
  rw [reads, h1]

end Sys2Proof.Machine
end

