-- ==== Sys2Proof/Laws/Engine.lean ====
section
/-! SUPPORT. The timing engine runs on under every operation that pushes no word: one lemma per operation, cited instead
of unfolding it. -/

namespace Sys2Proof.Machine

theorem engineEvents_append (es fs : List Event) : engineEvents (es ++ fs) = engineEvents es ++ engineEvents fs :=
  List.filter_append ..

theorem engineEvents_snoc (es : List Event) {e : Event} (h : e.fromEngine = false) :
    engineEvents (es ++ [e]) = engineEvents es := by
  rw [engineEvents_append]
  simp [engineEvents, h]

/-- A change in no time that does not touch the engine. -/
structure EngineKept (s t : State) : Prop where
  cfg : t.cfg = s.cfg
  now : t.now = s.now
  tx : t.tx = s.tx
  nsFrac : t.nsFrac = s.nsFrac
  events : engineEvents t.trace = engineEvents s.trace

theorem EngineKept.trans {s t u : State} (h : EngineKept s t) (h' : EngineKept t u) : EngineKept s u :=
  ⟨h'.cfg.trans h.cfg, h'.now.trans h.now, h'.tx.trans h.tx, h'.nsFrac.trans h.nsFrac, h'.events.trans h.events⟩

/-- What time makes of the engine depends on the engine alone. -/
theorem EngineKept.advance {s t : State} (h : EngineKept s t) (k : Nat) :
    EngineKept (advance k s) (advance k t) := by
  obtain ⟨h1, h2, h3, h4, h5⟩ := h
  refine ⟨h1, by rw [advance_now, advance_now, h2], ?_, ?_, ?_⟩
  · rw [advance_toClocked, advance_toClocked, clockedRun_tx, clockedRun_tx, h1, h3, h4]
  · rw [advance_toClocked, advance_toClocked, clockedRun_nsFrac, clockedRun_nsFrac, h1, h4]
  · rw [advance_toClocked, advance_toClocked, clockedRun_trace, clockedRun_trace, engineEvents_append,
      engineEvents_append, h1, h3, h4, h5]

/-! ## Running on -/

theorem EngineRan.ofAdvance (k : Nat) (s : State) : EngineRan k s (advance k s) := ⟨rfl, rfl, rfl, rfl⟩

theorem EngineRan.after {k : Nat} {s t u : State} (h : EngineRan k s t) (h' : EngineKept t u) : EngineRan k s u :=
  ⟨h'.now.trans h.now, h'.tx.trans h.tx, h'.nsFrac.trans h.nsFrac, h'.events.trans h.events⟩

theorem EngineRan.before {k : Nat} {s t u : State} (h : EngineKept s t) (h' : EngineRan k t u) : EngineRan k s u := by
  have ha := h.advance k
  exact ⟨by rw [h'.now, h.now], h'.tx.trans ha.tx, h'.nsFrac.trans ha.nsFrac, h'.events.trans ha.events⟩

/-- The cycles of two stretches add up. -/
theorem EngineRan.trans {a b : Nat} {s t u : State} (h : EngineRan a s t) (hc : t.cfg = s.cfg) (h' : EngineRan b t u) :
    EngineRan (a + b) s u := by
  have hk : EngineKept (Machine.advance a s) t := ⟨hc, h.now, h.tx, h.nsFrac, h.events⟩
  have hr := EngineRan.before hk h'
  exact ⟨by rw [h'.now, h.now, Nat.add_assoc], by rw [advance_add]; exact hr.tx, by rw [advance_add]; exact hr.nsFrac,
    by rw [advance_add]; exact hr.events⟩

/-- No time at all, from a state the engine can be in. -/
theorem EngineRan.refl {s : State} (hg : s.tx.Good s.cfg) (hf : s.nsFrac < s.cfg.sysclkHz) : EngineRan 0 s s := by
  have h := EngineRan.ofAdvance 0 s
  rwa [advance_zero hg hf] at h

/-! ## The operations -/

theorem engineKept_record {e : Event} (s : State) (h : e.fromEngine = false := by rfl) : EngineKept s (record e s) :=
  ⟨rfl, rfl, rfl, rfl, engineEvents_snoc s.trace h⟩

theorem engineRan_gap (s : State) : EngineRan (Config.freeCycles s.freeIdx) s (gap s) :=
  EngineRan.before (t := takeFree s) ⟨rfl, rfl, rfl, rfl, rfl⟩ (EngineRan.ofAdvance _ _)

theorem engineKept_beginSleep (ms : Nat) (s : State) : EngineKept s (beginSleep ms s) :=
  EngineKept.trans (t := setTimer ms s) ⟨rfl, rfl, rfl, rfl, rfl⟩ (engineKept_record _)

theorem engineRan_sleep (ms : Nat) (s : State) : ∃ k, EngineRan k s (sleep ms s) :=
  ⟨_, EngineRan.before (engineKept_beginSleep ms s) (EngineRan.ofAdvance _ _)⟩

theorem engineKept_setLevel (level : Nat) (s : State) : EngineKept s (setLevel level s) := ⟨rfl, rfl, rfl, rfl, rfl⟩

theorem engineRan_toneStart (f : Nat) (s : State) : ∃ k, EngineRan k s (toneStart f s) := by
  have h1 : EngineKept s (setTop (topOf s.cfg f) s) := ⟨rfl, rfl, rfl, rfl, rfl⟩
  have h2 := EngineRan.before h1 (engineRan_gap _)
  exact ⟨_, (h2.after (engineKept_setLevel (levelOf (topOf s.cfg f)) _)).after
    (engineKept_record (e := .tonOn (topOf s.cfg f) (levelOf (topOf s.cfg f))) _)⟩

theorem engineRan_toneStop (s : State) : ∃ k, EngineRan k s (toneStop s) :=
  ⟨_, ((engineRan_gap s).after (engineKept_setLevel 0 _)).after (engineKept_record _)⟩

/-- The tone lets the engine run on (R154; 70_reset_and_hazards.md R281). -/
theorem engineRan_tone (f ms : Nat) (s : State) : ∃ k, EngineRan k s (tone f ms s) := by
  obtain ⟨k1, h1⟩ := engineRan_toneStart f s
  obtain ⟨k2, h2⟩ := engineRan_sleep ms (toneStart f s)
  obtain ⟨k3, h3⟩ := engineRan_toneStop (sleep ms (toneStart f s))
  obtain ⟨k4, h4⟩ := engineRan_sleep toneGapMs (toneStop (sleep ms (toneStart f s)))
  exact ⟨_, ((h1.trans (by simp) h2).trans (by simp) h3).trans (by simp) h4⟩

theorem engineRan_complete (i : Instr) (data : BitVec 32) (s : State) : ∃ k, EngineRan k s (complete i data s) := by
  have h := (engineRan_gap s).after (u := presentResponse (responseWord i.opcode.code 0 data) (countCompletion (gap s)))
    ⟨rfl, rfl, rfl, rfl, rfl⟩
  exact ⟨_, h.after (engineKept_record _)⟩

/-! ## The reads -/

theorem engineKept_enterGap (s : State) : EngineKept s (enterGap s) := ⟨rfl, rfl, rfl, rfl, rfl⟩

theorem engineKept_enterDebounce (s : State) : EngineKept s (enterDebounce s) := ⟨rfl, rfl, rfl, rfl, rfl⟩

/-- The feedback of a press lets the engine run on (R172). -/
theorem engineRan_feedback (sym : Symbol) (s : State) : ∃ k, EngineRan k s (feedback sym s) := by
  have h0 : EngineKept s (latchPress sym s) := ⟨rfl, rfl, rfl, rfl, rfl⟩
  obtain ⟨k1, h1⟩ := engineRan_toneStart feedbackHz (latchPress sym s)
  obtain ⟨k2, h2⟩ := engineRan_sleep feedbackMs (toneStart feedbackHz (latchPress sym s))
  obtain ⟨k3, h3⟩ := engineRan_toneStop (sleep feedbackMs (toneStart feedbackHz (latchPress sym s)))
  have h3' := h3.after (engineKept_enterGap _)
  obtain ⟨k4, h4⟩ := engineRan_sleep toneGapMs
    (enterGap (toneStop (sleep feedbackMs (toneStart feedbackHz (latchPress sym s)))))
  have h4' := h4.after (engineKept_enterDebounce _)
  obtain ⟨k5, h5⟩ := engineRan_sleep debounceMs
    (enterDebounce (sleep toneGapMs (enterGap (toneStop (sleep feedbackMs (toneStart feedbackHz (latchPress sym s)))))))
  exact ⟨_, EngineRan.before h0 ((((h1.trans (by simp) h2).trans (by simp) h3').trans (by simp) h4').trans (by simp) h5)⟩

/-- A run of operations in which the engine either is left alone in no time, or runs on for some cycles. -/
def EngineLeft (s t : State) : Prop := EngineKept s t ∨ ∃ k, EngineRan k s t

theorem EngineLeft.refl (s : State) : EngineLeft s s := .inl ⟨rfl, rfl, rfl, rfl, rfl⟩

theorem EngineLeft.trans {s t u : State} (h : EngineLeft s t) (hc : t.cfg = s.cfg) (h' : EngineLeft t u) :
    EngineLeft s u := by
  rcases h with h | ⟨a, h⟩ <;> rcases h' with h' | ⟨b, h'⟩
  · exact .inl (h.trans h')
  · exact .inr ⟨b, EngineRan.before h h'⟩
  · exact .inr ⟨a, h.after h'⟩
  · exact .inr ⟨_, h.trans hc h'⟩

/-- Left alone or run on, then run on: it has run on. -/
theorem EngineLeft.ran {s t u : State} (h : EngineLeft s t) (hc : t.cfg = s.cfg) (h' : ∃ k, EngineRan k t u) :
    ∃ k, EngineRan k s u := by
  obtain ⟨b, h'⟩ := h'
  rcases h with h | ⟨a, h⟩
  · exact ⟨b, EngineRan.before h h'⟩
  · exact ⟨_, h.trans hc h'⟩

/-- From a state the engine can be in, it has run on in any case. -/
theorem EngineLeft.ranGood {s t : State} (h : EngineLeft s t) (hg : s.tx.Good s.cfg) (hf : s.nsFrac < s.cfg.sysclkHz) :
    ∃ k, EngineRan k s t := by
  rcases h with h | h
  · exact ⟨0, (EngineRan.refl hg hf).after h⟩
  · exact h

theorem pollLoop_cfg (ins : List Sample) (s : State) : (pollLoop ins s).2.cfg = s.cfg := by
  induction ins generalizing s with
  | nil => rfl
  | cons p rest ih =>
    simp only [pollLoop]
    split
    · rfl
    · rw [ih]
      rfl

theorem engineLeft_pollLoop (ins : List Sample) (s : State) : EngineLeft s (pollLoop ins s).2 := by
  induction ins generalizing s with
  | nil => exact EngineLeft.refl s
  | cons p rest ih =>
    have h : EngineKept s (takeSample p rest s) := ⟨rfl, rfl, rfl, rfl, engineEvents_snoc s.trace rfl⟩
    simp only [pollLoop]
    split
    · exact .inl h
    · exact EngineLeft.trans (.inr ⟨_, EngineRan.before h (EngineRan.ofAdvance _ _)⟩) rfl (ih _)

theorem reads_cfg (store : Bool) (rem : Nat) (s : State) : (reads store rem s).2.cfg = s.cfg := by
  induction rem generalizing s with
  | zero => rfl
  | succ rem ih =>
    have hp := pollLoop_cfg s.inputs (enterPoll (rem + 1) s)
    unfold reads
    split
    next t ht => rw [ht] at hp; exact hp
    next sym t ht =>
      rw [ht] at hp
      rw [ih]
      cases store <;> simpa using hp

/-- A run of reads leaves the engine to itself (R171, R176; 70_reset_and_hazards.md R281). -/
theorem engineLeft_reads (store : Bool) (rem : Nat) (s : State) : EngineLeft s (reads store rem s).2 := by
  induction rem generalizing s with
  | zero => exact .inl ⟨rfl, rfl, rfl, rfl, rfl⟩
  | succ rem ih =>
    have h0 : EngineLeft s (enterPoll (rem + 1) s) := .inl ⟨rfl, rfl, rfl, rfl, rfl⟩
    have hc := pollLoop_cfg s.inputs (enterPoll (rem + 1) s)
    have h1 := engineLeft_pollLoop s.inputs (enterPoll (rem + 1) s)
    unfold reads
    split
    next t ht => rw [ht] at h1; exact h0.trans rfl h1
    next sym t ht =>
      rw [ht] at h1 hc
      have h2 : EngineLeft t (feedback sym t) := .inr (engineRan_feedback sym t)
      have h3 : EngineLeft (feedback sym t) (if store then storeSymbol sym (feedback sym t) else feedback sym t) := by
        cases store
        · exact EngineLeft.refl _
        · exact .inl ⟨rfl, rfl, rfl, rfl, rfl⟩
      refine EngineLeft.trans ((h0.trans rfl h1).trans hc (h2.trans (by simp) h3)) ?_ (ih _)
      cases store <;> simpa using hc

end Sys2Proof.Machine
end

