-- ==== Sys2Proof/Laws/PerInstr.lean ====
section
/-! SUPPORT. Families of statements about an instruction as syntax, one lemma per constructor. -/

namespace Sys2Proof.Laws

/-! ## OpcodeMatches: the word of an instruction passes the test of its own row (spec/30_encoding.md R94, R96) -/

def OpcodeMatches.Statement (i : Instr) : Prop := encode i &&& i.opcode.mask = i.opcode.matchWord

/-- The mask of a row, field by field, decides its test on an encoded word. -/
theorem opcodeMatches_of_fields {i : Instr} (pm : BitVec 8) (dm : BitVec 16) (wm : BitVec 32)
    (hm : i.opcode.mask = fieldsWord 0xFF pm dm wm)
    (hp : pField (encode i) &&& pm = 0) (hd : dField (encode i) &&& dm = 0) (hw : wField (encode i) &&& wm = 0) :
    OpcodeMatches.Statement i := by
  unfold OpcodeMatches.Statement
  rw [hm, Opcode.matchWord_eq, and_mask_eq_iff]
  exact ⟨opField_encode i, hp, hd, hw⟩

theorem OpcodeMatches.ledinit (pin : BitVec 8) : OpcodeMatches.Statement (.ledinit pin) :=
  opcodeMatches_of_fields 0 0xFFFF 0xFFFFFFFF rfl (by simp) (by simp [encode]) (by simp [encode])

theorem OpcodeMatches.setpix (index r g b : BitVec 8) : OpcodeMatches.Statement (.setpix index r g b) := by
  refine opcodeMatches_of_fields 0 0xFFFF 0xFF000000 rfl (by simp) (by simp [encode]) ?_
  show wField (fieldsWord _ _ _ ((0 : BitVec 8) ++ r ++ g ++ b)) &&& 0xFF000000 = 0
  rw [wField_fieldsWord, show (0xFF000000 : BitVec 32) = (0xFF : BitVec 8) ++ 0#8 ++ 0#8 ++
    0#8 by decide, BitVec.and_append, BitVec.and_append, BitVec.and_append, BitVec.and_zero, BitVec.and_zero,
    BitVec.and_zero]
  decide

theorem OpcodeMatches.clear : OpcodeMatches.Statement .clear := by unfold OpcodeMatches.Statement; decide
theorem OpcodeMatches.write : OpcodeMatches.Statement .write := by unfold OpcodeMatches.Statement; decide

theorem OpcodeMatches.pwminit (pin : BitVec 8) : OpcodeMatches.Statement (.pwminit pin) :=
  opcodeMatches_of_fields 0 0xFFFF 0xFFFFFFFF rfl (by simp) (by simp [encode]) (by simp [encode])

theorem OpcodeMatches.tone (pin : BitVec 8) (f : BitVec 32) (ms : BitVec 16) :
    OpcodeMatches.Statement (.tone pin f ms) :=
  opcodeMatches_of_fields 0 0 0 rfl (by simp) (by simp) (by simp)

theorem OpcodeMatches.readsym : OpcodeMatches.Statement .readsym := by unfold OpcodeMatches.Statement; decide

theorem OpcodeMatches.readseq (length : BitVec 16) : OpcodeMatches.Statement (.readseq length) :=
  opcodeMatches_of_fields 0xFF 0 0xFFFFFFFF rfl (by simp [encode]) (by simp) (by simp [encode])

theorem OpcodeMatches.delay (ms : BitVec 16) : OpcodeMatches.Statement (.delay ms) :=
  opcodeMatches_of_fields 0xFF 0 0xFFFFFFFF rfl (by simp [encode]) (by simp) (by simp [encode])

theorem OpcodeMatches.get (sel : Selector) (idx : BitVec 16) : OpcodeMatches.Statement (.get sel idx) :=
  opcodeMatches_of_fields 0 0 0xFFFFFFFF rfl (by simp) (by simp) (by simp [encode])

end Sys2Proof.Laws
end

