-- ==== Sys2Proof/Laws/Step.lean ====
section
/-! SUPPORT. Which case of `step` a state takes, and runs of several steps. -/

namespace Sys2Proof.Machine

/-- A step that has a next state begins the rest of a run. -/
theorem run_succ {s t : State} (h : step s = .next t) (n : Nat) :
    Host.Core.run Sys2Proof.core (n + 1) s = Host.Core.run Sys2Proof.core n t := by
  have hs : Sys2Proof.core.step s = .next t := h
  simp only [Host.Core.run, hs]

/-! ## Reset -/

theorem step_reset {s : State} (hc : s.cfg.wf = true) (hr : s.rst = true) : step s = .next (holdReset s) := by
  simp [step, hc, hr]

/-- No reset comes before the step is over: it is the sequencer's. -/
theorem step_runStep {s : State} (hc : s.cfg.wf = true) (hr : s.rst = false) (h0 : s.Undisturbed s.now)
    (h : ∀ t, runStep s = .next t → s.Undisturbed t.now) : step s = runStep s := by
  unfold step
  simp only [hc, hr, Bool.true_eq_false, Bool.false_eq_true, if_false]
  split
  · rfl
  next p later hp =>
    have hlt := (h0 p later hp).1
    unfold interrupt
    rw [if_neg (Nat.not_le.mpr hlt)]
    cases ho : runStep s with
    | next t => exact if_neg (Nat.not_lt.mpr (h t ho p later hp).2)
    | fault f => rfl
    | refused r => rfl

theorem step_quiet {s : State} (hc : s.cfg.wf = true) (hr : s.rst = false) (hq : s.resets = []) :
    step s = runStep s := by
  simp [step, hc, hr, hq]

/-- A reset that comes before the step is over ends it. -/
theorem step_interrupted {s : State} {p : ResetPulse} {later : List ResetPulse} (hc : s.cfg.wf = true)
    (hr : s.rst = false) (hp : s.resets = p :: later)
    (h : p.cycle ≤ s.now ∨ ∃ t, runStep s = .next t ∧ p.cycle < t.now) :
    ∃ u, step s = .next (assertReset p later u) ∧ (u = s ∨ runStep s = .next u) := by
  by_cases hn : p.cycle ≤ s.now
  · exact ⟨s, by simp [step, hc, hr, hp, interrupt, hn], .inl rfl⟩
  · obtain ⟨t, ht, hlt⟩ := h.resolve_left hn
    exact ⟨t, by simp [step, hc, hr, hp, interrupt, hn, ht, hlt], .inr ht⟩

/-- What a step can be: a reset edge, the sequencer's own step, or the beginning of a reset. -/
theorem step_cases {s t : State} (h : step s = .next t) :
    s.cfg.wf = true ∧
      ((s.rst = true ∧ t = holdReset s) ∨
        (s.rst = false ∧ runStep s = .next t) ∨
        (s.rst = false ∧ ∃ p later, s.resets = p :: later ∧ (t = assertReset p later s ∨
          ∃ u, runStep s = .next u ∧ t = assertReset p later u))) := by
  unfold step at h
  split at h
  · cases h
  next hc =>
    refine ⟨by simpa using hc, ?_⟩
    split at h
    next hr => exact .inl ⟨hr, by injection h with h; exact h.symm⟩
    next hr =>
      have hr' : s.rst = false := by simpa using hr
      split at h
      · exact .inr (.inl ⟨hr', h⟩)
      next p later hp =>
        unfold interrupt at h
        split at h
        · exact .inr (.inr ⟨hr', p, later, hp, .inl (by injection h with h; exact h.symm)⟩)
        · split at h
          next u hu =>
            split at h
            · exact .inr (.inr ⟨hr', p, later, hp, .inr ⟨u, hu, by injection h with h; exact h.symm⟩⟩)
            · injection h with h
              exact .inr (.inl ⟨hr', by rw [hu, h]⟩)
          · cases h
          · cases h

/-! ## The sequencer's step -/

theorem runStep_halted {s : State} (hh : s.halted = true) : runStep s = .next (idleCycle s) := by
  simp [runStep, hh]

theorem runStep_busy {s : State} (hh : s.halted = false) (hb : s.busy = true) : runStep s = .next (resumeRead s) := by
  simp [runStep, hh, hb]

/-- What `cmd_ready = 1` says. -/
theorem State.cmdReady_iff (s : State) :
    s.cmdReady = true ↔ s.busy = false ∧ s.halted = false ∧ s.rst = false := by
  simp [State.cmdReady, and_assoc]

theorem runStep_idle {s : State} (hr : s.cmdReady = true) (hp : s.pending = []) : runStep s = .next (idleCycle s) := by
  obtain ⟨h1, h2, -⟩ := s.cmdReady_iff.mp hr
  simp [runStep, h1, h2, hp]

theorem runStep_command {s : State} {c : Word64} {rest : List Word64} (hr : s.cmdReady = true)
    (hp : s.pending = c :: rest) : runStep s = runCommand c (accept rest s) := by
  obtain ⟨h1, h2, -⟩ := s.cmdReady_iff.mp hr
  simp [runStep, h1, h2, hp]

end Sys2Proof.Machine
end

