-- ==== Sys2Proof/Laws/RoundHost.lean ====
section
/-! SUPPORT. What the reference host does, move by move, and which case of `benchStep` a bench takes. -/

namespace Sys2Proof.Machine

/-! ## The fields a move leaves and writes -/

@[simp] theorem enterPhase_phase (p : Phase) (g : Game) : (enterPhase p g).phase = p := rfl
@[simp] theorem enterPhase_todo (p : Phase) (g : Game) :
    (enterPhase p g).todo = gameCommands { g with phase := p } := rfl
@[simp] theorem enterPhase_level (p : Phase) (g : Game) : (enterPhase p g).level = g.level := rfl
@[simp] theorem enterPhase_sequence (p : Phase) (g : Game) : (enterPhase p g).sequence = g.sequence := rfl
@[simp] theorem enterPhase_player (p : Phase) (g : Game) : (enterPhase p g).player = g.player := rfl
@[simp] theorem enterPhase_awaiting (p : Phase) (g : Game) : (enterPhase p g).awaiting = g.awaiting := rfl
@[simp] theorem endRound_phase (m : Bool) (g : Game) : (endRound m g).phase = .generating := rfl
@[simp] theorem endRound_level (m : Bool) (g : Game) : (endRound m g).level = nextLevel m g.level := rfl
@[simp] theorem endRound_awaiting (m : Bool) (g : Game) : (endRound m g).awaiting = g.awaiting := rfl

@[simp] theorem enterPhase_draws (p : Phase) (g : Game) : (enterPhase p g).draws = g.draws := rfl
@[simp] theorem endRound_draws (m : Bool) (g : Game) : (endRound m g).draws = g.draws := rfl
@[simp] theorem drawSequence_level (draw : Nat → Nat → Symbol) (g : Game) : (drawSequence draw g).level = g.level := rfl
@[simp] theorem drawSequence_awaiting (draw : Nat → Nat → Symbol) (g : Game) :
    (drawSequence draw g).awaiting = g.awaiting := rfl
@[simp] theorem drawSequence_draws (draw : Nat → Nat → Symbol) (g : Game) :
    (drawSequence draw g).draws = g.draws + 1 := rfl
@[simp] theorem drawSequence_length (draw : Nat → Nat → Symbol) (g : Game) :
    (drawSequence draw g).sequence.length = g.level := by
  simp [drawSequence]
theorem drawSequence_get (draw : Nat → Nat → Symbol) (g : Game) {i : Nat} (h : i < g.level) :
    (drawSequence draw g).sequence[i]? = some (draw g.draws i) := by
  simp [drawSequence, h]
@[simp] theorem gameRestart_draws (g : Game) : (gameRestart g).draws = g.draws := rfl
@[simp] theorem gameRestart_level (g : Game) : (gameRestart g).level = 1 := rfl
@[simp] theorem gameRestart_phase (g : Game) : (gameRestart g).phase = .starting := rfl
@[simp] theorem gameRestart_awaiting (g : Game) : (gameRestart g).awaiting = none := rfl
@[simp] theorem gameRestart_todo (g : Game) :
    (gameRestart g).todo = [.ledinit g.ledPin, .pwminit g.buzzerPin] := rfl

/-- No phase change touches what the host waits for. -/
@[simp] theorem gameNext_awaiting (draw : Nat → Nat → Symbol) (g : Game) :
    (gameNext draw g).awaiting = g.awaiting := by
  unfold gameNext
  split <;> rfl

/-- The response of a command that completed: the host goes on, with the Symbol if it carries one. -/
theorem gameReceive_ok {i : Instr} {w : Word64} (g : Game) (h : responseCode w = 0) :
    gameReceive i w g =
      { g with awaiting := none, player := if copiesSymbol i then g.player ++ [responseSymbol w] else g.player } :=
  if_pos h

/-- The response of a command that faulted: the host stops. -/
theorem gameReceive_fault {i : Instr} {w : Word64} (g : Game) (h : responseCode w ≠ 0) :
    gameReceive i w g = { enterPhase .stopped g with awaiting := none } := if_neg h

@[simp] theorem gameReceive_awaiting (i : Instr) (w : Word64) (g : Game) : (gameReceive i w g).awaiting = none := by
  unfold gameReceive
  split <;> rfl

/-! ## Level (R208, R209, R213) -/

theorem nextLevel_range {m : Bool} {l : Nat} : 1 ≤ nextLevel m l ∧ nextLevel m l ≤ 100 := by
  unfold nextLevel seqCap
  split <;> omega

theorem gameNext_level_range {draw : Nat → Nat → Symbol} {g : Game} (h : 1 ≤ g.level ∧ g.level ≤ 100) :
    1 ≤ (gameNext draw g).level ∧ (gameNext draw g).level ≤ 100 := by
  unfold gameNext
  split
  · exact h
  · exact h
  · exact h
  · exact h
  · exact h
  · exact nextLevel_range (m := true) (l := g.level)
  · exact nextLevel_range (m := false) (l := g.level)
  · exact h

/-! ## The host's commands are commands (R96) -/

theorem showCommands_wellFormed (r g b : BitVec 8) (ms : BitVec 16) :
    ∀ i ∈ showCommands r g b ms, i.wellFormed = true := by
  intro i hi
  simp only [showCommands, fillCommands, List.mem_cons, List.mem_append, List.mem_map, List.mem_range] at hi
  rcases hi with rfl | ⟨n, -, rfl⟩ | rfl | rfl | rfl | rfl | hi
  all_goals first | rfl | simp at hi

theorem gameCommands_wellFormed (g : Game) : ∀ i ∈ gameCommands g, i.wellFormed = true := by
  intro i hi
  unfold gameCommands at hi
  split at hi
  · rcases List.mem_cons.mp hi with rfl | hi
    · rfl
    · rw [List.mem_singleton.mp hi]; rfl
  · split at hi
    · simp at hi
    · rw [List.mem_singleton.mp hi]; rfl
  · obtain ⟨sym, -, hs⟩ := List.mem_flatMap.mp hi
    rcases List.mem_append.mp hs with hs | hs
    · cases sym <;> exact showCommands_wellFormed _ _ _ _ i hs
    · rw [List.mem_singleton.mp hs]; rfl
  · rcases List.mem_cons.mp hi with rfl | hi
    · rfl
    · obtain ⟨n, -, rfl⟩ := List.mem_map.mp hi
      rfl
  · simp at hi
  · rcases List.mem_append.mp hi with hi | hi
    · rw [List.mem_singleton.mp hi]; rfl
    · exact showCommands_wellFormed _ _ _ _ i hi
  · rcases List.mem_append.mp hi with hi | hi
    · rw [List.mem_singleton.mp hi]; rfl
    · exact showCommands_wellFormed _ _ _ _ i hi
  · simp at hi

/-! ## Which case a bench takes -/

/-- A step of the bench that has a next state begins the rest of a run. -/
theorem benchRun_succ {draw : Nat → Nat → Symbol} {b b' : Bench} (h : benchStep draw b = .next b') (n : Nat) :
    benchRun draw (n + 1) b = benchRun draw n b' := by
  simp only [benchRun, h]

theorem blockStep_next {g : Game} {s t : State} (h : step s = .next t) : blockStep g s = .next ⟨g, t⟩ := by
  simp only [blockStep, h]

/-- What a step of the bench can be: the two in reset, a move of the host, or a step of the block. -/
theorem benchStep_cases {draw : Nat → Nat → Symbol} {b b' : Bench} (h : benchStep draw b = .next b') :
    (b.block.rst = true ∧ b'.game = gameRestart b.game ∧
        step { b.block with pending := [] } = .next b'.block) ∨
      (b.block.rst = false ∧ hostMove draw b.game b.block = some (b'.game, b'.block)) ∨
      (b.block.rst = false ∧ hostMove draw b.game b.block = none ∧ b'.game = b.game ∧
        step b.block = .next b'.block) := by
  unfold benchStep at h
  split at h
  · cases h
  · split at h
    next hr =>
      unfold blockStep at h
      split at h
      next t ht =>
        injection h with h
        subst h
        exact .inl ⟨hr, rfl, ht⟩
      · cases h
      · cases h
    next hr =>
      have hr' : b.block.rst = false := by simpa using hr
      split at h
      next g s hm =>
        injection h with h
        subst h
        exact .inr (.inl ⟨hr', hm⟩)
      next hm =>
        unfold blockStep at h
        split at h
        next t ht =>
          injection h with h
          subst h
          exact .inr (.inr ⟨hr', hm, rfl, ht⟩)
        · cases h
        · cases h

/-- In reset the host is at its start, and the block takes its edge (R270, R271). -/
theorem benchStep_reset {draw : Nat → Nat → Symbol} {b : Bench} {t : State} (hf : roundGapFits b.block.cfg = true)
    (hr : b.block.rst = true) (ht : step { b.block with pending := [] } = .next t) :
    benchStep draw b = .next ⟨gameRestart b.game, t⟩ := by
  unfold benchStep
  rw [if_neg (by simp [hf]), if_pos hr]
  exact blockStep_next ht

theorem benchStep_host {draw : Nat → Nat → Symbol} {b : Bench} {g : Game} {s : State}
    (hf : roundGapFits b.block.cfg = true) (hr : b.block.rst = false) (hm : hostMove draw b.game b.block = some (g, s)) :
    benchStep draw b = .next ⟨g, s⟩ := by
  simp [benchStep, hf, hr, hm]

theorem benchStep_block {draw : Nat → Nat → Symbol} {b : Bench} {t : State} (hf : roundGapFits b.block.cfg = true)
    (hr : b.block.rst = false) (hm : hostMove draw b.game b.block = none) (ht : step b.block = .next t) :
    benchStep draw b = .next ⟨b.game, t⟩ := by
  simp [benchStep, hf, hr, hm, blockStep_next ht]

theorem hostMove_issue {draw : Nat → Nat → Symbol} {g : Game} {s : State} {i : Instr} {rest : List Instr}
    (ha : g.awaiting = none) (ht : g.todo = i :: rest) : hostMove draw g s = some (gameIssue i rest g s) := by
  simp [hostMove, ha, ht]

theorem hostMove_receive {draw : Nat → Nat → Symbol} {g : Game} {s : State} {i : Instr} (ha : g.awaiting = some i)
    (hv : s.rspValidOut = true) (hp : s.pending = []) :
    hostMove draw g s = some (gameReceive i s.rspDataOut g, s) := by
  simp [hostMove, ha, hv, hp, State.cmdValid]

/-- A host whose command is not answered yet waits. -/
theorem hostMove_waits {draw : Nat → Nat → Symbol} {g : Game} {s : State} {i : Instr} (ha : g.awaiting = some i)
    (h : s.rspValidOut = false ∨ s.pending ≠ []) : hostMove draw g s = none := by
  rcases h with h | h <;> simp [hostMove, ha, h, State.cmdValid]

theorem hostMove_next {draw : Nat → Nat → Symbol} {g : Game} {s : State} (ha : g.awaiting = none) (ht : g.todo = [])
    (hp : g.phase ≠ .stopped) : hostMove draw g s = some (gameNext draw g, s) := by
  simp [hostMove, ha, ht, hp]

/-- A host that has stopped does nothing. -/
theorem hostMove_stopped {draw : Nat → Nat → Symbol} {g : Game} {s : State} (ha : g.awaiting = none)
    (ht : g.todo = []) (hp : g.phase = .stopped) : hostMove draw g s = none := by
  simp [hostMove, ha, ht, hp]

end Sys2Proof.Machine
end

