-- ==== Sys2Proof/Tests/Slice0.lean ====
section
/-! SUPPORT. Tests of the model, each expected result from the vectors of spec/95_test_vectors.md (named V-…) or worked out by
hand from the rule named, and for every statement with hypotheses a state and operands that meet them. -/

namespace Sys2Proof.Tests

open Sys2Proof.Machine

/-! ## Small states -/

/-- A view of the next state, if there is one. -/
def nextView {α : Type} (f : State → α) (o : Host.Outcome State Fault Refusal) : Option α :=
  match o with
  | .next s => some (f s)
  | .fault _ => none
  | .refused _ => none

/-- After reset, with `cs` to issue. -/
def fresh (cs : List Word64) : State := { State.reset with pending := cs }

/-- After `LEDINIT 1`. -/
def litUp (cs : List Word64) : State :=
  { State.reset with pending := cs, ledInit := true, ledPin := 1, engFree := 0, pixbuf := fillPixels darkPixel [] }

/-- After `PWMINIT 2`, with samples to come. -/
def tuned (cs : List Word64) (ps : List Sample) : State :=
  { State.reset with pending := cs, inputs := ps, pwmInit := true, pwmEn := true, pwmPin := 2 }

/-- READSYM waiting in POLL. -/
def waiting (ps : List Sample) : State :=
  { tuned [] ps with busy := true, running := some .readsym, btnState := .poll, btnRem := 1 }

/-- Halted by E_INDEX. -/
def halted : State := { litUp [] with halted := true, fault := 6, faultCmd := 0x1119000000000000 }

def pressA : Sample := ⟨false, true⟩
def pressB : Sample := ⟨true, false⟩
def pressBoth : Sample := ⟨false, false⟩
def noPress : Sample := ⟨true, true⟩

/-! ## WellFormed: the one check (R106) refuses its ill-formed terms -/

theorem test_wellFormed_refuses_index_of_plain_selector : (Instr.get .pwmTop 1).wellFormed = false := by decide
theorem test_wellFormed_refuses_index_of_seqlen : (Instr.get .seqlen 0x8000).wellFormed = false := by decide
theorem test_wellFormed_takes_index_of_buffers :
    (Instr.get .pixbuf 65535).wellFormed = true ∧ (Instr.get .seqbuf 1).wellFormed = true ∧
      (Instr.get .status 0).wellFormed = true := by decide

/-! ## Decode: a word written out for every command (V-E1 to V-E20) -/

theorem test_decode_ledinit : decode 0x1001000000000000 = .ok (.ledinit 1) := by decide
theorem test_decode_setpix :
    decode 0x1103000000FF9601 = .ok (.setpix 3 255 150 1) ∧ decode 0x11180000000000FF = .ok (.setpix 24 0 0 255) := by
  decide
theorem test_decode_clear : decode 0x1200000000000000 = .ok .clear := by decide
theorem test_decode_write : decode 0x1300000000000000 = .ok .write := by decide
theorem test_decode_pwminit : decode 0x2002000000000000 = .ok (.pwminit 2) := by decide
theorem test_decode_tone :
    decode 0x210200C8000003E8 = .ok (.tone 2 1000 200) ∧ decode 0x2102FFFF00000001 = .ok (.tone 2 1 65535) := by decide
theorem test_decode_readsym : decode 0x3000000000000000 = .ok .readsym := by decide
theorem test_decode_readseq :
    decode 0x3100000300000000 = .ok (.readseq 3) ∧ decode 0x3100006400000000 = .ok (.readseq 100) := by decide
theorem test_decode_delay :
    decode 0x400001F400000000 = .ok (.delay 500) ∧ decode 0x4000FFFF00000000 = .ok (.delay 65535) := by decide
theorem test_decode_get :
    decode 0x4102000000000000 = .ok (.get .pwmTop 0) ∧ decode 0x4110000300000000 = .ok (.get .pixbuf 3) ∧
      decode 0x4111000200000000 = .ok (.get .seqbuf 2) ∧ decode 0x4107000000000000 = .ok (.get .seqlen 0) := by decide

/-- V-E21 to V-E23. -/
theorem test_decode_reserved_opcodes :
    decode 0 = .error .reservedOpcode ∧ decode 0xFFFFFFFFFFFFFFFF = .error .reservedOpcode ∧
      decode 0x1400000000000000 = .error .reservedOpcode := by decide
/-- V-E24 to V-E28. -/
theorem test_decode_reserved_bits :
    decode 0x1200000000000001 = .error .reservedBits ∧ decode 0x1100000001000000 = .error .reservedBits ∧
      decode 0x1001000100000000 = .error .reservedBits ∧ decode 0x3101000300000000 = .error .reservedBits ∧
      decode 0x4000000100000001 = .error .reservedBits := by decide
/-- V-E29 to V-E32. -/
theorem test_decode_reserved_selectors :
    decode 0x4108000000000000 = .error .reservedSelector ∧ decode 0x4112000000000000 = .error .reservedSelector ∧
      decode 0x4102000100000000 = .error .unusedIndex ∧ decode 0x4110000300000001 = .error .reservedBits := by decide

/-! ## The commands, one step each -/

/-- V-L21. -/
theorem test_ledinit : nextView (fun t => (t.engFree, t.ledPin, t.ledInit, t.rspData)) (exec (.ledinit 1) (fresh [])) =
    some (0, 1, true, 0x1000000000000000) := by decide
/-- V-L37: a second LEDINIT with no engine left; LED_PIN unchanged. -/
theorem test_ledinit_no_engine :
    nextView (fun t => (t.fault, t.ledPin, t.halted, t.rspData)) (exec (.ledinit 1) (litUp [])) =
      some (3, 1, true, 0x1030000000000000) := by decide

/-- V-L23, V-L24. -/
theorem test_setpix : nextView (fun t => (t.pixbuf.read 3, t.pixbuf.read 2)) (exec (.setpix 3 255 150 1) (litUp [])) =
    some (some ⟨34, 20, 0⟩, some ⟨0, 0, 0⟩) := by decide
/-- V-L33. -/
theorem test_setpix_index :
    nextView (fun t => (t.fault, t.faultCmd, t.rspData)) (exec (.setpix 255 1 2 3) (litUp [])) =
      some (6, 0x11FF000000010203, 0x1160000000000000) := by decide

/-- V-L27. -/
theorem test_clear : nextView (fun t => (t.pixbuf.read 3, t.rspData))
    (exec .clear { litUp [] with pixbuf := (litUp []).pixbuf.write 3 ⟨34, 20, 0⟩ }) =
      some (some ⟨0, 0, 0⟩, 0x1200000000000000) := by decide
/-- V-L35. -/
theorem test_clear_not_init : nextView (fun t => (t.fault, t.rspData)) (exec .clear (fresh [])) =
    some (2, 0x1220000000000000) := by decide

/-- V-L31: WRITE completes and leaves PIXBUF as it is. -/
theorem test_write : nextView (fun t => (t.pixbuf.read 24, t.rspData)) (exec .write (litUp [])) =
    some (some ⟨0, 0, 0⟩, 0x1300000000000000) := by decide
/-- V-L28, V-L30, V-X1: what a pixel is on the wire. -/
theorem test_led_words :
    pixelLedWord ⟨34, 20, 0⟩ = 0x142200 ∧ pixelLedWord ⟨34, 0, 0⟩ = 0x002200 ∧ pixelLedWord ⟨0, 34, 0⟩ = 0x220000 ∧
      ledWordBitsInOrder 0x142200 = [false, false, false, true, false, true, false, false, false, false, true, false,
        false, false, true, false, false, false, false, false, false, false, false, false] := by decide

/-- R151. -/
theorem test_pwminit : nextView (fun t => (t.pwmPin, t.pwmDiv, t.pwmEn, t.rspData)) (exec (.pwminit 5) (fresh [])) =
    some (5, 1, true, 0x2000000000000000) := by decide
/-- V-T35: the top is kept, a sounding level is not. -/
theorem test_pwminit_again : nextView (fun t => (t.pwmTop, t.pwmLevel, t.pwmOut))
    (exec (.pwminit 5) { tuned [] [] with pwmTop := 124999, pwmLevel := 93749 }) = some (124999, 0, false) := by decide

/-- V-T24 for the registers. -/
theorem test_tone : nextView (fun t => (t.pwmTop, t.pwmLevel, t.rspData)) (exec (.tone 2 100 500) (tuned [] [])) =
    some (0x001312CF, 0, 0x2100000000000000) := by decide
/-- V-T31: E_PIN before E_FREQ_ZERO. -/
theorem test_tone_check_order : nextView (fun t => (t.fault, t.rspData)) (exec (.tone 3 0 10) (tuned [] [])) =
    some (8, 0x2180000000000000) := by decide

/-- V-B1. -/
theorem test_readsym : nextView (fun t => (t.result, t.resultValid, t.inputs, t.rspData))
    (exec .readsym (tuned [] [noPress, noPress, pressB, pressA])) =
      some (.red, true, [pressA], 0x3000000000000001) := by decide
/-- V-B3: A wins. -/
theorem test_readsym_tie : nextView (fun t => (t.result, t.pwmTop, t.rspData)) (exec .readsym (tuned [] [pressBoth])) =
    some (.blue, 249999, 0x3000000000000000) := by decide

/-- V-B7. -/
theorem test_readseq : nextView (fun t => (t.seqbuf, t.seqlen, t.result, t.rspData))
    (exec (.readseq 3) (tuned [] [pressB, pressA, pressB])) =
      some ([(0, .red), (1, .blue), (2, .red)], 3, .red, 0x3100000000000003) := by decide
/-- V-B12. -/
theorem test_readseq_too_long :
    nextView (fun t => (t.fault, t.seqlen, t.inputs, t.rspData)) (exec (.readseq 101) (tuned [] [pressA])) =
      some (7, 0, [pressA], 0x3170000000000000) := by decide

/-- V-S1. -/
theorem test_delay_zero : nextView (fun t => (t.cp, t.rspData)) (exec (.delay 0) (fresh [])) =
    some (1, 0x4000000000000000) := by decide
/-- V-S2: 125,000,000 cycles. -/
theorem test_sleep_second : (sleep 1000 (fresh [])).now = 125000000 := by decide

/-- V-L20 and V-B5's `GET RESULT`. -/
theorem test_get_registers :
    nextView (fun t => t.rspData) (exec (.get .status 0) (fresh [])) = some 0x4100000000000100 ∧
      nextView (fun t => t.rspData) (exec (.get .result 0) { tuned [] [] with result := .red, resultValid := true }) =
        some 0x4100000000000101 := by decide
/-- V-L25's read and V-B11's fault. -/
theorem test_get_buffers :
    nextView (fun t => t.rspData) (exec (.get .pixbuf 0) { litUp [] with pixbuf := [(0, ⟨0, 1, 34⟩)] }) =
        some 0x4100000000000122 ∧
      nextView (fun t => (t.fault, t.rspData))
        (exec (.get .seqbuf 1) { tuned [] [] with seqbuf := [(0, .blue), (1, .blue)], seqlen := 1 }) =
          some (6, 0x4160000000000000) := by decide

/-! ## Shared operations -/

/-- V-L7, V-L8, V-L14. -/
theorem test_scale :
    scale Config.worked 149 = 19 ∧ scale Config.worked 150 = 20 ∧
      scale { Config.worked with brightness := 149 } 255 = 253 := by decide
/-- V-T4, V-T9, V-T11. -/
theorem test_top_level :
    topOf Config.worked 440 = 284089 ∧ levelOf 284089 = 213066 ∧ topOf Config.worked 41666666 = 2 ∧ levelOf 2 = 1 ∧
      levelOf 4294967294 = 3221225470 := by decide
/-- V-T40 (a period of 4), V-T41 (with the divider 2), V-T42 (a counter above its top). -/
theorem test_pwm_edges :
    pwmEdge 1 0 3 2 = (0, 3) ∧ pwmEdge 1 0 3 3 = (0, 0) ∧ pwmEdge 2 0 3 0 = (1, 0) ∧ pwmEdge 2 1 3 3 = (0, 0) ∧
      pwmEdge 1 0 3 7 = (0, 0) := by decide
/-- V-T41, the seventh and the eighth edge. -/
theorem test_pwm_run : pwmRun 7 2 0 3 0 = (1, 3) ∧ pwmRun 8 2 0 3 0 = (0, 0) := by decide
/-- V-X2, V-X4: one word through an idle engine, then the latch. -/
theorem test_engine_walk :
    txTake ⟨[0x142200], .idle, 0, 280000⟩ = (⟨[], .sending 0x142200 24, 0, 0⟩, [.ledWord 0x142200]) ∧
      txRun 280000 30000 ⟨[], .sending 0x142200 24, 0, 0⟩ = (⟨[], .idle, 0, 0⟩, []) ∧
      txRun 280000 310000 ⟨[], .sending 0x142200 24, 0, 0⟩ = (⟨[], .idle, 0, 280000⟩, [.ledLatch]) := by decide
/-- 125 MHz: one cycle is 8 ns. -/
theorem test_cycle_is_8ns : (advance 1 { fresh [] with tx := ⟨[], .sending 0 24, 0, 0⟩ }).tx.cellNs = 8 := by decide
/-- V-X1: the first two cells of a word on the line. -/
theorem test_cell_wave :
    (wordWave Config.worked 0x800000).take 4 = [(true, 800), (false, 450), (true, 400), (false, 850)] := by decide

/-! ## Steps from reset -/

/-- The first command after reset, as the host places it. -/
theorem test_step_ledinit :
    nextView (fun t => (t.ledInit, t.cp, t.busy, t.pending)) (step (State.reset.withFetchWord 64 0x1001000000000000)) =
      some (true, 1, false, []) := by decide
/-- V-E21: the all-zero word halts. -/
theorem test_step_illegal :
    nextView (fun t => (t.halted, t.fault, t.rspData, t.cp)) (step (State.reset.withFetchWord 64 0)) =
      some (true, 1, 0x0010000000000000, 0) := by decide
/-- V-F1: nothing is accepted after a halt; V-F2: reset ends it. -/
theorem test_step_halted :
    nextView (fun t => (t.pending, t.rspValid, t.fault)) (step { halted with pending := [0x1200000000000000] }) =
        some ([0x1200000000000000], false, 6) ∧
      nextView (fun t => (t.halted, t.fault, t.faultCmd)) (step { halted with rst := true }) = some (false, 0, 0) := by
  decide
/-- R21, R270: the ports of a block in reset. -/
theorem test_ports_in_reset :
    let s := { halted with rst := true, rspValid := true, rspData := 1 }
    (s.cmdReady, s.rspValidOut, s.rspDataOut, s.haltedOut, s.faultOut) = (false, false, 0, false, 0) := by decide
/-- R270: `rst` held for two more edges, then released. -/
theorem test_step_reset_held :
    nextView (fun t => (t.rst, t.rstHold, t.cmdReady)) (step { halted with rst := true, rstHold := 2 }) =
        some (true, 1, false) ∧
      nextView (fun t => (t.rst, t.cmdReady)) (step { halted with rst := true }) = some (false, true) := by decide
/-- V-F4: `rst` in the middle of a TONE, for the registers and the response. -/
theorem test_step_cut_tone :
    interrupt ⟨12500000, 3, [], []⟩ [] (tuned [] []) (.next { tuned [] [] with now := 31250000, rspValid := true, cp := 1 }) =
      .next { State.reset with rst := true, rstHold := 3 } := by rfl
/-- The first cycle after a TONE has ended is too late to cut it. -/
theorem test_step_uncut :
    interrupt ⟨31250000, 3, [], []⟩ [] (tuned [] []) (.next { tuned [] [] with now := 31250000, cp := 1 }) =
      .next { tuned [] [] with now := 31250000, cp := 1 } := by rfl
/-- R13, R133: below 1 MHz the cycles of a push have no bound. -/
theorem test_push_cycles_unbounded (n : Nat) :
    pushCycles { fresh [] with cfg := { Config.worked with sysclkHz := 999999 }, freeIdx := n } =
      Config.freeCycles n := by rfl
/-- V-B4: released samples for ever. -/
theorem test_step_waiting :
    nextView (fun t => (t.busy, t.fault, t.btnState, t.trace)) (step (waiting [])) =
      some (true, 0, .poll, [.polled true true]) := by decide
/-- V-L16. -/
theorem test_step_bad_brightness :
    step { State.reset with cfg := { Config.worked with brightness := 151 } } = .refused .badConfiguration := by rfl

/-! ## The written form and the round host -/

theorem test_assembler : assemblerText (.tone 2 1000 200) = "TONE 2, 1000, 200" ∧ assemblerText .write = "WRITE" := by
  decide
/-- S8, S9 (R216). -/
theorem test_rounds :
    gameMatch { gameStart 1 2 with sequence := [.blue], player := [.blue] } = true ∧
      gameMatch { gameStart 1 2 with sequence := [.red, .blue, .red], player := [.red, .blue, .blue] } = false ∧
      nextLevel true 1 = 2 ∧ nextLevel false 3 = 1 ∧ nextLevel true 100 = 100 := by decide
/-- P4's cp 34 and P5's cp 96: the Symbols of two GETs of SEQBUF; a fault's response stops the host (R202). -/
theorem test_responses :
    (gameReceive (.get .seqbuf 0) 0x4100000000000000 (gameStart 1 2)).player = [.blue] ∧
      (gameReceive (.get .seqbuf 0) 0x4100000000000001 (gameStart 1 2)).player = [.red] ∧
      (gameReceive (.ledinit 1) 0x1030000000000000 (gameStart 1 2)).phase = .stopped := by decide
/-- R204: the second Sequence, and the first after a reset, are draws of their own. -/
theorem test_draws :
    let g : Game := { gameStart 1 2 with phase := .generating, draws := 5 }
    let draw : Nat → Nat → Symbol := fun n _ => if n = 5 then .red else .blue
    (gameNext draw g).sequence = [.red] ∧ (gameRestart (gameNext draw g)).draws = 6 := by decide
/-- R217 at the configuration of 95_test_vectors.md, and with a queue of 24 words (93_implementation_defined.md G4). -/
theorem test_round_gap :
    roundGapFits Config.worked = true ∧ roundGapFits { Config.worked with ledFifoDepth := 23 } = true ∧
      roundGapFits { Config.worked with ledFifoDepth := 24 } = false := by decide

/-! ## Witnesses: for every statement with hypotheses, a state and operands that meet them -/

theorem engine_good : TxEngine.Good Config.worked ⟨[], .idle, 0, 280000⟩ := ⟨by decide, rfl, rfl, by decide⟩

theorem fresh_inv_nil : (fresh []).Inv := by
  refine ⟨by decide, by decide, fun _ => rfl, fun h => Bool.noConfusion h, by decide, by decide, fun i h => ?_, by decide,
    by decide, rfl, rfl, by decide, by decide, by decide, by decide, fun _ => ⟨rfl, rfl, rfl, rfl⟩, engine_good, rfl,
    by decide, by decide, by decide, fun _ => rfl, fun h => Bool.noConfusion h, fun _ => ⟨rfl, rfl, rfl⟩,
    fun h => Bool.noConfusion h, fun h => Bool.noConfusion h⟩
  exact absurd h (Nat.not_lt_zero i)

theorem litUp_inv_nil : (litUp []).Inv := by
  refine ⟨by decide, by decide, fun h => Bool.noConfusion h, fun _ => by decide, by decide, by decide, fun i h => ?_,
    by decide, by decide, rfl, rfl, by decide, by decide, by decide, by decide, fun _ => ⟨rfl, rfl, rfl, rfl⟩,
    engine_good, rfl, by decide, by decide, by decide, fun _ => rfl, fun h => Bool.noConfusion h,
    fun _ => ⟨rfl, rfl, rfl⟩, fun h => Bool.noConfusion h, fun h => Bool.noConfusion h⟩
  exact absurd h (Nat.not_lt_zero i)

theorem tuned_inv_nil : (tuned [] []).Inv := by
  refine ⟨by decide, by decide, fun _ => rfl, fun h => Bool.noConfusion h, by decide, by decide, fun i h => ?_, by decide,
    by decide, rfl, rfl, by decide, by decide, by decide, by decide, fun h => Bool.noConfusion h, engine_good, rfl,
    by decide, by decide, by decide, fun _ => rfl, fun h => Bool.noConfusion h, fun _ => ⟨rfl, rfl, rfl⟩,
    fun h => Bool.noConfusion h, fun h => Bool.noConfusion h⟩
  exact absurd h (Nat.not_lt_zero i)

/-- V-F4's block: about to run `TONE 2, 1000, 200` with `rst` asserted 100 ms after the acceptance, for three edges. -/
def cutTone : State :=
  { tuned [0x210200C8000003E8] [] with resets := [⟨12500000, 3, [0x1200000000000000], [pressA]⟩] }

/-- What the environment has in store is no part of the invariant. -/
theorem inv_with_inputs {s : State} (h : s.Inv) (cs : List Word64) (ps : List Sample) :
    State.Inv { s with pending := cs, inputs := ps } :=
  ⟨h.1, h.2, h.3, h.4, h.5, h.6, h.7, h.8, h.9, h.10, h.11, h.12, h.13, h.14, h.15, h.16, h.17, h.18, h.19, h.20, h.21,
    h.22, h.23, fun hb => ⟨(h.rest hb).1, (h.rest hb).2, (h.rest hb).3⟩,
    fun hb => ⟨(h.wait hb).1, (h.wait hb).2, (h.wait hb).3, (h.wait hb).4, (h.wait hb).5⟩,
    fun hr => congrArg (fun s : State => { s with pending := cs, inputs := ps }) (h.resetHeld hr)⟩

theorem fresh_inv (cs : List Word64) : (fresh cs).Inv := inv_with_inputs fresh_inv_nil cs []
theorem litUp_inv (cs : List Word64) : (litUp cs).Inv := inv_with_inputs litUp_inv_nil cs []
theorem tuned_inv (cs : List Word64) (ps : List Sample) : (tuned cs ps).Inv := inv_with_inputs tuned_inv_nil cs ps

theorem waiting_waits (ps : List Sample) : (waiting ps).Waiting := ⟨rfl, rfl, rfl, rfl, .inl ⟨rfl, rfl⟩⟩

theorem witness_DecodeInvertsEncode :
    (Instr.get .seqbuf 65535).wellFormed = true ∧ (Instr.setpix 255 255 0 255).wellFormed = true := by decide
theorem witness_EncodeInvertsDecode : decode 0x2102FFFFFFFFFFFF = .ok (.tone 2 4294967295 65535) := by decide
theorem witness_StepRunsTheDecodedCommand :
    (fresh [0x1001000000000000]).cfg.wf = true ∧ (fresh [0x1001000000000000]).cmdReady = true ∧
      (fresh [0x1001000000000000]).pending = 0x1001000000000000 :: [] ∧
      decode 0x1001000000000000 = .ok (.ledinit 1) ∧ ∀ n, (fresh [0x1001000000000000]).Undisturbed n :=
  ⟨by decide, by decide, rfl, by decide, fun _ _ _ h => by cases h⟩
theorem witness_IllegalWordHalts :
    (fresh [0]).cfg.wf = true ∧ (fresh [0]).cmdReady = true ∧ (fresh [0]).pending = 0 :: [] ∧
      decode 0 = .error .reservedOpcode ∧ ∀ n, (fresh [0]).Undisturbed n :=
  ⟨by decide, by decide, rfl, by decide, fun _ _ _ h => by cases h⟩
theorem witness_OneResponsePerCommand :
    ∃ t, (fresh [0]).Inv ∧ (fresh [0]).rst = false ∧ step (fresh [0]) = .next t ∧ t.rst = false :=
  ⟨_, fresh_inv _, rfl, rfl, rfl⟩
theorem witness_NotReadyAcceptsNothing :
    (∃ t, halted.rst = false ∧ halted.cmdReady = false ∧ step halted = .next t ∧ t.rst = false) ∧
      ∃ t, (waiting []).rst = false ∧ (waiting []).cmdReady = false ∧ step (waiting []) = .next t ∧ t.rst = false :=
  ⟨⟨_, rfl, rfl, rfl, rfl⟩, _, rfl, rfl, rfl, rfl⟩
theorem witness_LedinitClaimsEngineAndZeroesBuffer : (fresh []).engFree ≠ 0 := by decide
theorem witness_SetpixStoresScaledPixel : (litUp []).ledInit = true ∧ (24 : BitVec 8).toNat < 25 := by decide
theorem witness_ClearZeroesEveryPixel : (litUp []).ledInit = true := by decide
theorem witness_SetpixAndClearAreIdempotent :
    ∃ t u, exec .clear (litUp []) = .next t ∧ exec .clear t = .next u := ⟨_, _, rfl, rfl⟩
theorem witness_WritePushesTheFrame :
    (litUp []).ledInit = true ∧ ∀ i < 25, ((litUp []).pixbuf.read i).isSome = true := by decide
theorem witness_LedCommandsHaltOnFailedCheck :
    (litUp []).engFree = 0 ∧ (fresh []).ledInit = false ∧ (litUp []).ledInit = true ∧
      25 ≤ (25 : BitVec 8).toNat := by decide
theorem witness_ScaleFollowsRule :
    Config.worked.wf = true ∧ Config.worked.brightness = 20 ∧ (254 : BitVec 8) ≤ 255 ∧
      ({ Config.worked with brightness := 0 } : Config).wf = true ∧
      ({ Config.worked with brightness := 150 } : Config).wf = true := by decide
theorem witness_StepKeepsPixbufScaled :
    ∃ t, State.PixbufScaled { litUp [] with pixbuf := [(3, scaledPixel Config.worked 255 150 1)] } ∧
      step { litUp [] with pixbuf := [(3, scaledPixel Config.worked 255 150 1)] } = .next t := by
  refine ⟨_, fun i px h => ⟨255, 150, 1, ?_⟩, rfl⟩
  rw [Memory.read_cons, Memory.read_nil] at h
  split at h
  · exact (Option.some.inj h).symm
  · cases h
theorem witness_EngineFollowsItsSteps :
    ((fresh []).tx.shift = .idle ∧ (fresh []).tx.q = []) ∧
      (∃ s : State, s.tx.shift = .sending 7 24) ∧ 1 < 24 ∧ 0 < 280000 ∧ 279999 + 0 < 280000 ∧ 279999 < 280000 ∧ 280000 ≤ 279999 + 1 :=
  ⟨⟨rfl, rfl⟩, ⟨{ fresh [] with tx := ⟨[], .sending 7 24, 0, 0⟩ }, rfl⟩, by decide, by decide, by decide, by decide,
    by decide⟩
theorem witness_EngineRunIsIteratedNanoseconds :
    TxEngine.Good Config.worked ⟨[1, 2, 3, 4], .sending 0 1, 1249, 0⟩ :=
  ⟨by decide, by decide, by decide, by decide, rfl⟩
theorem witness_WordGoesOutMsbFirst :
    ∃ s : State, s.rst = false ∧ s.tx = ⟨[7], .sending 0x142200 24, 0, 0⟩ ∧ 23 < 24 ∧ 1249 < 1250 :=
  ⟨{ fresh [] with tx := ⟨[7], .sending 0x142200 24, 0, 0⟩ }, rfl, rfl, by decide, by decide⟩
theorem witness_StepKeepsWordOrder :
    ∃ t, (litUp [0x1300000000000000]).rst = false ∧ step (litUp [0x1300000000000000]) = .next t ∧ t.rst = false :=
  ⟨_, rfl, rfl, rfl⟩
theorem witness_FrameGapLatchesTheFrame :
    (fresh []).cfg.wf = true ∧ (fresh []).tx.Good (fresh []).cfg ∧
      (((fresh []).cfg.ledFifoDepth + 1) * 30000 + (fresh []).cfg.tLatchNs) * (fresh []).cfg.sysclkHz ≤
        53750 * 1000000000 := ⟨by decide, engine_good, by decide⟩
theorem witness_WriteDisplaysTheFrame :
    (litUp []).Inv ∧ (litUp []).ledInit = true ∧ 1000000 ≤ (litUp []).cfg.sysclkHz ∧
      (litUp []).tx = ⟨[], .idle, 0, (litUp []).cfg.tLatchNs⟩ ∧ (List.replicate 25 (0 : LedWord)).length = 25 ∧
      (((litUp []).cfg.ledFifoDepth + 1) * 30000 + (litUp []).cfg.tLatchNs) * (litUp []).cfg.sysclkHz ≤
        53750 * 1000000000 := ⟨litUp_inv _, rfl, by decide, rfl, by decide, by decide⟩
theorem witness_TopAndLevelFollowRule :
    Config.worked.wf = true ∧ 1 ≤ 1 ∧ 1 ≤ 125000000 ∧ 125000000 ≤ Config.worked.sysclkHz ∧
      Config.worked.sysclkHz = 125000000 := by decide
theorem witness_ToneSoundsThenSilences :
    (tuned [] []).cfg.wf = true ∧ (tuned [] []).pwmInit = true ∧ 2 = (tuned [] []).pwmPin ∧
      (125000000 : BitVec 32) ≠ 0 ∧ (125000000 : BitVec 32).toNat ≤ (tuned [] []).cfg.sysclkHz := by decide
theorem witness_ToneHaltsOnFailedCheck :
    (fresh []).pwmInit = false ∧ (tuned [] []).pwmInit = true ∧ 3 ≠ (tuned [] []).pwmPin ∧ 2 = (tuned [] []).pwmPin ∧
      (125000001 : BitVec 32) ≠ 0 ∧ (tuned [] []).cfg.sysclkHz < (125000001 : BitVec 32).toNat := by decide
theorem witness_CounterFollowsEdgeRule :
    (tuned [] []).pwmEn = true ∧ (tuned [] []).pwmDiv.toNat ≤ (tuned [] []).pwmPre.toNat + 1 ∧
      (tuned [] []).pwmTop.toNat ≤ (tuned [] []).pwmCtr.toNat ∧
      (fresh []).pwmEn = false ∧
      ∃ s : State, s.pwmEn = true ∧ s.pwmPre.toNat + 1 < s.pwmDiv.toNat ∧ s.pwmCtr.toNat < s.pwmTop.toNat :=
  ⟨rfl, by decide, by decide, rfl, { tuned [] [] with pwmDiv := 2, pwmTop := 3, pwmCtr := 2 }, rfl, by decide, by decide⟩
theorem witness_OutputIsComparison : (tuned [] []).rst = false ∧ (tuned [] []).pwmLevel = 0 := by decide
theorem witness_ToneWaveform :
    (tuned [] []).cfg.wf = true ∧ (tuned [] []).rst = false ∧ (tuned [] []).pwmEn = true ∧
      1 ≤ (tuned [] []).pwmDiv.toNat ∧ 1 ≤ 31250000 ∧ 31250000 ≤ (tuned [] []).cfg.sysclkHz := by decide
theorem witness_StepKeepsSilence :
    ∃ t, (tuned [0x210200C8000003E8] []).pwmLevel = 0 ∧ step (tuned [0x210200C8000003E8] []) = .next t := ⟨_, rfl, rfl⟩
theorem witness_AdvanceIsIteratedClockEdges :
    (fresh []).tx.Good (fresh []).cfg ∧ (fresh []).nsFrac < (fresh []).cfg.sysclkHz := ⟨engine_good, by decide⟩
theorem witness_CommandsTakeTheirSleeps :
    ∃ t, (tuned [] []).cfg.wf = true ∧ exec (.tone 2 1000 200) (tuned [] []) = .next t ∧ t.halted = false ∧
      t.busy = false := ⟨_, by decide, rfl, rfl, rfl⟩
theorem witness_ReadsymReturnsFirstPress :
    (tuned [] [noPress, pressBoth]).cfg.wf = true ∧ (tuned [] [noPress, pressBoth]).pwmInit = true ∧
      (tuned [] [noPress, pressBoth]).inputs = [noPress] ++ pressBoth :: [] ∧
      (∀ q ∈ [noPress], q.aN = true ∧ q.bN = true) ∧
      (pressBoth.aN = false ∧ Symbol.blue = (tuned [] [noPress, pressBoth]).cfg.symA) ∧
      (pressB.aN = true ∧ pressB.bN = false ∧ Symbol.red = (tuned [] [pressB]).cfg.symB) := by decide
theorem witness_ReadseqStoresThePresses :
    (tuned [] [pressB, noPress, pressA]).cfg.wf = true ∧ (tuned [] [pressB, noPress, pressA]).pwmInit = true ∧
      (2 : BitVec 16).toNat ≤ 100 ∧ (100 : BitVec 16).toNat ≤ 100 ∧
      ([pressB, noPress, pressA].filterMap (fun p =>
        if p.aN = false then some Config.worked.symA else if p.bN = false then some Config.worked.symB else none) =
          [.red, .blue]) ∧
      (2 : BitVec 16).toNat ≤ [Symbol.red, .blue].length := by decide
theorem witness_ReadWaitsWithoutPress :
    (tuned [] [pressB]).pwmInit = true ∧
      ((Instr.readseq 100 = .readsym ∧ 100 = 1) ∨
        ∃ length : BitVec 16, Instr.readseq 100 = .readseq length ∧ 100 = length.toNat ∧ 100 ≤ 100) ∧
      ([pressB].filterMap (fun p =>
        if p.aN = false then some Config.worked.symA else if p.bN = false then some Config.worked.symB else none) =
          [.red]) ∧
      [Symbol.red].length < 100 ∧ (tuned [] [pressB]).tx.Good (tuned [] [pressB]).cfg ∧
      (tuned [] [pressB]).nsFrac < (tuned [] [pressB]).cfg.sysclkHz :=
  ⟨rfl, .inr ⟨100, rfl, rfl, Nat.le_refl _⟩, by decide, by decide, engine_good, by decide⟩
theorem witness_WaitingReadHangs :
    (waiting []).cfg.wf = true ∧ (waiting []).rst = false ∧ (waiting []).halted = false ∧ (waiting []).Waiting ∧
      (waiting []).inputs = [] ∧ (waiting []).resets = [] ∧ (waiting []).tx.Good (waiting []).cfg ∧
      (waiting []).nsFrac < (waiting []).cfg.sysclkHz :=
  ⟨by decide, rfl, rfl, waiting_waits _, rfl, rfl, engine_good, by decide⟩
theorem witness_WaitingReadGoesOn :
    ∃ w, (waiting []).cfg.wf = true ∧ (waiting []).rst = false ∧ (waiting []).resets = [] ∧
      (waiting []).halted = false ∧
      (waiting []).busy = true ∧ (waiting []).pwmInit = true ∧
      (Instr.readseq 2 = .readsym ∨ ∃ length : BitVec 16, Instr.readseq 2 = .readseq length ∧ length.toNat ≤ 100) ∧
      [pressA] ≠ [] ∧ exec (.readseq 2) { waiting [] with inputs := [noPress] } = .next w ∧ w.busy = true :=
  ⟨_, by decide, rfl, rfl, rfl, rfl, rfl, .inr ⟨2, rfl, by decide⟩, by decide, rfl, rfl⟩
theorem witness_ReadseqIsRepeatedReadsym :
    ∃ t, (tuned [] [pressA]).Inv ∧ (tuned [] [pressA]).cmdReady = true ∧ (tuned [] [pressA]).resets = [] ∧
      (tuned [] [pressA]).pwmInit = true ∧ (1 : BitVec 16).toNat ≤ 100 ∧ exec (.readseq 1) (tuned [] [pressA]) = .next t ∧ t.busy = false :=
  ⟨_, tuned_inv _ _, by decide, rfl, rfl, by decide, rfl, rfl⟩
theorem witness_ReadsHaltOnFailedCheck :
    (fresh []).pwmInit = false ∧ (tuned [] []).pwmInit = true ∧ 100 < (101 : BitVec 16).toNat := by decide
theorem witness_DelayOnlyLetsTimePass : (fresh []).cfg.wf = true := by decide
theorem witness_GetReturnsTheRegister :
    let s := tuned [] []
    (Selector.pwmCsr, 0x00020101) ∈
      [(Selector.status, s.ledInit.toNat + 2 * s.pwmInit.toNat + 4 * s.resultValid.toNat + 256 * s.engFree.toNat),
        (.pwmCsr, s.pwmEn.toNat + 256 * s.pwmDiv.toNat + 65536 * s.pwmPin.toNat),
        (.pwmTop, s.pwmTop.toNat), (.pwmLevel, s.pwmLevel.toNat), (.pwmCtr, s.pwmCtr.toNat),
        (.ledCsr, s.ledInit.toNat + 256 * s.ledPin.toNat),
        (.result, (if s.resultValid = true ∧ s.result = .red then 1 else 0) + 256 * s.resultValid.toNat),
        (.seqlen, s.seqlen.toNat)] := by
  refine List.mem_cons_of_mem _ ?_
  exact List.mem_cons_self
theorem witness_GetReturnsThePixel :
    (litUp []).ledInit = true ∧ (24 : BitVec 16).toNat < 25 ∧
      (litUp []).pixbuf.read (24 : BitVec 16).toNat = some ⟨0, 0, 0⟩ := by decide
theorem witness_GetReturnsTheSymbol :
    ∃ s : State, (0 : BitVec 16).toNat < s.seqlen.toNat ∧ s.seqbuf.read (0 : BitVec 16).toNat = some .red :=
  ⟨{ tuned [] [] with seqbuf := [(0, .red)], seqlen := 1 }, by decide, rfl⟩
theorem witness_GetHaltsOnFailedCheck :
    (fresh []).ledInit = false ∧ (litUp []).ledInit = true ∧ 25 ≤ (25 : BitVec 16).toNat ∧
      (fresh []).seqlen.toNat ≤ (0 : BitVec 16).toNat ∧ Selector.seqlen.code.toNat ≤ 7 ∧ (1 : BitVec 16) ≠ 0 := by decide
theorem witness_GetOfToneCounterIsBounded :
    (tuned [0x4104000000000000] []).Inv ∧ (tuned [0x4104000000000000] []).cmdReady = true ∧
      (tuned [0x4104000000000000] []).resets = [] ∧ (tuned [0x4104000000000000] []).pending = 0x4104000000000000 :: [] ∧
      (fresh [0x4104000000000000]).Inv ∧ (fresh [0x4104000000000000]).pwmEn = false ∧
      (tuned [0x4103000000000000] []).Inv ∧ (tuned [0x4103000000000000] []).pending = 0x4103000000000000 :: [] :=
  ⟨tuned_inv _ _, rfl, rfl, rfl, fresh_inv _, rfl, tuned_inv _ _, rfl⟩
theorem witness_HaltIsForever :
    halted.cfg.wf = true ∧ halted.rst = false ∧ halted.halted = true ∧ halted.tx.Good halted.cfg ∧
      halted.nsFrac < halted.cfg.sysclkHz ∧ halted.resets = [] := ⟨by decide, rfl, rfl, engine_good, by decide, rfl⟩
theorem inReset_inv : (assertReset ⟨0, 3, [], []⟩ [] State.reset).Inv := by
  refine ⟨by decide, by decide, fun _ => rfl, fun h => Bool.noConfusion h, by decide, by decide, fun i h => ?_, by decide,
    by decide, rfl, rfl, by decide, by decide, by decide, by decide, fun _ => ⟨rfl, rfl, rfl, rfl⟩, engine_good, rfl,
    by decide, by decide, by decide, fun _ => rfl, fun h => Bool.noConfusion h, fun _ => ⟨rfl, rfl, rfl⟩,
    fun h => Bool.noConfusion h, fun _ => rfl⟩
  exact absurd h (Nat.not_lt_zero i)
theorem witness_ResetGivesResetValues :
    (∃ s : State, s.cfg.wf = true ∧ s.rst = true ∧ s.halted = true ∧ s.rstHold = 0) ∧
      ∃ s : State, s.Inv ∧ s.cfg.wf = true ∧ s.rst = true ∧ s.rstHold = 2 + 1 :=
  ⟨⟨{ halted with rst := true }, by decide, rfl, rfl, rfl⟩, _, inReset_inv, by decide, rfl, rfl⟩
theorem witness_ResetEndsWhatRuns :
    (∃ (p : ResetPulse) (u : State), cutTone.cfg.wf = true ∧ cutTone.rst = false ∧ cutTone.resets = p :: [] ∧
      runStep cutTone = .next u ∧ cutTone.cmdReady = true ∧ cutTone.pending = 0x210200C8000003E8 :: [] ∧
      decode 0x210200C8000003E8 = .ok (.tone 2 1000 200) ∧ exec (.tone 2 1000 200) (accept [] cutTone) = .next u ∧
      u.halted = false ∧ u.busy = false ∧
      p.cycle < cutTone.now + sleepMs (.tone 2 1000 200) * (cutTone.cfg.sysclkHz / 1000)) ∧
    ∃ (s : State) (p : ResetPulse), s.cfg.wf = true ∧ s.rst = false ∧ s.resets = p :: [] ∧ s.now < p.cycle ∧
      ∀ u, runStep s = .next u → u.now ≤ p.cycle := by
  refine ⟨⟨_, _, by decide, rfl, rfl, rfl, by decide, rfl, by decide, rfl, rfl, rfl, by decide⟩,
    { fresh [] with resets := [⟨1, 0, [], []⟩] }, _, by decide, rfl, rfl, by decide, fun u h => ?_⟩
  injection h with h
  subst h
  decide
theorem witness_ResetMeetsInvariant : Config.worked.wf = true := by decide
theorem witness_StepKeepsInvariant :
    ∃ t, (tuned [0x3000000000000000] [noPress]).Inv ∧ step (tuned [0x3000000000000000] [noPress]) = .next t :=
  ⟨_, tuned_inv _ _, rfl⟩
theorem witness_StepAlwaysGoesOn : (litUp [0x1300000000000000]).Inv := litUp_inv _
theorem witness_ConfigurationIsFixedAndChecked :
    (∃ t, step (fresh []) = .next t) ∧ (∃ s : State, 150 < s.cfg.brightness) ∧ (∃ s : State, s.cfg.sysclkHz < 1000) ∧
      (∃ s : State, 2 ^ 32 ≤ s.cfg.sysclkHz) ∧ (∃ s : State, s.cfg.pwmClkdiv = 0) ∧
      (∃ s : State, 255 < s.cfg.pwmClkdiv) ∧ (∃ s : State, 255 < s.cfg.engines) ∧
      (∃ s : State, s.cfg.ledFifoDepth = 0) ∧ (∃ s : State, s.cfg.t0hNs = 0) ∧
      (∃ s : State, s.cfg.t1hNs ≤ s.cfg.t0hNs) ∧ (∃ s : State, 1250 ≤ s.cfg.t1hNs) ∧
      (∃ s : State, s.cfg.tLatchNs ≤ 1250) ∧ ∃ s : State, s.cfg.pollCycles = 0 :=
  ⟨⟨_, rfl⟩, ⟨{ fresh [] with cfg := { Config.worked with brightness := 151 } }, by decide⟩,
    ⟨{ fresh [] with cfg := { Config.worked with sysclkHz := 999 } }, by decide⟩,
    ⟨{ fresh [] with cfg := { Config.worked with sysclkHz := 2 ^ 32 } }, by decide⟩,
    ⟨{ fresh [] with cfg := { Config.worked with pwmClkdiv := 0 } }, rfl⟩,
    ⟨{ fresh [] with cfg := { Config.worked with pwmClkdiv := 256 } }, by decide⟩,
    ⟨{ fresh [] with cfg := { Config.worked with engines := 256 } }, by decide⟩,
    ⟨{ fresh [] with cfg := { Config.worked with ledFifoDepth := 0 } }, rfl⟩,
    ⟨{ fresh [] with cfg := { Config.worked with t0hNs := 0 } }, rfl⟩,
    ⟨{ fresh [] with cfg := { Config.worked with t1hNs := 400 } }, by decide⟩,
    ⟨{ fresh [] with cfg := { Config.worked with t1hNs := 1250 } }, by decide⟩,
    ⟨{ fresh [] with cfg := { Config.worked with tLatchNs := 1250 } }, by decide⟩,
    { fresh [] with cfg := { Config.worked with pollCycles := 0 } }, rfl⟩
theorem witness_JudgingComparesEveryPosition :
    ∃ g : Game, g.phase = .judging ∧ g.sequence.length = g.level ∧ g.player.length = g.level :=
  ⟨{ gameStart 1 2 with phase := .judging, sequence := [.blue], player := [.red] }, rfl, rfl, rfl⟩
theorem witness_LevelStaysInRange :
    (∃ g : Game, 1 ≤ g.level ∧ g.level ≤ 100 ∧ g.phase = .advancing ∧ g.level = 100) ∧
      (∃ g : Game, g.phase = .advancing ∧ g.level < 100) ∧ (∃ g : Game, g.phase = .generating ∧ g.level = 1 ∧ 0 < g.level) ∧
      (∃ g : Game, g.phase = .resetting ∧ g.phase ≠ .generating ∧ g.level = 1) ∧
      ∃ (s : State) (b : Bench), s.rst = true ∧ benchStep (fun _ _ => .red) ⟨gameStart 1 2, s⟩ = .next b :=
  ⟨⟨{ gameStart 1 2 with phase := .advancing, level := 100 }, by decide, by decide, rfl, rfl⟩,
    ⟨{ gameStart 1 2 with phase := .advancing, level := 99 }, rfl, by decide⟩, ⟨{ gameStart 1 2 with phase := .generating }, rfl, rfl, by decide⟩,
    ⟨{ gameStart 1 2 with phase := .resetting }, rfl, by decide, rfl⟩, _, _, inReset_rst State.reset,
    benchStep_reset (by decide) rfl (step_reset (by decide) rfl)⟩
theorem witness_RoundCommandsAndTimes :
    (∃ g : Game, 1 ≤ g.level ∧ g.level ≤ 100 ∧ g.phase = .displaying ∧ g.sequence.length = g.level) ∧
      (∃ g : Game, g.level = 100 ∧ g.phase = .collecting) ∧ (∃ g : Game, g.level = 1 ∧ g.phase = .advancing) ∧
      ∃ g : Game, g.level = 1 ∧ g.phase = .resetting :=
  ⟨⟨{ gameStart 1 2 with phase := .displaying, sequence := [.blue] }, by decide, by decide, rfl, rfl⟩,
    ⟨{ gameStart 1 2 with phase := .collecting, level := 100 }, rfl, rfl⟩,
    ⟨{ gameStart 1 2 with phase := .advancing }, rfl, rfl⟩, { gameStart 1 2 with phase := .resetting }, rfl, rfl⟩

/-- In COLLECTING of round 1, with one press to come. -/
def collecting : Bench where
  game := enterPhase .collecting { gameStart 1 2 with sequence := [.blue] }
  block := tuned [] [pressB]

theorem collecting_inv : collecting.Inv :=
  ⟨tuned_inv _ _, by decide, by decide, fun _ => ⟨rfl, rfl⟩, fun _ => rfl, fun _ => rfl, by decide⟩

/-- A host that LEDINIT's fault has stopped. -/
def stopped : Bench where
  game := { enterPhase .stopped (gameStart 1 2) with awaiting := none }
  block := fresh []

theorem stopped_inv : stopped.Inv :=
  ⟨fresh_inv _, by decide, by decide, fun _ => ⟨rfl, rfl⟩, by decide, by decide, fun _ => ⟨rfl, rfl⟩⟩

theorem witness_HostIssuesOneCommandAtATime :
    Config.worked.wf = true ∧ ∃ b', collecting.Inv ∧ benchStep (fun _ _ => .blue) collecting = .next b' :=
  ⟨by decide, _, collecting_inv, benchStep_host (by decide) rfl (hostMove_issue rfl rfl)⟩
theorem witness_HostStartsOrStops :
    Config.worked.wf = true ∧ (Config.worked.ledFifoDepth + 1) * 30000 + Config.worked.tLatchNs ≤ 1000000 ∧
      0 < Config.worked.engines ∧ ({ Config.worked with engines := 0 } : Config).wf = true ∧
      ∃ b', stopped.Inv ∧ stopped.block.rst = false ∧ stopped.game.phase = .stopped ∧
        benchStep (fun _ _ => .blue) stopped = .next b' ∧ b'.block.rst = false :=
  ⟨by decide, by decide, by decide, by decide, _, stopped_inv, rfl, rfl,
    benchStep_block (by decide) rfl (hostMove_stopped rfl rfl rfl) rfl, rfl⟩
theorem witness_CollectingCopiesThePresses :
    collecting.Inv ∧ collecting.block.rst = false ∧ collecting.block.resets = [] ∧ collecting.block.halted = false ∧
      collecting.block.pwmInit = true ∧
      (collecting.block.cfg.ledFifoDepth + 1) * 30000 + collecting.block.cfg.tLatchNs ≤ 1000000 ∧
      collecting.game.phase = .collecting ∧ collecting.game.awaiting = none ∧
      collecting.game.todo = gameCommands collecting.game ∧ collecting.game.player = [] ∧
      (collecting.block.inputs.filterMap fun p =>
        if p.aN = false then some collecting.block.cfg.symA
        else if p.bN = false then some collecting.block.cfg.symB else none) = [.red] ∧
      collecting.game.level ≤ [Symbol.red].length :=
  ⟨collecting_inv, rfl, rfl, rfl, rfl, by decide, rfl, rfl, rfl, rfl, by decide, by decide⟩
theorem witness_RoundGapLatchesTheFrame :
    (fresh []).cfg.wf = true ∧ (fresh []).tx.Good (fresh []).cfg ∧
      ((fresh []).cfg.ledFifoDepth + 1) * 30000 + (fresh []).cfg.tLatchNs ≤ 1000000 ∧
      (fresh []).cfg.sysclkHz % 1000 = 0 ∧ ∃ g : Game, g.phase = .generating ∧ g.rounds ≠ 0 :=
  ⟨by decide, engine_good, by decide, by decide, { gameStart 1 2 with phase := .generating, rounds := 1 }, rfl, by decide⟩

end Sys2Proof.Tests
end

/-! # PROOFS. Scope: time in closed form, and the fixed configuration (spec/00_scope.md) -/

namespace Sys2Proof.Machine

/-! ## One edge and one nanosecond of the closed forms -/

/-- One edge of the closed form of the PWM counter is the edge rule (41_tone.md R156), from every state. -/
theorem pwmRun_one (div pre : BitVec 8) (top ctr : BitVec 32) :
    pwmRun 1 div pre top ctr = pwmEdge div pre top ctr := by
  unfold pwmEdge
  by_cases htick : div.toNat ≤ pre.toNat + 1
  · have hedges : min pre.toNat (max 1 div.toNat - 1) + 1 = max 1 div.toNat := by omega
    have hone : max 1 div.toNat / max 1 div.toNat = 1 := Nat.div_self (by omega)
    simp only [pwmRun, hedges, hone, Nat.mod_self, if_pos htick, one_ne_zero, if_false]
    refine Prod.ext rfl (BitVec.eq_of_toNat_eq ?_)
    have ht := top.isLt
    by_cases hwrap : top ≤ ctr
    · simp [if_pos hwrap, Nat.min_eq_right (BitVec.le_def.mp hwrap)]
    · have hlt : ctr.toNat < top.toNat := BitVec.not_le.mp hwrap
      simp [if_neg hwrap, Nat.min_eq_left hlt.le, Nat.mod_eq_of_lt (Nat.succ_lt_succ hlt), BitVec.toNat_add]
  · have hnone : (min pre.toNat (max 1 div.toNat - 1) + 1) / max 1 div.toNat = 0 :=
      Nat.div_eq_of_lt (by omega)
    simp only [pwmRun, hnone, if_neg htick, if_true]
    exact Prod.ext (by simp [BitVec.ofNat_add]) rfl

/-- One nanosecond of the closed form of a sending engine: the cell goes on, the next bit, or the end of the word. -/
theorem txSendRun_one {cfg : Config} {w : LedWord} {n cell : Nat} {q : List LedWord}
    (h : TxEngine.Good cfg ⟨q, .sending w n, cell, 0⟩) :
    txSendRun cfg.tLatchNs w n cell 1 q = txNs cfg.tLatchNs ⟨q, .sending w n, cell, 0⟩ := by
  obtain ⟨hq, hn1, hn24, hcell, -⟩ := h
  have hbit : tBitNs = 1250 := rfl
  simp only at hq hn1 hn24 hcell
  by_cases hin : cell + 1 < tBitNs
  · have hleft : 1 < wordLeft n cell := by unfold wordLeft; rw [hbit] at *; omega
    cases q <;> simp [txSendRun, txNs, hleft, hin, Nat.div_eq_of_lt hin, Nat.mod_eq_of_lt hin]
  · have hend : cell + 1 = tBitNs := by omega
    by_cases hmore : 1 < n
    · have hleft : 1 < wordLeft n cell := by unfold wordLeft; rw [hbit] at *; omega
      have hdiv : tBitNs / tBitNs = 1 := rfl
      cases q <;> simp [txSendRun, txNs, hleft, hmore, hend, hdiv]
    · have hlast : wordLeft n cell = 1 := by unfold wordLeft; rw [hbit] at *; omega
      cases q with
      | nil => simp [txSendRun, txNs, txTake, txIdleRun, hlast, hin, hmore]
      | cons w' q =>
        have hnext : TxEngine.Good cfg ⟨q, .sending w' ledWordBits, 0, 0⟩ :=
          ⟨Nat.le_of_succ_le hq, Nat.le_add_left _ _, Nat.le_refl _, Nat.zero_lt_succ _, rfl⟩
        have hzero : txSendRun cfg.tLatchNs w' ledWordBits 0 0 q = _ := txRun_zero hnext
        simp [txSendRun, txNs, txTake, hlast, hin, hmore, hzero]

/-- One nanosecond of the closed form of the engine is the engine's rule (40_led.md R131, R134), from a legal state. -/
theorem txRun_one {cfg : Config} {t : TxEngine} (h : t.Good cfg) :
    txRun cfg.tLatchNs 1 t = txNs cfg.tLatchNs t := by
  obtain ⟨q, shift, cell, idle⟩ := t
  cases shift with
  | sending w n =>
    obtain rfl : idle = 0 := h.shifter.2.2.2
    exact txSendRun_one h
  | idle =>
    obtain ⟨rfl, rfl, hidle⟩ : q = [] ∧ cell = 0 ∧ idle ≤ cfg.tLatchNs := h.shifter
    simp only [txRun, txIdleRun, txNs]
    by_cases hsat : cfg.tLatchNs ≤ idle
    · simp [hsat]
    · by_cases hlatch : cfg.tLatchNs ≤ idle + 1
      · have heq : idle + 1 = cfg.tLatchNs := by omega
        simp [hsat, heq]
      · have hne : idle + 1 ≠ cfg.tLatchNs := by omega
        simp [hsat, hlatch, hne]

/-- The closed form of the engine is its single nanoseconds one after the other, from a legal state. -/
theorem txRun_eq_txTicks {cfg : Config} (d : Nat) {t : TxEngine} (h : t.Good cfg) :
    txRun cfg.tLatchNs d t = txTicks cfg.tLatchNs d t := by
  induction d generalizing t with
  | zero => exact txRun_zero h
  | succ d ih => rw [Nat.add_comm, txRun_add, txRun_one h, ih (txNs_good h), Nat.add_comm, txTicks]

/-! ## One clock edge of the whole block -/

/-- One cycle in closed form is one rising edge of `clk`, from a legal engine state. -/
theorem advance_one {s : State} (h : s.tx.Good s.cfg) : advance 1 s = clockEdge s := by
  have hregs : clockedRun s.toRegs 1 s.toClocked = clockedEdge s.toRegs s.toClocked := by
    simp only [clockedRun, clockedEdge, pwmRun_one, Nat.one_mul, txRun_eq_txTicks _ h]
  unfold advance clockEdge
  rw [hregs]

/-- Settles O32, by induction on the cycles: the first is one edge, and it leaves the engine legal and the time left over
below a nanosecond. -/
theorem advanceIsIteratedClockEdges : Obligations.AdvanceIsIteratedClockEdges := by
  unfold Obligations.AdvanceIsIteratedClockEdges
  intro k
  induction k with
  | zero => exact fun s hgood hfrac => advance_zero hgood hfrac
  | succ k ih =>
    intro s hgood hfrac
    have hgood' : (advance 1 s).tx.Good s.cfg := txRun_good _ hgood
    have hfrac' : (advance 1 s).nsFrac < s.cfg.sysclkHz := Nat.mod_lt _ (Nat.zero_lt_of_lt hfrac)
    calc advance (k + 1) s
      _ = advance k (advance 1 s) := by rw [Nat.add_comm, advance_add]
      _ = clockEdges k (advance 1 s) := ih _ hgood' hfrac'
      _ = clockEdges (k + 1) s := by rw [advance_one hgood, clockEdges]

/-! ## What a command and a step of the sequencer can do -/

/-- The loop of WRITE writes no register (40_led.md R126); each push uses one free value (log 3). -/
theorem pushPixels_toRegs {is : List Nat} {s t : State} (h : pushPixels is s = some t) :
    t.toRegs = { s.toRegs with freeIdx := s.freeIdx + is.length } := by
  induction is generalizing s with
  | nil =>
    cases h
    rfl
  | cons i is ih =>
    unfold pushPixels at h
    split at h
    · cases h
    · rw [ih h, txPush_toRegs, List.length_cons, Nat.add_comm is.length, ← Nat.add_assoc]

/-- What a command that is no read does before it completes: the checks it has passed, its response data, and the state
at which its completion begins. -/
inductive Effect (s : State) : Instr → BitVec 32 → State → Prop
  | ledinit (pin : BitVec 8) : s.engFree ≠ 0 → Effect s (.ledinit pin) 0 (claimEngine pin s)
  | setpix (index r g b : BitVec 8) : s.ledInit = true → index.toNat < ledCount →
      Effect s (.setpix index r g b) 0 (storePixel index.toNat (scaledPixel s.cfg r g b) s)
  | clear : s.ledInit = true → Effect s .clear 0 (storeAllPixels (scaledPixel s.cfg 0 0 0) s)
  | write (sent : State) : s.ledInit = true → pushPixels (List.range ledCount) s = some sent →
      Effect s .write 0 sent
  | pwminit (pin : BitVec 8) : Effect s (.pwminit pin) 0 (enableChannel pin s)
  | tone (pin : BitVec 8) (f : BitVec 32) (ms : BitVec 16) : s.pwmInit = true → pin = s.pwmPin → f ≠ 0 →
      f.toNat ≤ s.cfg.sysclkHz → Effect s (.tone pin f ms) 0 (tone f.toNat ms.toNat s)
  | delay (ms : BitVec 16) : Effect s (.delay ms) 0 (sleep ms.toNat s)
  | getRegister (sel : Selector) : sel.indexed = false → Effect s (.get sel 0) (registerData s sel) s
  | getPixel (idx : BitVec 16) (px : Pixel) : s.ledInit = true → idx.toNat < ledCount →
      s.pixbuf.read idx.toNat = some px → Effect s (.get .pixbuf idx) (pixelData px) s
  | getSymbol (idx : BitVec 16) (sym : Symbol) : idx.toNat < s.seqlen.toNat →
      s.seqbuf.read idx.toNat = some sym → Effect s (.get .seqbuf idx) (symbolBit sym) s

/-- The reads a read command makes, with the checks it has passed: how many, and the state in which they begin. -/
inductive ReadsBegin (s : State) : Instr → Nat → State → Prop
  | readsym : s.pwmInit = true → ReadsBegin s .readsym 1 s
  | readseq (length : BitVec 16) : s.pwmInit = true → length.toNat ≤ seqCap →
      ReadsBegin s (.readseq length) length.toNat (emptySequence s)

/-- What a command that runs can lead to: its halt (60_exceptions.md R240), its completion, or a run of reads. -/
inductive ExecNext (s : State) (i : Instr) : State → Prop
  | fault (e : Err) : ExecNext s i (raiseFault e (encode i) s)
  | completed {data : BitVec 32} {u : State} : Effect s i data u → ExecNext s i (complete i data u)
  | reads {rem : Nat} {u : State} : ReadsBegin s i rem u →
      ExecNext s i (endReads i (reads (readStores i) rem u))

/-- A check of a command halts it, or is passed and the command goes on. -/
theorem ExecNext.check {s t : State} {i : Instr} {e : Err} {fails : Prop} [Decidable fails]
    {o : Host.Outcome State Fault Refusal}
    (h : (if fails then .next (raiseFault e (encode i) s) else o) = .next t)
    (goesOn : ¬ fails → o = .next t → ExecNext s i t) : ExecNext s i t := by
  split at h
  · cases h
    exact .fault e
  · exact goesOn ‹_› h

theorem execGet_next {sel : Selector} {idx : BitVec 16} {s t : State} (h : execGet sel idx s = .next t) :
    ExecNext s (.get sel idx) t := by
  cases sel with
  | pixbuf =>
    refine .check h fun hinit h => .check h fun hidx h => ?_
    cases hread : s.pixbuf.read idx.toNat with
    | none => simp only [hread] at h; cases h
    | some px =>
      simp only [hread] at h
      cases h
      exact .completed (.getPixel idx px (by simpa using hinit) (Nat.lt_of_not_le hidx) hread)
  | seqbuf =>
    refine .check h fun hidx h => ?_
    cases hread : s.seqbuf.read idx.toNat with
    | none => simp only [hread] at h; cases h
    | some sym =>
      simp only [hread] at h
      cases h
      exact .completed (.getSymbol idx sym (Nat.lt_of_not_le hidx) hread)
  | status | pwmCsr | pwmTop | pwmLevel | pwmCtr | ledCsr | result | seqlen =>
    refine .check h fun hidx h => ?_
    obtain rfl : idx = 0 := not_not.mp hidx
    cases h
    exact .completed (.getRegister _ rfl)

/-- What `exec` can do, command by command: the checks in the order of the rules, then the command's work. -/
theorem exec_next {i : Instr} {s t : State} (h : exec i s = .next t) : ExecNext s i t := by
  cases i with
  | ledinit pin =>
    refine .check h fun hfree h => ?_
    cases h
    exact .completed (.ledinit pin hfree)
  | setpix index r g b =>
    refine .check h fun hinit h => .check h fun hindex h => ?_
    cases h
    exact .completed (.setpix index r g b (by simpa using hinit) (Nat.lt_of_not_le hindex))
  | clear =>
    refine .check h fun hinit h => ?_
    cases h
    exact .completed (.clear (by simpa using hinit))
  | write =>
    refine .check h fun hinit h => ?_
    cases hpush : pushPixels (List.range ledCount) s with
    | none => simp only [hpush] at h; cases h
    | some sent =>
      simp only [hpush] at h
      cases h
      exact .completed (.write sent (by simpa using hinit) hpush)
  | pwminit pin =>
    cases h
    exact .completed (.pwminit pin)
  | tone pin f ms =>
    refine .check h fun hinit h => .check h fun hpin h => .check h fun hzero h => .check h fun hrange h => ?_
    cases h
    exact .completed (.tone pin f ms (by simpa using hinit) (not_not.mp hpin) hzero (Nat.le_of_not_lt hrange))
  | readsym =>
    refine .check h fun hinit h => ?_
    cases h
    exact .reads (.readsym (by simpa using hinit))
  | readseq length =>
    refine .check h fun hinit h => .check h fun hlen h => ?_
    cases h
    exact .reads (.readseq length (by simpa using hinit) (Nat.le_of_not_lt hlen))
  | delay ms =>
    cases h
    exact .completed (.delay ms)
  | get sel idx => exact execGet_next h

/-- What a step in which `rst` stays 0 can be: a cycle that accepts nothing, a waiting read that goes on, an illegal word,
or a command. -/
theorem runStep_cases {s t : State} (h : runStep s = .next t) :
    (t = idleCycle s ∧ (s.halted = true ∨ (s.busy = false ∧ s.pending = []))) ∨
      (s.halted = false ∧ s.busy = true ∧ t = resumeRead s) ∨
      (s.halted = false ∧ s.busy = false ∧ ∃ c rest, s.pending = c :: rest ∧
        ((∃ e, decode c = .error e ∧ t = illegalCommand c (accept rest s)) ∨
          ∃ i, decode c = .ok i ∧ exec i (accept rest s) = .next t)) := by
  cases hhalted : s.halted with
  | true =>
    rw [runStep_halted hhalted] at h
    cases h
    exact .inl ⟨rfl, .inl rfl⟩
  | false =>
    cases hbusy : s.busy with
    | true =>
      rw [runStep_busy hhalted hbusy] at h
      cases h
      exact .inr (.inl ⟨rfl, rfl, rfl⟩)
    | false =>
      cases hpending : s.pending with
      | nil =>
        simp only [runStep, hhalted, hbusy, hpending, Bool.false_eq_true, if_false] at h
        cases h
        exact .inl ⟨rfl, .inr ⟨rfl, rfl⟩⟩
      | cons c rest =>
        simp only [runStep, hhalted, hbusy, hpending, Bool.false_eq_true, if_false, runCommand] at h
        refine .inr (.inr ⟨rfl, rfl, c, rest, rfl, ?_⟩)
        cases hdec : decode c with
        | error e =>
          simp only [hdec] at h
          cases h
          exact .inl ⟨e, rfl, rfl⟩
        | ok i =>
          simp only [hdec] at h
          exact .inr ⟨i, rfl, h⟩

/-! ## The configuration -/

theorem Effect.cfg {s u : State} {i : Instr} {data : BitVec 32} (h : Effect s i data u) : u.cfg = s.cfg := by
  cases h with
  | write sent _ hpush => rw [pushPixels_toRegs hpush]
  | tone pin f ms => rw [tone_toRegs]
  | ledinit | setpix | clear | pwminit | delay | getRegister | getPixel | getSymbol => rfl

theorem ReadsBegin.cfg {s u : State} {i : Instr} {rem : Nat} (h : ReadsBegin s i rem u) : u.cfg = s.cfg := by
  cases h <;> rfl

theorem complete_cfg (i : Instr) (data : BitVec 32) (s : State) : (complete i data s).cfg = s.cfg := by
  rw [complete_toRegs, completedRegs]

theorem endReads_cfg (i : Instr) (r : Bool × State) : (endReads i r).cfg = r.2.cfg := by
  unfold endReads
  split
  · exact complete_cfg _ _ _
  · rfl

theorem resumeRead_cfg (s : State) : (resumeRead s).cfg = s.cfg := by
  unfold resumeRead
  split
  · rfl
  · split
    · rfl
    · rw [endReads_cfg, reads_cfg]

/-- No command changes a parameter (log 1). -/
theorem ExecNext.cfg {s t : State} {i : Instr} (h : ExecNext s i t) : t.cfg = s.cfg := by
  cases h with
  | fault e => rw [raiseFault_toRegs]
  | completed heffect => rw [complete_cfg, heffect.cfg]
  | reads hbegin => rw [endReads_cfg, reads_cfg, hbegin.cfg]

theorem runStep_cfg {s t : State} (h : runStep s = .next t) : t.cfg = s.cfg := by
  obtain ⟨rfl, -⟩ | ⟨-, -, rfl⟩ | ⟨-, -, c, rest, -, hrun⟩ := runStep_cases h
  · rw [idleCycle_toRegs]
  · exact resumeRead_cfg s
  · obtain ⟨e, -, rfl⟩ | ⟨i, -, hexec⟩ := hrun
    · rw [illegalCommand, raiseFault_toRegs, accept_toRegs]
    · rw [(exec_next hexec).cfg, accept_toRegs]

theorem holdReset_cfg (s : State) : (holdReset s).cfg = s.cfg := by
  unfold holdReset
  split <;> rfl

theorem step_cfg {s t : State} (h : step s = .next t) : t.cfg = s.cfg := by
  obtain ⟨-, ⟨-, rfl⟩ | ⟨-, hrun⟩ | ⟨-, p, later, -, rfl | ⟨u, hrun, rfl⟩⟩⟩ := step_cases h
  · exact holdReset_cfg s
  · exact runStep_cfg hrun
  · exact assertReset_cfg p later s
  · rw [assertReset_cfg, runStep_cfg hrun]

theorem step_refused {s : State} (h : s.cfg.wf = false) : step s = .refused .badConfiguration := by
  rw [step, if_pos h]

/-- Settles O52: each case of a step keeps the configuration, and a parameter out of its range makes it ill-formed. -/
theorem configurationIsFixedAndChecked : Obligations.ConfigurationIsFixedAndChecked := by
  unfold Obligations.ConfigurationIsFixedAndChecked
  refine ⟨fun s t => step_cfg, fun s hout => step_refused (Bool.eq_false_iff.mpr fun hwf => ?_)⟩
  have hranges := Config.wf_ranges hwf
  omega

end Sys2Proof.Machine

/-! # PROOFS. The sequencer's step and the invariant of the block (spec/10_state.md) -/

namespace Sys2Proof.Machine

/-! ## A ready block runs the command it decodes -/

theorem runCommand_ok {c : Word64} {i : Instr} (h : decode c = .ok i) (s : State) : runCommand c s = exec i s := by
  simp only [runCommand, h]

/-- Settles O5: the sequencer accepts the word at the head of the list, and no reset ends the step. -/
theorem stepRunsTheDecodedCommand : Obligations.StepRunsTheDecodedCommand := by
  unfold Obligations.StepRunsTheDecodedCommand
  intro s c rest i hcfg hready hpending hdec hnow hend
  have hrun : runStep s = exec i (accept rest s) := by rw [runStep_command hready hpending, runCommand_ok hdec]
  have hstep : step s = runStep s :=
    step_runStep hcfg (s.cmdReady_iff.mp hready).2.2 hnow fun t ht => hend t (hrun ▸ ht)
  exact ⟨hstep.trans hrun, by rw [accept_toRegs], _, accept_toClocked rest s⟩

/-! ## A block that is not ready accepts nothing -/

theorem reads_pending (store : Bool) (rem : Nat) (s : State) : (reads store rem s).2.pending = s.pending := by
  induction rem generalizing s with
  | zero => rfl
  | succ rem ih =>
    obtain hnone | ⟨waits, p, rest, sym, hins, hwaits, hp⟩ := press_split s.cfg s.inputs
    · obtain ⟨t, -, hpolled, hreads⟩ := reads_released (store := store) (rem := rem) hnone
      rw [hreads, hpolled.regs, enterPoll_toRegs]
    · obtain ⟨t, -, hpolled, hreads⟩ := reads_press (store := store) (rem := rem) hins hwaits hp
      have hkept : t.pending = s.pending := by rw [hpolled.regs, enterPoll_toRegs]
      rw [hreads, ih]
      cases store <;> simp [hkept]

theorem endReads_pending (i : Instr) (r : Bool × State) : (endReads i r).pending = r.2.pending := by
  unfold endReads
  split
  · rw [complete_toRegs, completedRegs]
  · rfl

theorem resumeRead_pending (s : State) : (resumeRead s).pending = s.pending := by
  unfold resumeRead
  split
  · rfl
  · split
    · rfl
    · rw [endReads_pending, reads_pending]

/-- Settles O8: a step of a halted or busy block is a cycle without a command or a waiting read that goes on, and a reset
that ends it shows in `rst`. -/
theorem notReadyAcceptsNothing : Obligations.NotReadyAcceptsNothing := by
  unfold Obligations.NotReadyAcceptsNothing
  intro s t hrst hready hstep hrst'
  obtain ⟨-, ⟨hr, -⟩ | ⟨-, hrun⟩ | ⟨-, p, later, -, rfl | ⟨u, -, rfl⟩⟩⟩ := step_cases hstep
  · simp [hrst] at hr
  · obtain ⟨rfl, -⟩ | ⟨-, -, rfl⟩ | ⟨hhalted, hbusy, -⟩ := runStep_cases hrun
    · rw [idleCycle_toRegs]
    · exact resumeRead_pending s
    · simp [State.cmdReady, hhalted, hbusy, hrst] at hready
  · simp at hrst'
  · simp at hrst'

/-! ## What is legal in the registers of each unit -/

/-- The part of `State.Inv` about the LED unit's registers (spec/10_state.md R34, R35; 20_memory.md R61). -/
structure LedOk (cfg : Config) (ledInit : Bool) (engFree : BitVec 8) (pixbuf : Memory Pixel) : Prop where
  canonical : pixbuf.wf ledCount = true
  unset : ledInit = false → pixbuf = []
  held : ledInit = true → ∀ i < ledCount, (pixbuf.read i).isSome = true
  enginesLeft : engFree.toNat ≤ cfg.engines
  claimed : ledInit = true ↔ engFree.toNat < cfg.engines

/-- The part of `State.Inv` about SEQBUF and SEQLEN (10_state.md R41; 20_memory.md R62). -/
structure SeqOk (seqbuf : Memory Symbol) (seqlen : BitVec 7) : Prop where
  canonical : seqbuf.wf seqCap = true
  lengthCap : seqlen.toNat ≤ seqCap
  held : ∀ i < seqlen.toNat, (seqbuf.read i).isSome = true

/-- The part of `State.Inv` about the registers of the PWM channel that commands write (41_tone.md R156, R161). -/
structure PwmOk (cfg : Config) (pwmInit pwmEn : Bool) (pwmDiv : BitVec 8) (pwmTop pwmLevel : BitVec 32) : Prop where
  silent : pwmLevel = 0
  enabled : pwmEn = pwmInit
  divLegal : 1 ≤ pwmDiv.toNat
  topBelow : pwmTop.toNat < cfg.sysclkHz
  off : pwmEn = false → pwmTop = 0 ∧ pwmDiv = 1

/-- The part of `State.Inv` about HALTED, FAULT and FAULT_CMD (60_exceptions.md R240). -/
structure FaultOk (halted : Bool) (fault : BitVec 4) (faultCmd : Word64) : Prop where
  haltedIff : halted = true ↔ fault ≠ 0
  code : fault.toNat ≤ 8
  noCmd : halted = false → faultCmd = 0

/-- The part of `State.Inv` about registers that holds inside a command as well as between two. -/
structure Regs.Legal (r : Regs) : Prop where
  cfgWf : r.cfg.wf = true
  led : LedOk r.cfg r.ledInit r.engFree r.pixbuf
  seq : SeqOk r.seqbuf r.seqlen
  pwm : PwmOk r.cfg r.pwmInit r.pwmEn r.pwmDiv r.pwmTop r.pwmLevel
  fault : FaultOk r.halted r.fault r.faultCmd

theorem State.Inv.legal {s : State} (h : s.Inv) : s.toRegs.Legal where
  cfgWf := h.cfgWf
  led := ⟨h.pixbufWf, h.pixbufUnset, h.pixbufHeld, h.enginesLeft, h.engineClaimed⟩
  seq := ⟨h.seqbufWf, h.seqlenCap, h.seqbufHeld⟩
  pwm := ⟨h.silent, h.pwmEnabled, h.pwmDivLegal, h.pwmTopBelow, fun hen => (h.pwmOff hen).2.2⟩
  fault := ⟨h.faultHalted, h.faultCode, h.noFaultCmd⟩

/-- The invariant from its parts: legal registers, a legal clocked part, and what the sequencer is doing. -/
theorem State.Inv.ofParts {s : State} (hregs : s.toRegs.Legal) (hclock : s.ClockOk)
    (hhalted : s.halted = true → s.busy = false) (hrest : s.busy = false → s.AtRest) (hwait : s.busy = true → s.Waiting)
    (hreset : s.rst = true → inReset s = s) : s.Inv where
  cfgWf := hregs.cfgWf
  pixbufWf := hregs.led.canonical
  pixbufUnset := hregs.led.unset
  pixbufHeld := hregs.led.held
  seqbufWf := hregs.seq.canonical
  seqlenCap := hregs.seq.lengthCap
  seqbufHeld := hregs.seq.held
  enginesLeft := hregs.led.enginesLeft
  engineClaimed := hregs.led.claimed
  silent := hregs.pwm.silent
  pwmEnabled := hregs.pwm.enabled
  pwmDivLegal := hregs.pwm.divLegal
  pwmPreBelow := hclock.preBelow
  pwmCtrBelow := hclock.ctrBelow
  pwmTopBelow := hregs.pwm.topBelow
  pwmOff hen := ⟨(hclock.off hen).1, (hclock.off hen).2, hregs.pwm.off hen⟩
  engine := hclock.engine
  timerZero := hclock.timerZero
  fracBelow := hclock.fracBelow
  faultHalted := hregs.fault.haltedIff
  faultCode := hregs.fault.code
  noFaultCmd := hregs.fault.noCmd
  haltedNotBusy := hhalted
  rest := hrest
  wait := hwait
  resetHeld := hreset

/-- The invariant of a block at rest, in reset or not. -/
theorem State.Inv.ofAtRest {s : State} (hregs : s.toRegs.Legal) (hclock : s.ClockOk) (hbusy : s.busy = false)
    (hrest : s.AtRest) (hreset : s.rst = true → inReset s = s) : s.Inv :=
  .ofParts hregs hclock (fun _ => hbusy) (fun _ => hrest) (fun hb => by simp [hbusy] at hb) hreset

/-- The invariant of a block whose read waits for a button. -/
theorem State.Inv.ofWaiting {s : State} (hregs : s.toRegs.Legal) (hclock : s.ClockOk) (hrst : s.rst = false)
    (hhalted : s.halted = false) (hwait : s.Waiting) : s.Inv :=
  .ofParts hregs hclock (fun hh => by simp [hhalted] at hh) (fun hb => by simp [hwait.busy] at hb) (fun _ => hwait)
    fun hr => by simp [hrst] at hr

/-! ## What the commands' writes do to it -/

/-- The writes of LEDINIT with an engine free (40_led.md R121). -/
theorem LedOk.claim {cfg : Config} {ledInit : Bool} {engFree : BitVec 8} {pixbuf : Memory Pixel}
    (h : LedOk cfg ledInit engFree pixbuf) (hfree : engFree ≠ 0) (px : Pixel) :
    LedOk cfg true (engFree - 1) (fillPixels px pixbuf) := by
  have hpos : engFree.toNat ≠ 0 := fun h0 => hfree (BitVec.eq_of_toNat_eq h0)
  have hsub : (engFree - 1).toNat = engFree.toNat - 1 :=
    BitVec.toNat_sub_of_le (show 1 ≤ engFree.toNat by omega)
  have hleft := h.enginesLeft
  exact ⟨fillPixels_wf px h.canonical, by simp, fun _ i hi => by simp [fillPixels_read, hi], by omega, by simp; omega⟩

/-- Every pixel written (R125). -/
theorem LedOk.fill {cfg : Config} {ledInit : Bool} {engFree : BitVec 8} {pixbuf : Memory Pixel}
    (h : LedOk cfg ledInit engFree pixbuf) (hinit : ledInit = true) (px : Pixel) :
    LedOk cfg ledInit engFree (fillPixels px pixbuf) where
  canonical := fillPixels_wf px h.canonical
  unset hno := by simp [hinit] at hno
  held _ i hi := by simp [fillPixels_read, hi]
  enginesLeft := h.enginesLeft
  claimed := h.claimed

/-- One pixel written (R123). -/
theorem LedOk.write {cfg : Config} {ledInit : Bool} {engFree : BitVec 8} {pixbuf : Memory Pixel}
    (h : LedOk cfg ledInit engFree pixbuf) (hinit : ledInit = true) {i : Nat} (hi : i < ledCount) (px : Pixel) :
    LedOk cfg ledInit engFree (pixbuf.write i px) where
  canonical := Memory.wf_write px h.canonical hi
  unset hno := by simp [hinit] at hno
  held _ j hj := by
    rw [Memory.read_write]
    split
    · rfl
    · exact h.held hinit j hj
  enginesLeft := h.enginesLeft
  claimed := h.claimed

/-- "SEQLEN <- 0" (42_button.md R176). -/
theorem SeqOk.empty {seqbuf : Memory Symbol} {seqlen : BitVec 7} (h : SeqOk seqbuf seqlen) : SeqOk seqbuf 0 :=
  ⟨h.canonical, Nat.zero_le _, fun i hi => absurd hi (Nat.not_lt_zero i)⟩

/-- SEQLEN has room for one more, so it does not wrap (10_state.md R41). -/
theorem seqlen_succ_toNat {seqlen : BitVec 7} (h : seqlen.toNat < seqCap) :
    (BitVec.ofNat 7 (seqlen.toNat + 1)).toNat = seqlen.toNat + 1 := by
  rw [BitVec.toNat_ofNat]
  unfold seqCap at h
  exact Nat.mod_eq_of_lt (by omega)

/-- "MemWrite(SEQBUF, i, s) ; SEQLEN <- i + 1" (R176). -/
theorem SeqOk.push {seqbuf : Memory Symbol} {seqlen : BitVec 7} (h : SeqOk seqbuf seqlen)
    (hroom : seqlen.toNat < seqCap) (sym : Symbol) :
    SeqOk (seqbuf.write seqlen.toNat sym) (BitVec.ofNat 7 (seqlen.toNat + 1)) where
  canonical := Memory.wf_write sym h.canonical hroom
  lengthCap := by rw [seqlen_succ_toNat hroom]; exact hroom
  held i hi := by
    rw [seqlen_succ_toNat hroom] at hi
    rw [Memory.read_write]
    split
    · rfl
    · exact h.held i (by omega)

theorem topOf_lt (cfg : Config) (f : Nat) (h : cfg.wf = true) : topOf cfg f < cfg.sysclkHz := by
  have hdiv : cfg.sysclkHz / f ≤ cfg.sysclkHz := Nat.div_le_self _ _
  have hranges := Config.wf_ranges h
  unfold topOf
  omega

/-- A tone that is over has left its wraparound and no level (41_tone.md R154, R161). -/
theorem PwmOk.tone {cfg : Config} {pwmInit pwmEn : Bool} {pwmDiv : BitVec 8} {pwmTop pwmLevel : BitVec 32}
    (h : PwmOk cfg pwmInit pwmEn pwmDiv pwmTop pwmLevel) (hcfg : cfg.wf = true) (hinit : pwmInit = true) (f : Nat) :
    PwmOk cfg pwmInit pwmEn pwmDiv (BitVec.ofNat 32 (topOf cfg f)) 0 where
  silent := rfl
  enabled := h.enabled
  divLegal := h.divLegal
  topBelow := by
    rw [BitVec.toNat_ofNat]
    exact Nat.lt_of_le_of_lt (Nat.mod_le _ _) (topOf_lt cfg f hcfg)
  off hno := by simp [h.enabled, hinit] at hno

/-- The writes of PWMINIT (R151). -/
theorem PwmOk.enable {cfg : Config} {pwmInit pwmEn : Bool} {pwmDiv : BitVec 8} {pwmTop pwmLevel : BitVec 32}
    (h : PwmOk cfg pwmInit pwmEn pwmDiv pwmTop pwmLevel) (hcfg : cfg.wf = true) :
    PwmOk cfg true true (BitVec.ofNat 8 cfg.pwmClkdiv) pwmTop 0 where
  silent := rfl
  enabled := rfl
  divLegal := by
    have hranges := Config.wf_ranges hcfg
    rw [BitVec.toNat_ofNat]
    omega
  topBelow := h.topBelow
  off hno := by simp at hno

/-- The registers a halt writes (60_exceptions.md R240): every fault has a code from 1 to 8 (R231). -/
theorem faultOk_halt (e : Err) (c : Word64) : FaultOk true e.code c where
  haltedIff := by cases e <;> decide
  code := by cases e <;> decide
  noCmd hno := by simp at hno

theorem faultOk_none : FaultOk false 0 0 := ⟨by decide, by decide, fun _ => rfl⟩

/-! ## Inside a command -/

/-- What holds of the block from the acceptance of a command to its end. -/
structure State.Executing (s : State) : Prop where
  legal : s.toRegs.Legal
  clock : s.ClockOk
  noReset : s.rst = false
  notHalted : s.halted = false

/-- The BTN unit makes no read (10_state.md R39). -/
structure State.SamplerIdle (s : State) : Prop where
  idle : s.btnState = .idle
  noReads : s.btnRem = 0

theorem State.Inv.accept_executing {s : State} (h : s.Inv) (hrst : s.rst = false) (hhalted : s.halted = false)
    (rest : List Word64) : (accept rest s).Executing where
  legal := { h.legal with }
  clock := h.clockOk.accept rest
  noReset := hrst
  notHalted := hhalted

theorem State.Inv.accept_samplerIdle {s : State} (h : s.Inv) (hbusy : s.busy = false) (rest : List Word64) :
    (accept rest s).SamplerIdle :=
  ⟨(h.rest hbusy).idle, (h.rest hbusy).noReads⟩

/-- The end of a command leaves the block at rest (10_state.md R24, R39). -/
theorem State.Executing.complete_inv {s : State} (h : s.Executing) (hidle : s.SamplerIdle) (i : Instr)
    (data : BitVec 32) : (complete i data s).Inv := by
  have hregs := complete_toRegs i data s
  refine .ofAtRest ?_ (h.clock.complete i data) (by rw [hregs]; rfl) ?_ fun hr => ?_
  · rw [hregs]
    exact { h.legal with }
  · refine ⟨?_, ?_, ?_⟩ <;> rw [hregs]
    · exact hidle.idle
    · exact hidle.noReads
    · rfl
  · rw [hregs, completedRegs, h.noReset] at hr
    cases hr

/-- So does a halt (60_exceptions.md R240). -/
theorem State.Executing.raiseFault_inv {s : State} (h : s.Executing) (hidle : s.SamplerIdle) (e : Err) (c : Word64) :
    (raiseFault e c s).Inv := by
  have hregs := raiseFault_toRegs e c s
  refine .ofAtRest ?_ (h.clock.raiseFault e c) (by rw [hregs]) ?_ fun hr => ?_
  · rw [hregs]
    exact { h.legal with fault := faultOk_halt e c }
  · refine ⟨?_, ?_, ?_⟩ <;> rw [hregs]
    · exact hidle.idle
    · exact hidle.noReads
  · rw [hregs, h.noReset] at hr
    cases hr

/-! ## The commands that make no read -/

theorem pushPixels_clockOk {is : List Nat} {s t : State} (hcfg : s.cfg.wf = true) (h : s.ClockOk)
    (hpush : pushPixels is s = some t) : t.ClockOk := by
  induction is generalizing s with
  | nil =>
    cases hpush
    exact h
  | cons i is ih =>
    unfold pushPixels at hpush
    split at hpush
    · cases hpush
    next px _ => exact ih (by rwa [txPush_toRegs]) (h.txPush hcfg (pixelLedWord px)) hpush

theorem Effect.clockOk {s u : State} {i : Instr} {data : BitVec 32} (h : Effect s i data u) (hcfg : s.cfg.wf = true)
    (hs : s.ClockOk) : u.ClockOk := by
  cases h with
  | ledinit pin => exact hs.claimEngine pin
  | setpix => exact hs.storePixel _ _
  | clear => exact hs.storeAllPixels _
  | write sent _ hpush => exact pushPixels_clockOk hcfg hs hpush
  | pwminit pin => exact hs.enableChannel hcfg pin
  | tone pin f ms => exact hs.tone _ _
  | delay ms => exact hs.sleep _
  | getRegister | getPixel | getSymbol => exact hs

theorem Effect.legal {s u : State} {i : Instr} {data : BitVec 32} (h : Effect s i data u) (hs : s.toRegs.Legal) :
    u.toRegs.Legal := by
  cases h with
  | ledinit pin hfree => exact { hs with led := hs.led.claim hfree darkPixel }
  | setpix index r g b hinit hindex => exact { hs with led := hs.led.write hinit hindex _ }
  | clear hinit => exact { hs with led := hs.led.fill hinit _ }
  | write sent _ hpush =>
    rw [pushPixels_toRegs hpush]
    exact { hs with }
  | pwminit pin => exact { hs with pwm := hs.pwm.enable hs.cfgWf }
  | tone pin f ms hinit =>
    rw [tone_toRegs]
    exact { hs with pwm := hs.pwm.tone hs.cfgWf hinit _ }
  | delay => exact { hs with }
  | getRegister | getPixel | getSymbol => exact hs

/-- A command that makes no read leaves `rst`, HALTED and the sampler as they are. -/
theorem Effect.frame {s u : State} {i : Instr} {data : BitVec 32} (h : Effect s i data u) :
    u.rst = s.rst ∧ u.halted = s.halted ∧ u.btnState = s.btnState ∧ u.btnRem = s.btnRem := by
  cases h with
  | write sent _ hpush =>
    rw [pushPixels_toRegs hpush]
    exact ⟨rfl, rfl, rfl, rfl⟩
  | tone =>
    rw [tone_toRegs]
    exact ⟨rfl, rfl, rfl, rfl⟩
  | ledinit | setpix | clear | pwminit | delay | getRegister | getPixel | getSymbol => exact ⟨rfl, rfl, rfl, rfl⟩

theorem Effect.executing {s u : State} {i : Instr} {data : BitVec 32} (h : Effect s i data u) (hs : s.Executing) :
    u.Executing := by
  obtain ⟨hrst, hhalted, -, -⟩ := h.frame
  exact ⟨h.legal hs.legal, h.clockOk hs.legal.cfgWf hs.clock, hrst.trans hs.noReset, hhalted.trans hs.notHalted⟩

theorem Effect.samplerIdle {s u : State} {i : Instr} {data : BitVec 32} (h : Effect s i data u) (hs : s.SamplerIdle) :
    u.SamplerIdle := by
  obtain ⟨-, -, hstate, hrem⟩ := h.frame
  exact ⟨hstate.trans hs.idle, hrem.trans hs.noReads⟩

/-! ## A run of reads (42_button.md R171, R174, R176) -/

/-- The read command `i` has `left` reads to make when SEQLEN is `seqlen`. -/
inductive ReadsDue : Instr → Nat → Nat → Prop
  | readsym {seqlen left : Nat} : left ≤ 1 → ReadsDue .readsym seqlen left
  | readseq (n : BitVec 16) {seqlen left : Nat} : n.toNat ≤ seqCap → seqlen + left = n.toNat →
      ReadsDue (.readseq n) seqlen left

/-- BTN_REM is wide enough for the reads left (10_state.md R39). -/
theorem ReadsDue.btnRem_toNat {i : Instr} {seqlen left : Nat} (h : ReadsDue i seqlen left) :
    (BitVec.ofNat 7 left).toNat = left := by
  have hcap : seqCap = 100 := rfl
  rw [BitVec.toNat_ofNat]
  cases h <;> exact Nat.mod_eq_of_lt (by omega)

/-- What holds inside the read command `i` with `left` reads to make. -/
structure State.Reading (i : Instr) (left : Nat) (s : State) : Prop extends State.Executing s where
  channelReady : s.pwmInit = true
  noResponse : s.rspValid = false
  due : ReadsDue i s.seqlen.toNat left

/-- The polling loop takes samples and time only. -/
theorem State.Reading.polled {i : Instr} {left rem n : Nat} {s t : State} {seen : List Sample}
    (h : s.Reading i left) (hpolled : Polled seen n (enterPoll rem s) t) : t.Reading i left := by
  have hregs := hpolled.regs
  refine ⟨⟨?_, hpolled.clockOk (h.clock.enterPoll rem), ?_, ?_⟩, ?_, ?_, ?_⟩ <;> rw [hregs]
  · exact { h.legal with }
  · exact h.noReset
  · exact h.notHalted
  · exact h.channelReady
  · exact h.noResponse
  · exact h.due

theorem State.Executing.feedback {s : State} (h : s.Executing) (hinit : s.pwmInit = true) (sym : Symbol) :
    (feedback sym s).Executing := by
  refine ⟨?_, h.clock.feedback sym, ?_, ?_⟩ <;> rw [feedback_toRegs]
  · exact { h.legal with pwm := h.legal.pwm.tone h.legal.cfgWf hinit feedbackHz }
  · exact h.noReset
  · exact h.notHalted

theorem State.Executing.storeSymbol {s : State} (h : s.Executing) (hroom : s.seqlen.toNat < seqCap) (sym : Symbol) :
    (storeSymbol sym s).Executing where
  legal := { h.legal with seq := h.legal.seq.push hroom sym }
  clock := h.clock.storeSymbol sym
  noReset := h.noReset
  notHalted := h.notHalted

/-- After a press one read less is to be made, and READSEQ has stored its Symbol. -/
theorem State.Reading.pressed {i : Instr} {left : Nat} {s : State} (h : s.Reading i (left + 1)) (sym : Symbol) :
    (if readStores i then storeSymbol sym (feedback sym s) else feedback sym s).Reading i left := by
  have hread := h.toExecuting.feedback h.channelReady sym
  have hlen : (feedback sym s).seqlen = s.seqlen := by rw [feedback_toRegs]
  obtain ⟨-, hready, hquiet, hdue⟩ := h
  cases hdue with
  | readsym hleft =>
    refine ⟨hread, ?_, ?_, .readsym (by omega)⟩ <;> simp [readStores, hready, hquiet]
  | readseq n hcap hsum =>
    have hroom : (feedback sym s).seqlen.toNat < seqCap := by rw [hlen]; omega
    refine ⟨hread.storeSymbol hroom sym, ?_, ?_, .readseq n hcap ?_⟩
    · simp [readStores, hready]
    · simp [readStores, hquiet]
    · show (BitVec.ofNat 7 ((feedback sym s).seqlen.toNat + 1)).toNat + left = n.toNat
      rw [seqlen_succ_toNat hroom, hlen]
      omega

/-- A read left in POLL waits for a button with BUSY = 1 (60_exceptions.md R246). -/
theorem State.Reading.keepWaiting_inv {i : Instr} {left : Nat} {s : State} (h : s.Reading i (left + 1))
    (hpoll : s.btnState = .poll) (hrem : s.btnRem = BitVec.ofNat 7 (left + 1)) : (keepWaiting i s).Inv := by
  refine .ofWaiting { h.legal with } (h.clock.keepWaiting i) h.noReset h.notHalted
    ⟨rfl, h.noResponse, h.channelReady, hpoll, ?_⟩
  have hleft := h.due.btnRem_toNat
  rw [← hrem] at hleft
  cases h.due with
  | readsym hone =>
    obtain rfl : left = 0 := by omega
    exact .inl ⟨rfl, hrem⟩
  | readseq n hcap hsum =>
    refine .inr ⟨n, rfl, hcap, ?_, ?_⟩
    · show 0 < s.btnRem.toNat
      omega
    · show s.seqlen.toNat + s.btnRem.toNat = n.toNat
      omega

/-- A run of reads ends its command or leaves it waiting: by induction on the reads left, each of which finds a press among
the samples supplied or none. -/
theorem State.Reading.endReads_inv {i : Instr} {left : Nat} {s : State} (h : s.Reading i left) :
    (endReads i (reads (readStores i) left s)).Inv := by
  induction left generalizing s with
  | zero =>
    have hend : (enterIdle s).Executing := ⟨{ h.legal with }, h.clock.enterIdle, h.noReset, h.notHalted⟩
    exact hend.complete_inv ⟨rfl, rfl⟩ i _
  | succ left ih =>
    obtain hnone | ⟨waits, p, rest, sym, hins, hwaits, hp⟩ := press_split s.cfg s.inputs
    · obtain ⟨t, -, hpolled, hreads⟩ := reads_released (store := readStores i) (rem := left) hnone
      rw [hreads]
      exact (h.polled hpolled).keepWaiting_inv (by rw [hpolled.regs]; rfl) (by rw [hpolled.regs]; rfl)
    · obtain ⟨t, -, hpolled, hreads⟩ := reads_press (store := readStores i) (rem := left) hins hwaits hp
      rw [hreads]
      exact ih ((h.polled hpolled).pressed sym)

/-- A read command that has passed its checks has all its reads to make. -/
theorem ReadsBegin.reading {s u : State} {i : Instr} {rem : Nat} (h : ReadsBegin s i rem u) (hs : s.Executing)
    (hquiet : s.rspValid = false) : u.Reading i rem := by
  cases h with
  | readsym hready => exact ⟨hs, hready, hquiet, .readsym (Nat.le_refl 1)⟩
  | readseq length hready hcap =>
    exact ⟨⟨{ hs.legal with seq := hs.legal.seq.empty }, hs.clock.emptySequence, hs.noReset, hs.notHalted⟩, hready, hquiet,
      .readseq length hcap (Nat.zero_add _)⟩

/-- A read that waits still has reads to make: those BTN_REM counts. -/
theorem State.Waiting.reading {s : State} (h : s.Waiting) (hs : s.Executing) :
    ∃ i, s.running = some i ∧ s.Reading i s.btnRem.toNat := by
  obtain ⟨hrun, hrem⟩ | ⟨n, hrun, hcap, -, hsum⟩ := h.command
  · exact ⟨.readsym, hrun, hs, h.channelReady, h.noResponse, .readsym (by rw [hrem]; decide)⟩
  · exact ⟨.readseq n, hrun, hs, h.channelReady, h.noResponse, .readseq n hcap hsum⟩

/-! ## Every case of a step keeps the invariant -/

theorem ExecNext.inv {s t : State} {i : Instr} (h : ExecNext s i t) (hs : s.Executing) (hidle : s.SamplerIdle)
    (hquiet : s.rspValid = false) : t.Inv := by
  cases h with
  | fault e => exact hs.raiseFault_inv hidle e _
  | completed heffect => exact (heffect.executing hs).complete_inv (heffect.samplerIdle hidle) i _
  | reads hbegin => exact (hbegin.reading hs hquiet).endReads_inv

theorem idleCycle_inv {s : State} (h : s.Inv) (hrst : s.rst = false) (hbusy : s.busy = false) : (idleCycle s).Inv := by
  obtain ⟨hidle, hreads, hnone⟩ := h.rest hbusy
  refine .ofAtRest { h.legal with } (h.clockOk.dropResponse.advance 1) hbusy ⟨hidle, hreads, hnone⟩ fun hr => ?_
  rw [idleCycle_toRegs, hrst] at hr
  cases hr

theorem pollReleased_inv {s : State} (h : s.Inv) (hs : s.Executing) (hbusy : s.busy = true) : (pollReleased s).Inv :=
  .ofWaiting h.legal ((h.clockOk.record _).advance _) hs.noReset hs.notHalted { h.wait hbusy with }

theorem resumeRead_inv {s : State} (h : s.Inv) (hs : s.Executing) (hbusy : s.busy = true) : (resumeRead s).Inv := by
  obtain ⟨i, hrun, hreading⟩ := (h.wait hbusy).reading hs
  unfold resumeRead
  split
  next hnone => rw [hnone] at hrun; cases hrun
  next j hj =>
    obtain rfl : j = i := Option.some.inj (hj.symm.trans hrun)
    split
    · exact pollReleased_inv h hs hbusy
    · exact hreading.endReads_inv

theorem runStep_inv {s t : State} (h : s.Inv) (hrst : s.rst = false) (hrun : runStep s = .next t) : t.Inv := by
  obtain ⟨rfl, hstill⟩ | ⟨hhalted, hbusy, rfl⟩ | ⟨hhalted, hbusy, c, rest, -, hcmd⟩ := runStep_cases hrun
  · exact idleCycle_inv h hrst (hstill.elim h.haltedNotBusy And.left)
  · exact resumeRead_inv h ⟨h.legal, h.clockOk, hrst, hhalted⟩ hbusy
  · have hexec := h.accept_executing hrst hhalted rest
    have hidle := h.accept_samplerIdle hbusy rest
    obtain ⟨e, -, rfl⟩ | ⟨i, -, hi⟩ := hcmd
    · exact hexec.raiseFault_inv hidle .illegal c
    · exact (exec_next hi).inv hexec hidle rfl

/-! ## Reset (70_reset_and_hazards.md R270, R271) -/

theorem resetWith_legal {cfg : Config} (h : cfg.wf = true) : (State.resetWith cfg).toRegs.Legal := by
  have hranges := Config.wf_ranges h
  have hfree : (BitVec.ofNat 8 cfg.engines).toNat = cfg.engines := by
    rw [BitVec.toNat_ofNat]
    exact Nat.mod_eq_of_lt (by omega)
  refine ⟨h, ⟨rfl, fun _ => rfl, nofun, hfree.le, ?_⟩, ⟨rfl, Nat.zero_le _, nofun⟩,
    ⟨rfl, rfl, Nat.le_refl 1, ?_, fun _ => ⟨rfl, rfl⟩⟩, faultOk_none⟩
  · show false = true ↔ (BitVec.ofNat 8 cfg.engines).toNat < cfg.engines
    simp [hfree]
  · show 0 < cfg.sysclkHz
    omega

theorem resetWith_clockOk {cfg : Config} (h : cfg.wf = true) : (State.resetWith cfg).ClockOk := by
  have hranges := Config.wf_ranges h
  refine ⟨Nat.zero_lt_one, Nat.le_refl 0, fun _ => ⟨rfl, rfl⟩, ⟨Nat.zero_le _, rfl, rfl, Nat.le_refl _⟩, rfl, ?_⟩
  show 0 < cfg.sysclkHz
  omega

theorem inReset_inv {s : State} (h : s.cfg.wf = true) : (inReset s).Inv :=
  .ofAtRest { resetWith_legal h with } ((resetWith_clockOk h).congr ⟨rfl, rfl, rfl, rfl⟩ ⟨rfl, rfl, rfl, rfl, rfl⟩) rfl
    ⟨rfl, rfl, rfl⟩ fun _ => inReset_inReset s

theorem releaseReset_inv {s : State} (h : s.cfg.wf = true) : (releaseReset s).Inv :=
  .ofAtRest { resetWith_legal h with } ((resetWith_clockOk h).congr ⟨rfl, rfl, rfl, rfl⟩ ⟨rfl, rfl, rfl, rfl, rfl⟩) rfl
    ⟨rfl, rfl, rfl⟩ nofun

theorem holdReset_inv {s : State} (h : s.cfg.wf = true) : (holdReset s).Inv := by
  unfold holdReset
  split
  · exact releaseReset_inv h
  · exact inReset_inv h

theorem assertReset_inv {s : State} (p : ResetPulse) (later : List ResetPulse) (h : s.cfg.wf = true) :
    (assertReset p later s).Inv := inReset_inv h

/-- Settles O50: a step is an edge in reset, the sequencer's own step, or the beginning of a reset, and each keeps the
invariant. Inside a command the registers and the clocked part stay legal (`State.Executing`); its end leaves the block at
rest, halted, or with a read that waits. -/
theorem stepKeepsInvariant : Obligations.StepKeepsInvariant := by
  unfold Obligations.StepKeepsInvariant
  intro s t hs hstep
  obtain ⟨hcfg, ⟨-, rfl⟩ | ⟨hrst, hrun⟩ | ⟨-, p, later, -, rfl | ⟨u, hrun, rfl⟩⟩⟩ := step_cases hstep
  · exact holdReset_inv hcfg
  · exact runStep_inv hs hrst hrun
  · exact assertReset_inv p later hcfg
  · exact assertReset_inv p later ((congrArg Config.wf (runStep_cfg hrun)).trans hcfg)

end Sys2Proof.Machine

/-! # PROOFS. Memories and queues: PIXBUF, the words in flight, and the frame gap (spec/20_memory.md) -/

namespace Sys2Proof.Machine

/-! ## What SETPIX and CLEAR leave in PIXBUF (20_memory.md R69) -/

/-- SETPIX writes its element if its checks pass, and what the checks read stays as it is (40_led.md R123). -/
theorem exec_setpix_pixbuf {index r g b : BitVec 8} {s t : State} (h : exec (.setpix index r g b) s = .next t) :
    t.cfg = s.cfg ∧ t.ledInit = s.ledInit ∧
      t.pixbuf =
        if s.ledInit = true ∧ index.toNat < ledCount then s.pixbuf.write index.toNat (scaledPixel s.cfg r g b)
        else s.pixbuf := by
  change execSetpix index r g b s = .next t at h
  unfold execSetpix at h
  split at h
  next hinit =>
    cases h
    simp [hinit]
  next hinit =>
    split at h <;> cases h
    next hindex => simp [Nat.not_lt.mpr hindex]
    next hindex => simp [hinit, Nat.lt_of_not_le hindex, completedRegs]

/-- CLEAR writes every element if its check passes, and what the check reads stays as it is (R125). -/
theorem exec_clear_pixbuf {s t : State} (h : exec .clear s = .next t) :
    t.cfg = s.cfg ∧ t.ledInit = s.ledInit ∧
      t.pixbuf = if s.ledInit = true then fillPixels (scaledPixel s.cfg 0 0 0) s.pixbuf else s.pixbuf := by
  change execClear s = .next t at h
  unfold execClear at h
  split at h <;> cases h
  next hinit => simp [hinit]
  next hinit => simp [hinit, completedRegs]

/-- Settles O12: the second run's checks come out as the first one's, and its write is the first one's again. -/
theorem setpixAndClearAreIdempotent : Obligations.SetpixAndClearAreIdempotent := by
  unfold Obligations.SetpixAndClearAreIdempotent
  rintro i s t u (rfl | ⟨index, r, g, b, rfl⟩) hst htu
  · obtain ⟨hcfg, hinit, hpix⟩ := exec_clear_pixbuf hst
    obtain ⟨-, -, hpix'⟩ := exec_clear_pixbuf htu
    rw [hpix', hcfg, hinit, hpix]
    split
    · exact Memory.fill_fill _ _ _
    · rfl
  · obtain ⟨hcfg, hinit, hpix⟩ := exec_setpix_pixbuf hst
    obtain ⟨-, -, hpix'⟩ := exec_setpix_pixbuf htu
    rw [hpix', hcfg, hinit, hpix]
    split
    · exact Memory.write_write_same _ _ _ _
    · rfl

/-! ## The word of a command (30_encoding.md R94, R96) -/

/-- The operands of a row make a command of that row (R93). -/
theorem decodeOperands_opcode {o : Opcode} {c : Word64} {i : Instr} (h : decodeOperands o c = .ok i) :
    i.opcode = o := by
  cases o with
  | get =>
    change decodeGet c = .ok i at h
    unfold decodeGet at h
    split at h
    · cases h
    · split at h <;> cases h
      rfl
  | ledinit | setpix | clear | write | pwminit | tone | readsym | readseq | delay =>
    cases h
    rfl

/-- A word that decodes passes the test of its command's row. -/
theorem decode_matches {c : Word64} {i : Instr} (h : decode c = .ok i) :
    c &&& i.opcode.mask = i.opcode.matchWord := by
  unfold decode at h
  split at h
  · cases h
  · split at h
    next hmatch => rwa [decodeOperands_opcode h]
    · cases h

/-- WRITE uses no field, so it has one word. -/
theorem word_of_decode_write {c : Word64} (h : decode c = .ok .write) : c = 0x1300000000000000 := by
  have hmatch : c &&& BitVec.allOnes 64 = 0x1300000000000000 := decode_matches h
  rwa [BitVec.and_allOnes] at hmatch

/-! ## What pushes words (20_memory.md R71, R72) -/

@[simp] theorem idleCycle_pushedWords (s : State) : (idleCycle s).pushedWords = s.pushedWords := by
  rw [idleCycle_toClocked, advance_pushedWords]

@[simp] theorem accept_pushedWords (rest : List Word64) (s : State) : (accept rest s).pushedWords = s.pushedWords := by
  rw [accept_toClocked, advance_pushedWords]

/-- The loop of WRITE pushes the stored pixels it goes through, in that order (40_led.md R126). -/
theorem pushPixels_pushedWords {is : List Nat} {s t : State} (h : pushPixels is s = some t) :
    ∃ px : List Pixel, is.map s.pixbuf.read = px.map some ∧
      t.pushedWords = s.pushedWords ++ px.map pixelLedWord := by
  induction is generalizing s with
  | nil =>
    cases h
    exact ⟨[], rfl, (List.append_nil _).symm⟩
  | cons i is ih =>
    unfold pushPixels at h
    split at h
    · cases h
    next p hread =>
      obtain ⟨px, hstored, hpushed⟩ := ih h
      rw [txPush_toRegs] at hstored
      refine ⟨p :: px, ?_, ?_⟩
      · rw [List.map_cons, List.map_cons, hread, hstored]
      · rw [hpushed, txPush_pushedWords, List.append_assoc, List.map_cons, List.singleton_append]

/-- The words pushed have grown from `before` to `later` by the frame the 25 elements of `m` hold, pixel 0 first
(20_memory.md R65, 40_led.md R126). -/
def FramePushed (m : Memory Pixel) (before later : List LedWord) : Prop :=
  ∃ px : List Pixel, (List.range ledCount).map m.read = px.map some ∧ later = before ++ px.map pixelLedWord

/-- A frame is 25 words, word `i` that of the stored pixel `i`. -/
theorem FramePushed.words {m : Memory Pixel} {before later : List LedWord} (h : FramePushed m before later) :
    ∃ pushed, later = before ++ pushed ∧ pushed.length = ledCount ∧
      ∀ i < ledCount, pushed[i]? = (m.read i).map pixelLedWord := by
  obtain ⟨px, hstored, hlater⟩ := h
  refine ⟨_, hlater, by simpa using (congrArg List.length hstored).symm, fun i hi => ?_⟩
  have hread : some (m.read i) = px[i]?.map some := by
    simpa [List.getElem?_range hi] using congrArg (·[i]?) hstored
  obtain ⟨p, hp, hsome⟩ := Option.map_eq_some_iff.mp hread.symm
  rw [List.getElem?_map, hp, ← hsome]

/-- Of the commands that make no read, WRITE alone pushes words. -/
theorem Effect.pushedWords {s u : State} {i : Instr} {data : BitVec 32} (h : Effect s i data u) :
    u.pushedWords = s.pushedWords ∨ (i = .write ∧ FramePushed s.pixbuf s.pushedWords u.pushedWords) := by
  cases h with
  | write sent _ hpush => exact .inr ⟨rfl, pushPixels_pushedWords hpush⟩
  | ledinit pin => exact .inl (by rw [claimEngine_toClocked])
  | clear => exact .inl (by rw [storeAllPixels_toClocked])
  | tone => exact .inl (tone_pushedWords _ _ s)
  | delay => exact .inl (sleep_pushedWords _ s)
  | setpix | pwminit | getRegister | getPixel | getSymbol => exact .inl rfl

/-- The reads push nothing (42_button.md R171, R176). -/
theorem reads_pushedWords (store : Bool) (rem : Nat) (s : State) :
    (reads store rem s).2.pushedWords = s.pushedWords := by
  induction rem generalizing s with
  | zero => rfl
  | succ rem ih =>
    obtain hnone | ⟨waits, p, rest, sym, hins, hwaits, hp⟩ := press_split s.cfg s.inputs
    · obtain ⟨t, -, hpolled, hreads⟩ := reads_released (store := store) (rem := rem) hnone
      rw [hreads, hpolled.pushed, enterPoll_toClocked]
    · obtain ⟨t, -, hpolled, hreads⟩ := reads_press (store := store) (rem := rem) hins hwaits hp
      have hkept : t.pushedWords = s.pushedWords := by rw [hpolled.pushed, enterPoll_toClocked]
      rw [hreads, ih]
      cases store <;> simp [hkept]

theorem endReads_pushedWords (i : Instr) (r : Bool × State) : (endReads i r).pushedWords = r.2.pushedWords := by
  unfold endReads
  split
  · exact complete_pushedWords _ _ _
  · rw [keepWaiting_toClocked]

theorem pollReleased_pushedWords (s : State) : (pollReleased s).pushedWords = s.pushedWords := by
  rw [pollReleased, advance_pushedWords, record_toClocked, record_pushedWords]

theorem resumeRead_pushedWords (s : State) : (resumeRead s).pushedWords = s.pushedWords := by
  unfold resumeRead
  split
  · exact advance_pushedWords 1 s
  · split
    · exact pollReleased_pushedWords s
    · rw [endReads_pushedWords, reads_pushedWords]

/-- No command but WRITE pushes words, and WRITE pushes the stored frame (20_memory.md R72). -/
theorem ExecNext.pushedWords {s t : State} {i : Instr} (h : ExecNext s i t) :
    t.pushedWords = s.pushedWords ∨ (i = .write ∧ FramePushed s.pixbuf s.pushedWords t.pushedWords) := by
  cases h with
  | fault e => exact .inl (raiseFault_pushedWords e _ s)
  | completed heffect =>
    rw [complete_pushedWords]
    exact heffect.pushedWords
  | reads hbegin =>
    rw [endReads_pushedWords, reads_pushedWords]
    cases hbegin with
    | readsym => exact .inl rfl
    | readseq => exact .inl (by rw [emptySequence_toClocked])

/-- A step of the sequencer pushes nothing, or runs a WRITE that pushes the stored frame. -/
theorem runStep_pushedWords {s t : State} (h : runStep s = .next t) :
    t.pushedWords = s.pushedWords ∨
      (s.pending.head? = some 0x1300000000000000 ∧ FramePushed s.pixbuf s.pushedWords t.pushedWords) := by
  obtain ⟨rfl, -⟩ | ⟨-, -, rfl⟩ | ⟨-, -, c, rest, hpending, hrun⟩ := runStep_cases h
  · exact .inl (idleCycle_pushedWords s)
  · exact .inl (resumeRead_pushedWords s)
  · obtain ⟨e, -, rfl⟩ | ⟨i, hdec, hexec⟩ := hrun
    · exact .inl (by rw [illegalCommand, raiseFault_pushedWords, accept_pushedWords])
    · have hpush := (exec_next hexec).pushedWords
      rw [accept_pushedWords, accept_toRegs] at hpush
      refine hpush.imp_right fun ⟨hwrite, hframe⟩ => ⟨?_, hframe⟩
      subst hwrite
      rw [hpending, word_of_decode_write hdec, List.head?_cons]

/-- Settles O20: without a reset a step is the sequencer's, which pushes nothing or the frame of the WRITE it runs. -/
theorem stepKeepsWordOrder : Obligations.StepKeepsWordOrder := by
  unfold Obligations.StepKeepsWordOrder
  intro s t hrst hstep hrst'
  obtain ⟨-, ⟨hr, -⟩ | ⟨-, hrun⟩ | ⟨-, p, later, -, rfl | ⟨u, -, rfl⟩⟩⟩ := step_cases hstep
  · simp [hrst] at hr
  · obtain hnone | ⟨hhead, hframe⟩ := runStep_pushedWords hrun
    · exact ⟨[], by rw [hnone, List.append_nil], .inl rfl⟩
    · obtain ⟨pushed, hlater, hlength, hwords⟩ := hframe.words
      exact ⟨pushed, hlater, .inr ⟨hlength, hhead, hwords⟩⟩
  · simp at hrst'
  · simp at hrst'

/-! ## The frame gap (20_memory.md R74, 70_reset_and_hazards.md R281) -/

/-- An idle engine whose line has been low long enough has latched (40_led.md R134). -/
theorem txIdleRun_latched {latch idle d : Nat} (hsat : idle ≤ latch) (hd : latch ≤ idle + d) :
    (txIdleRun latch idle d).1 = ⟨[], .idle, 0, latch⟩ := by
  rw [txIdleRun, if_pos hd]
  split
  next hle => rw [Nat.le_antisymm hsat hle]
  · rfl

/-- What is left of the word, a word time for each word queued, then the latch time: a sending engine is done. -/
theorem txSendRun_latched {latch n cell d : Nat} {w : LedWord} {q : List LedWord}
    (hd : wordLeft n cell + q.length * ledWordNs + latch ≤ d) :
    (txSendRun latch w n cell d q).1 = ⟨[], .idle, 0, latch⟩ := by
  have hword : wordLeft ledWordBits 0 = ledWordNs := rfl
  induction q generalizing w n cell d with
  | nil =>
    rw [txSendRun, if_neg (by omega)]
    exact txIdleRun_latched (Nat.zero_le _) (by rw [List.length_nil] at hd; omega)
  | cons w' q ih =>
    rw [List.length_cons, Nat.add_one_mul] at hd
    rw [txSendRun, if_neg (by omega)]
    exact ih (by omega)

/-- A legal engine sends at most the words a full TXQ holds and one more, and then latches (R74). -/
theorem txRun_latched {cfg : Config} {d : Nat} {t : TxEngine} (h : t.Good cfg)
    (hd : (cfg.ledFifoDepth + 1) * ledWordNs + cfg.tLatchNs ≤ d) :
    (txRun cfg.tLatchNs d t).1 = ⟨[], .idle, 0, cfg.tLatchNs⟩ := by
  obtain ⟨q, shift, cell, idle⟩ := t
  obtain ⟨hfits, hshift⟩ := h
  cases shift with
  | idle =>
    obtain ⟨rfl, -, hsat⟩ := hshift
    exact txIdleRun_latched hsat (by omega)
  | sending w n =>
    obtain ⟨-, hbits, -, -⟩ := hshift
    refine txSendRun_latched ?_
    have hqueue : q.length * ledWordNs ≤ cfg.ledFifoDepth * ledWordNs := Nat.mul_le_mul_right _ hfits
    have hword : wordLeft n cell ≤ ledWordNs :=
      (Nat.sub_le _ _).trans (Nat.mul_le_mul_right tBitNs hbits)
    rw [Nat.add_one_mul] at hd
    show wordLeft n cell + q.length * ledWordNs + cfg.tLatchNs ≤ d
    omega

/-- Settles O21: the cycles last at least the gap in whole nanoseconds, in which the engine sends all it holds. -/
theorem frameGapLatchesTheFrame : Obligations.FrameGapLatchesTheFrame := by
  unfold Obligations.FrameGapLatchesTheFrame
  intro s k hcfg hgood hgap
  obtain ⟨-, hhz, -⟩ := Config.wf_ranges hcfg
  rw [advance_toClocked, clockedRun_tx]
  refine txRun_latched hgood ((Nat.le_div_iff_mul_le (by omega)).mpr ?_)
  exact hgap.trans (Nat.le_add_left _ _)

end Sys2Proof.Machine

/-! # PROOFS. Encoding, and the one response of a command (spec/30_encoding.md) -/

namespace Sys2Proof

/-! ## The masks of the opcode map, field by field (30_encoding.md R94) -/

/-- The mask of a row in the `p` field: 1 where the command does not use it. -/
def Opcode.pUnused : Opcode → BitVec 8
  | .ledinit | .setpix | .pwminit | .tone | .get => 0
  | .clear | .write | .readsym | .readseq | .delay => 0xFF

/-- The mask of a row in the `d` field. -/
def Opcode.dUnused : Opcode → BitVec 16
  | .tone | .readseq | .delay | .get => 0
  | .ledinit | .setpix | .clear | .write | .pwminit | .readsym => 0xFFFF

/-- The mask of a row in the `w` field. SETPIX alone uses a part of a field. -/
def Opcode.wUnused : Opcode → BitVec 32
  | .tone => 0
  | .setpix => 0xFF000000
  | .ledinit | .clear | .write | .pwminit | .readsym | .readseq | .delay | .get => 0xFFFFFFFF

theorem Opcode.mask_eq (o : Opcode) : o.mask = fieldsWord 0xFF o.pUnused o.dUnused o.wUnused := by
  cases o <;> rfl

/-- A word passes the test of a row when its opcode byte is the row's and the fields the row does not use are zero. -/
theorem Opcode.matches_iff (o : Opcode) (c : Word64) :
    c &&& o.mask = o.matchWord ↔
      opField c = o.code ∧ pField c &&& o.pUnused = 0 ∧ dField c &&& o.dUnused = 0 ∧ wField c &&& o.wUnused = 0 := by
  rw [o.mask_eq, o.matchWord_eq, and_mask_eq_iff]

/-- A test under a mask of ones is an equation. -/
theorem and_allOnes_eq_iff {w : Nat} {x y : BitVec w} : x &&& BitVec.allOnes w = y ↔ x = y := by
  rw [BitVec.and_allOnes]

/-- A word with the four given fields is the word made of them (R91). -/
theorem fieldsWord_eq {c : Word64} {op p : BitVec 8} {d : BitVec 16} {w : BitVec 32} (hop : opField c = op)
    (hp : pField c = p) (hd : dField c = d) (hw : wField c = w) : fieldsWord op p d w = c := by
  rw [← hop, ← hp, ← hd, ← hw, fieldsWord_fields]

/-! ## The decoder as the test of a row and its operands (R96) -/

/-- A word is the command `i` when it passes the test of `i`'s row and its operands there are those of `i`. -/
theorem decode_ok_iff {c : Word64} {i : Instr} :
    decode c = .ok i ↔ c &&& i.opcode.mask = i.opcode.matchWord ∧ decodeOperands i.opcode c = .ok i := by
  constructor
  · intro h
    refine ⟨Machine.decode_matches h, ?_⟩
    unfold decode at h
    split at h
    · cases h
    · split at h
      · rwa [Machine.decodeOperands_opcode h]
      · cases h
  · rintro ⟨hmatch, hops⟩
    obtain ⟨hop, -⟩ := (i.opcode.matches_iff c).mp hmatch
    simp only [decode, hop, Opcode.ofCode_code, if_pos hmatch, hops]

/-- A word is a command when it passes the test of a row and the operands of that row can be read from it. -/
theorem decode_accepts_iff {c : Word64} :
    (∃ i, decode c = .ok i) ↔ ∃ o : Opcode, c &&& o.mask = o.matchWord ∧ ∃ i, decodeOperands o c = .ok i := by
  constructor
  · rintro ⟨i, h⟩
    obtain ⟨hmatch, hops⟩ := decode_ok_iff.mp h
    exact ⟨i.opcode, hmatch, i, hops⟩
  · rintro ⟨o, hmatch, i, hops⟩
    obtain rfl : i.opcode = o := Machine.decodeOperands_opcode hops
    exact ⟨i, decode_ok_iff.mpr ⟨hmatch, hops⟩⟩

/-- The operands of GET are read when its selector is listed, with no index where it takes none (R106). -/
theorem decodeGet_ok_iff {c : Word64} {sel : Selector} {idx : BitVec 16} :
    decodeGet c = .ok (.get sel idx) ↔
      pField c = sel.code ∧ dField c = idx ∧ (Instr.get sel idx).wellFormed = true := by
  constructor
  · intro h
    unfold decodeGet at h
    split at h
    · cases h
    next hsel =>
      split at h
      next hidx =>
        cases h
        exact ⟨(Selector.code_of_ofCode hsel).symm, rfl, hidx⟩
      · cases h
  · rintro ⟨hsel, rfl, hwf⟩
    simp only [Instr.wellFormed] at hwf
    simp only [decodeGet, hsel, Selector.ofCode_code, hwf, if_true]

/-! ## Encoding and decoding -/

/-- The word of an instruction passes the test of its row (R94, R96). -/
theorem encode_matches (i : Instr) : encode i &&& i.opcode.mask = i.opcode.matchWord := by
  cases i with
  | ledinit pin => exact Laws.OpcodeMatches.ledinit pin
  | setpix index r g b => exact Laws.OpcodeMatches.setpix index r g b
  | clear => exact Laws.OpcodeMatches.clear
  | write => exact Laws.OpcodeMatches.write
  | pwminit pin => exact Laws.OpcodeMatches.pwminit pin
  | tone pin f ms => exact Laws.OpcodeMatches.tone pin f ms
  | readsym => exact Laws.OpcodeMatches.readsym
  | readseq length => exact Laws.OpcodeMatches.readseq length
  | delay ms => exact Laws.OpcodeMatches.delay ms
  | get sel idx => exact Laws.OpcodeMatches.get sel idx

/-- A channel of a SETPIX word lies in its `w` field (R93). -/
theorem extract_eq_extract_wField (c : Word64) {n : Nat} (h : n + 8 ≤ 32) :
    c.extractLsb' n 8 = (wField c).extractLsb' n 8 :=
  (BitVec.extractLsb'_extractLsb'_of_le h).symm

/-- The channels read from the `w` field that packs them (R95). -/
theorem extract_channels (r g b : BitVec 8) :
    ((0 : BitVec 8) ++ r ++ g ++ b).extractLsb' 16 8 = r ∧ ((0 : BitVec 8) ++ r ++ g ++ b).extractLsb' 8 8 = g ∧
      ((0 : BitVec 8) ++ r ++ g ++ b).extractLsb' 0 8 = b := by
  refine ⟨?_, ?_, BitVec.extractLsb'_append_eq_right⟩
  · rw [BitVec.extractLsb'_append_eq_of_le (by decide), BitVec.extractLsb'_append_eq_of_le (by decide)]
    exact BitVec.extractLsb'_append_eq_right
  · rw [BitVec.extractLsb'_append_eq_of_le (by decide)]
    exact BitVec.extractLsb'_append_eq_right

/-- A `w` field that passes the mask of SETPIX packs the channels read from it (R105). -/
theorem append_extract_channels {w : BitVec 32} (h : w &&& 0xFF000000 = 0) :
    (0 : BitVec 8) ++ w.extractLsb' 16 8 ++ w.extractLsb' 8 8 ++ w.extractLsb' 0 8 = w := by
  have htop : w.extractLsb' 24 8 = 0 := by
    have hbyte := congrArg (BitVec.extractLsb' 24 8) h
    rw [BitVec.extractLsb'_and] at hbyte
    exact and_allOnes_eq_iff.mp hbyte
  have hrg : w.extractLsb' 24 8 ++ w.extractLsb' 16 8 = w.extractLsb' 16 16 :=
    BitVec.extractLsb'_append_extractLsb'_eq_extractLsb' rfl
  have hrgb : w.extractLsb' 16 16 ++ w.extractLsb' 8 8 = w.extractLsb' 8 24 :=
    BitVec.extractLsb'_append_extractLsb'_eq_extractLsb' rfl
  rw [← htop, hrg, hrgb]
  exact BitVec.extractLsb'_append_extractLsb'

/-- The operands read from an instruction's word are its operands (R93). -/
theorem decodeOperands_encode {i : Instr} (h : i.wellFormed = true) : decodeOperands i.opcode (encode i) = .ok i := by
  cases i with
  | setpix index r g b =>
    obtain ⟨hr, hg, hb⟩ := extract_channels r g b
    have hw : wField (encode (.setpix index r g b)) = (0 : BitVec 8) ++ r ++ g ++ b := wField_fieldsWord ..
    have hp : pField (encode (.setpix index r g b)) = index := pField_fieldsWord ..
    simp only [Instr.opcode, decodeOperands, hp, extract_eq_extract_wField, Nat.reduceAdd, Nat.reduceLeDiff, hw, hr, hg,
      hb]
  | get sel idx => exact decodeGet_ok_iff.mpr ⟨pField_fieldsWord .., dField_fieldsWord .., h⟩
  | ledinit | clear | write | pwminit | tone | readsym | readseq | delay => simp [decodeOperands, encode, Instr.opcode]

/-- Settles O1: the word of a command passes its row's test, and its operands are read back from it. -/
theorem decodeInvertsEncode : Obligations.DecodeInvertsEncode := by
  unfold Obligations.DecodeInvertsEncode
  exact fun i hwf => decode_ok_iff.mpr ⟨encode_matches i, decodeOperands_encode hwf⟩

/-- A word that decodes has in every field what its command encodes there: the operand, or the zero its row's mask
demands (R93, R105). -/
theorem encode_of_decode {c : Word64} {i : Instr} (h : decode c = .ok i) : i.wellFormed = true ∧ encode i = c := by
  obtain ⟨hmatch, hops⟩ := decode_ok_iff.mp h
  obtain ⟨hop, hp, hd, hw⟩ := (i.opcode.matches_iff c).mp hmatch
  cases i with
  | ledinit pin | pwminit pin =>
    cases hops
    exact ⟨rfl, fieldsWord_eq hop rfl (and_allOnes_eq_iff.mp hd) (and_allOnes_eq_iff.mp hw)⟩
  | setpix index r g b =>
    cases hops
    refine ⟨rfl, fieldsWord_eq hop rfl (and_allOnes_eq_iff.mp hd) ?_⟩
    have hchannel {n : Nat} (h : n + 8 ≤ 32) := extract_eq_extract_wField c h
    rw [hchannel (by decide), hchannel (by decide), hchannel (by decide), append_extract_channels hw]
  | clear | write | readsym =>
    exact ⟨rfl, fieldsWord_eq hop (and_allOnes_eq_iff.mp hp) (and_allOnes_eq_iff.mp hd) (and_allOnes_eq_iff.mp hw)⟩
  | tone pin f ms =>
    cases hops
    exact ⟨rfl, fieldsWord_eq hop rfl rfl rfl⟩
  | readseq length | delay length =>
    cases hops
    exact ⟨rfl, fieldsWord_eq hop (and_allOnes_eq_iff.mp hp) rfl (and_allOnes_eq_iff.mp hw)⟩
  | get sel idx =>
    obtain ⟨hsel, hidx, hwf⟩ := decodeGet_ok_iff.mp hops
    exact ⟨hwf, fieldsWord_eq hop hsel hidx (and_allOnes_eq_iff.mp hw)⟩

/-- Settles O2, by the fields of the word, row by row. -/
theorem encodeInvertsDecode : Obligations.EncodeInvertsDecode := by
  unfold Obligations.EncodeInvertsDecode
  exact fun _ _ => encode_of_decode

/-! ## Which words are commands -/

/-- Every code from 0 to 7 is a selector's (10_state.md R44). -/
theorem Selector.exists_code_of_le_seven {p : BitVec 8} (h : p.toNat ≤ 7) : ∃ sel : Selector, sel.code = p := by
  have hcodes : ∀ n : Fin 8, (Selector.all[n.val]?).map Selector.code = some (BitVec.ofNat 8 n) := by decide
  obtain ⟨sel, -, hsel⟩ := Option.map_eq_some_iff.mp (hcodes ⟨p.toNat, by omega⟩)
  exact ⟨sel, by simpa using hsel⟩

/-- The words from which the operands of a GET can be read (R106). -/
theorem decodeGet_accepts_iff {c : Word64} :
    (∃ i, decodeGet c = .ok i) ↔ ((pField c).toNat ≤ 7 ∧ dField c = 0) ∨ pField c = 0x10 ∨ pField c = 0x11 := by
  constructor
  · rintro ⟨i, h⟩
    have hrow : i.opcode = .get := Machine.decodeOperands_opcode (o := .get) h
    cases i with
    | get sel idx =>
      obtain ⟨hsel, rfl, hwf⟩ := decodeGet_ok_iff.mp h
      rw [hsel]
      cases sel with
      | pixbuf => exact .inr (.inl rfl)
      | seqbuf => exact .inr (.inr rfl)
      | status | pwmCsr | pwmTop | pwmLevel | pwmCtr | ledCsr | result | seqlen =>
        exact .inl ⟨by decide, eq_of_beq hwf⟩
    | ledinit | setpix | clear | write | pwminit | tone | readsym | readseq | delay => cases hrow
  · rintro (⟨hp, hd⟩ | hp | hp)
    · obtain ⟨sel, hsel⟩ := Selector.exists_code_of_le_seven hp
      exact ⟨.get sel 0, decodeGet_ok_iff.mpr ⟨hsel.symm, hd, by simp [Instr.wellFormed]⟩⟩
    · exact ⟨.get .pixbuf (dField c), decodeGet_ok_iff.mpr ⟨hp, rfl, rfl⟩⟩
    · exact ⟨.get .seqbuf (dField c), decodeGet_ok_iff.mpr ⟨hp, rfl, rfl⟩⟩

/-- The rows of the opcode map, one by one (R94). -/
theorem Opcode.exists_iff {P : Opcode → Prop} :
    (∃ o, P o) ↔ P .ledinit ∨ P .setpix ∨ P .clear ∨ P .write ∨ P .pwminit ∨ P .tone ∨ P .readsym ∨ P .readseq ∨
      P .delay ∨ P .get := by
  constructor
  · rintro ⟨o, h⟩
    cases o <;> simp [h]
  · rintro (h | h | h | h | h | h | h | h | h | h) <;> exact ⟨_, h⟩

/-- Settles O3: a word is a command of some row; in every row but that of GET the operands can be read from any word that
passes the row's test, which for a row without operands compares the whole word. -/
theorem decodeAcceptsExactlyTheTable : Obligations.DecodeAcceptsExactlyTheTable := by
  unfold Obligations.DecodeAcceptsExactlyTheTable
  intro c
  rw [decode_accepts_iff, Opcode.exists_iff]
  refine or_congr ?ledinit <| or_congr ?setpix <| or_congr ?clear <| or_congr ?write <| or_congr ?pwminit <|
    or_congr ?tone <| or_congr ?readsym <| or_congr ?readseq <| or_congr ?delay ?get
  case ledinit | setpix | pwminit | tone | readseq | delay => exact and_iff_left ⟨_, rfl⟩
  case clear | write | readsym => exact (and_iff_left ⟨_, rfl⟩).trans and_allOnes_eq_iff
  case get => exact and_congr_right' decodeGet_accepts_iff

/-- Settles O4: nine evaluations of the decoder. -/
theorem specWordsDecode : Obligations.SpecWordsDecode := by
  unfold Obligations.SpecWordsDecode
  decide

end Sys2Proof

namespace Sys2Proof.Machine

/-! ## An illegal word halts (30_encoding.md R96) -/

theorem runCommand_error {c : Word64} {e : DecodeError} (h : decode c = .error e) (s : State) :
    runCommand c s = .next (haltedState .illegal c s) := by
  simp only [runCommand, h, illegalCommand, raiseFault_eq_haltedState]

/-- Settles O6: the sequencer accepts the word, the decoder rejects it, and the halt takes no time. -/
theorem illegalWordHalts : Obligations.IllegalWordHalts := by
  unfold Obligations.IllegalWordHalts
  intro s c rest e hcfg hready hpending hdec hnow hend
  have hrun : runStep s = .next (haltedState .illegal c (accept rest s)) := by
    rw [runStep_command hready hpending, runCommand_error hdec]
  rw [← hrun]
  refine step_runStep hcfg (s.cmdReady_iff.mp hready).2.2 hnow fun t ht => ?_
  rw [hrun] at ht
  cases ht
  exact hend

/-! ## The responses of a trace (10_state.md R46) -/

/-- The response word an event records, if it is a response. -/
def Event.response? (e : Event) : Option Word64 :=
  match e with
  | .rsp w => some w
  | _ => none

/-- The response words of a trace, oldest first. -/
def responsesOf (es : List Event) : List Word64 := es.filterMap Event.response?

theorem responsesOf_append (es fs : List Event) : responsesOf (es ++ fs) = responsesOf es ++ responsesOf fs :=
  List.filterMap_append

/-- Every response is the sequencer's. -/
theorem responsesOf_sequencerEvents (es : List Event) : responsesOf (sequencerEvents es) = responsesOf es := by
  unfold responsesOf sequencerEvents
  rw [List.filterMap_filter]
  congr 1
  funext e
  cases e <;> rfl

/-- The responses a stretch of the sequencer adds are those among the events it adds. -/
theorem responsesOf_of_sequencerEvents {es fs added : List Event}
    (h : sequencerEvents fs = sequencerEvents es ++ added) : responsesOf fs = responsesOf es ++ responsesOf added := by
  rw [← responsesOf_sequencerEvents fs, h, responsesOf_append, responsesOf_sequencerEvents]

/-! ## No response inside a command (30_encoding.md R100) -/

/-- From `s` to `t` no response is given and no completion counted (R23). -/
structure Unanswered (s t : State) : Prop where
  responses : responsesOf t.trace = responsesOf s.trace
  completions : t.cp = s.cp

theorem Unanswered.trans {s t u : State} (h : Unanswered s t) (h' : Unanswered t u) : Unanswered s u :=
  ⟨h'.responses.trans h.responses, h'.completions.trans h.completions⟩

/-- The sequencer's events since `s` hold no response. -/
theorem Unanswered.of_events {s t : State} {added : List Event}
    (hevents : sequencerEvents t.trace = sequencerEvents s.trace ++ added) (hnone : responsesOf added = [])
    (hcp : t.cp = s.cp) : Unanswered s t :=
  ⟨by rw [responsesOf_of_sequencerEvents hevents, hnone, List.append_nil], hcp⟩

theorem accept_unanswered (rest : List Word64) (s : State) : Unanswered s (accept rest s) :=
  .of_events (added := []) (by simp [accept_toClocked]) rfl rfl

theorem idleCycle_unanswered (s : State) : Unanswered s (idleCycle s) :=
  .of_events (added := []) (by simp) rfl rfl

theorem pollReleased_unanswered (s : State) : Unanswered s (pollReleased s) := by
  refine .of_events (added := [.polled Sample.released.aN Sample.released.bN]) ?_ rfl rfl
  rw [pollReleased, advance_sequencerEvents, record_sequencerEvents]

theorem Polled.unanswered {seen : List Sample} {n : Nat} {s t : State} (h : Polled seen n s t) : Unanswered s t := by
  refine .of_events h.events ?_ (by rw [h.regs])
  simp [responsesOf, Event.response?]

theorem pressed_unanswered (store : Bool) (sym : Symbol) (s : State) :
    Unanswered s (if store then storeSymbol sym (feedback sym s) else feedback sym s) := by
  have hread : Unanswered s (feedback sym s) :=
    .of_events (feedback_sequencerEvents sym s) rfl (by rw [feedback_toRegs])
  cases store with
  | false => exact hread
  | true => exact hread.trans ⟨rfl, rfl⟩

/-- WRITE records no event of the sequencer until it completes. -/
theorem pushPixels_sequencerEvents {is : List Nat} {s t : State} (h : pushPixels is s = some t) :
    sequencerEvents t.trace = sequencerEvents s.trace := by
  induction is generalizing s with
  | nil =>
    cases h
    rfl
  | cons i is ih =>
    unfold pushPixels at h
    split at h
    · cases h
    · rw [ih h, txPush_sequencerEvents]

/-- A command that makes no read gives no response before its completion. -/
theorem Effect.unanswered {s u : State} {i : Instr} {data : BitVec 32} (h : Effect s i data u) : Unanswered s u := by
  cases h with
  | write sent _ hpush =>
    refine .of_events (added := []) ?_ rfl (by rw [pushPixels_toRegs hpush])
    rw [pushPixels_sequencerEvents hpush, List.append_nil]
  | tone pin f ms => exact .of_events (tone_sequencerEvents _ _ s) rfl (by rw [tone_toRegs])
  | delay ms => exact .of_events (sleep_sequencerEvents _ s) rfl (by rw [sleep_toRegs])
  | ledinit | setpix | clear | pwminit | getRegister | getPixel | getSymbol => exact ⟨rfl, rfl⟩

theorem ReadsBegin.unanswered {s u : State} {i : Instr} {rem : Nat} (h : ReadsBegin s i rem u) : Unanswered s u := by
  cases h <;> exact ⟨rfl, rfl⟩

/-! ## One response at the end of a command (R100, R23) -/

/-- From `s` to `t` a command has run: one that has ended gives its response, which is the only one, and counts if it is
no fault; one that waits gives none. -/
structure Answers (s t : State) : Prop where
  valid : t.rspValid = !t.busy
  responses : responsesOf t.trace = responsesOf s.trace ++ if t.rspValid then [t.rspData] else []
  completions : t.cp = s.cp + if t.rspValid && !t.halted then 1 else 0

theorem Unanswered.answers {s t u : State} (h : Unanswered s t) (h' : Answers t u) : Answers s u :=
  ⟨h'.valid, by rw [h'.responses, h.responses], by rw [h'.completions, h.completions]⟩

/-- Without a response nothing is counted. -/
theorem Unanswered.silent {s t : State} (h : Unanswered s t) (hquiet : t.rspValid = false) :
    responsesOf t.trace = responsesOf s.trace ++ (if t.rspValid then [t.rspData] else []) ∧
      t.cp = s.cp + if t.rspValid && !t.halted then 1 else 0 := by
  simp [hquiet, h.responses, h.completions]

/-- A read that waits with BUSY = 1 gives no response (60_exceptions.md R246). -/
theorem Unanswered.waits {s t : State} (h : Unanswered s t) (hbusy : t.busy = true) (hquiet : t.rspValid = false) :
    Answers s t :=
  ⟨by rw [hquiet, hbusy]; rfl, (h.silent hquiet).1, (h.silent hquiet).2⟩

theorem complete_answers (i : Instr) (data : BitVec 32) {s : State} (h : s.halted = false) :
    Answers s (complete i data s) := by
  refine ⟨?_, ?_, ?_⟩
  · rw [complete_toRegs]
    rfl
  · rw [responsesOf_of_sequencerEvents (complete_sequencerEvents i data s), complete_toRegs]
    rfl
  · rw [complete_toRegs, completedRegs, h]
    rfl

theorem raiseFault_answers (e : Err) (c : Word64) (s : State) : Answers s (raiseFault e c s) := by
  refine ⟨?_, ?_, ?_⟩
  · rw [raiseFault_toRegs]
    rfl
  · rw [responsesOf_of_sequencerEvents (raiseFault_sequencerEvents e c s), raiseFault_toRegs]
    rfl
  · rw [raiseFault_toRegs]
    rfl

/-- A run of reads ends its command with a response or leaves it waiting without one: by induction on the reads left. -/
theorem State.Reading.endReads_answers {i : Instr} {left : Nat} {s : State} (h : s.Reading i left) :
    Answers s (endReads i (reads (readStores i) left s)) := by
  induction left generalizing s with
  | zero => exact Unanswered.answers (t := enterIdle s) ⟨rfl, rfl⟩ (complete_answers i _ h.notHalted)
  | succ left ih =>
    have hpoll : Unanswered s (enterPoll (left + 1) s) := ⟨rfl, rfl⟩
    obtain hnone | ⟨waits, p, rest, sym, hins, hwaits, hp⟩ := press_split s.cfg s.inputs
    · obtain ⟨t, -, hpolled, hreads⟩ := reads_released (store := readStores i) (rem := left) hnone
      rw [hreads]
      have hwaits : Unanswered t (keepWaiting i t) := ⟨rfl, rfl⟩
      exact ((hpoll.trans hpolled.unanswered).trans hwaits).waits rfl (h.polled hpolled).noResponse
    · obtain ⟨t, -, hpolled, hreads⟩ := reads_press (store := readStores i) (rem := left) hins hwaits hp
      rw [hreads]
      exact ((hpoll.trans hpolled.unanswered).trans (pressed_unanswered _ sym t)).answers
        (ih ((h.polled hpolled).pressed sym))

/-- Every command that runs is answered once, at its end. -/
theorem ExecNext.answers {s t : State} {i : Instr} (h : ExecNext s i t) (hs : s.Executing)
    (hquiet : s.rspValid = false) : Answers s t := by
  cases h with
  | fault e => exact raiseFault_answers e _ s
  | completed heffect => exact heffect.unanswered.answers (complete_answers i _ (heffect.executing hs).notHalted)
  | reads hbegin => exact hbegin.unanswered.answers (hbegin.reading hs hquiet).endReads_answers

theorem resumeRead_answers {s : State} (hs : s.Executing) (hwait : s.Waiting) : Answers s (resumeRead s) := by
  obtain ⟨i, hrun, hreading⟩ := hwait.reading hs
  unfold resumeRead
  split
  next hnone => rw [hnone] at hrun; cases hrun
  next j hj =>
    obtain rfl : j = i := Option.some.inj (hj.symm.trans hrun)
    split
    · exact (pollReleased_unanswered s).waits hwait.busy hwait.noResponse
    · exact hreading.endReads_answers

/-- A step of the sequencer either accepts nothing and gives no response, or runs a command, just accepted or waiting. -/
theorem runStep_answers {s t : State} (h : s.Inv) (hrst : s.rst = false) (hrun : runStep s = .next t) :
    (((s.cmdReady = true ∧ s.pending ≠ []) ∨ s.busy = true) ∧ Answers s t) ∨
      (¬ ((s.cmdReady = true ∧ s.pending ≠ []) ∨ s.busy = true) ∧ t.rspValid = false ∧ Unanswered s t) := by
  obtain ⟨rfl, hstill⟩ | ⟨hhalted, hbusy, rfl⟩ | ⟨hhalted, hbusy, c, rest, hpending, hcmd⟩ := runStep_cases hrun
  · refine .inr ⟨?_, rfl, idleCycle_unanswered s⟩
    rw [s.cmdReady_iff]
    obtain hhalted | ⟨hbusy, hnone⟩ := hstill
    · simp [hhalted, h.haltedNotBusy hhalted]
    · simp [hbusy, hnone]
  · exact .inl ⟨.inr hbusy, resumeRead_answers ⟨h.legal, h.clockOk, hrst, hhalted⟩ (h.wait hbusy)⟩
  · refine .inl ⟨.inl ⟨s.cmdReady_iff.mpr ⟨hbusy, hhalted, hrst⟩, by simp [hpending]⟩,
      (accept_unanswered rest s).answers ?_⟩
    obtain ⟨e, -, rfl⟩ | ⟨i, -, hi⟩ := hcmd
    · exact raiseFault_answers .illegal c _
    · exact (exec_next hi).answers (h.accept_executing hrst hhalted rest) rfl

/-- Settles O7: without a reset a step is the sequencer's, which runs a command to its end, to its wait, or not at all. -/
theorem oneResponsePerCommand : Obligations.OneResponsePerCommand := by
  unfold Obligations.OneResponsePerCommand
  intro s t hs hrst hstep hrst'
  obtain ⟨-, ⟨hr, -⟩ | ⟨-, hrun⟩ | ⟨-, p, later, -, rfl | ⟨u, -, rfl⟩⟩⟩ := step_cases hstep
  · simp [hrst] at hr
  · obtain ⟨hruns, hanswers⟩ | ⟨hnot, hquiet, hsilent⟩ := runStep_answers hs hrst hrun
    · exact ⟨by simp [hruns, hanswers.valid], hanswers.responses, hanswers.completions⟩
    · exact ⟨by simp [hquiet, hnot], hsilent.silent hquiet⟩
  · simp at hrst'
  · simp at hrst'

end Sys2Proof.Machine

/-! # PROOFS. The LED unit: its commands, the timing engine, and the frame of a WRITE (spec/40_led.md) -/

namespace Sys2Proof.Machine

/-! ## The scaled write (R122, R124) -/

/-- A product with a legal BRIGHTNESS, divided by 150, is a channel again (R122). -/
theorem scale_toNat {cfg : Config} (c : BitVec 8) (h : cfg.brightness ≤ brightDiv) :
    (scale cfg c).toNat = c.toNat * cfg.brightness / brightDiv ∧ (scale cfg c).toNat ≤ c.toNat := by
  have hle : c.toNat * cfg.brightness / brightDiv ≤ c.toNat :=
    Nat.div_le_of_le_mul (by rw [Nat.mul_comm brightDiv]; exact Nat.mul_le_mul_left _ h)
  have hval : (scale cfg c).toNat = c.toNat * cfg.brightness / brightDiv := by
    rw [scale, BitVec.toNat_ofNat]
    exact Nat.mod_eq_of_lt (Nat.lt_of_le_of_lt hle c.isLt)
  exact ⟨hval, hval.trans_le hle⟩

@[simp] theorem scale_zero (cfg : Config) : scale cfg 0#8 = 0#8 := by simp [scale]

theorem scale_mono {cfg : Config} {c d : BitVec 8} (h : cfg.brightness ≤ brightDiv) (hcd : c ≤ d) :
    scale cfg c ≤ scale cfg d := by
  rw [BitVec.le_def] at hcd ⊢
  rw [(scale_toNat c h).1, (scale_toNat d h).1]
  exact Nat.div_le_div_right (Nat.mul_le_mul_right _ hcd)

/-- CLEAR's scaled write of (0, 0, 0) stores (0, 0, 0), whatever BRIGHTNESS is (R125). -/
theorem scaledPixel_zero (cfg : Config) : scaledPixel cfg 0 0 0 = darkPixel := by
  simp [scaledPixel, darkPixel]

/-- Settles O15: the exact value gives the laws. -/
theorem scaleFollowsRule : Obligations.ScaleFollowsRule := by
  unfold Obligations.ScaleFollowsRule
  refine ⟨fun cfg c hwf => scale_toNat c (Config.wf_ranges hwf).1, scale_zero,
    fun cfg c d hwf => scale_mono (Config.wf_ranges hwf).1, fun cfg c hdark => ?_, fun cfg c hfull => ?_,
    fun cfg hworked => ?_⟩
  · simp [scale, hdark]
  · apply BitVec.eq_of_toNat_eq
    rw [(scale_toNat c hfull.le).1, hfull]
    exact Nat.mul_div_cancel _ (by decide)
  · simp [scale, hworked, brightDiv]

/-! ## The commands of the unit, check by check (R121, R123, R125, R126, R233) -/

theorem exec_ledinit_noEngine {s : State} (pin : BitVec 8) (h : s.engFree = 0) :
    exec (.ledinit pin) s = .next (raiseFault .noEngine (encode (.ledinit pin)) s) := if_pos h

theorem exec_ledinit_completes {s : State} (pin : BitVec 8) (h : s.engFree ≠ 0) :
    exec (.ledinit pin) s = .next (complete (.ledinit pin) 0 (claimEngine pin s)) := if_neg h

theorem exec_setpix_notInit {s : State} (index r g b : BitVec 8) (h : s.ledInit = false) :
    exec (.setpix index r g b) s = .next (raiseFault .notInit (encode (.setpix index r g b)) s) := if_pos h

theorem exec_setpix_index {s : State} {index : BitVec 8} (r g b : BitVec 8) (h : s.ledInit = true)
    (hindex : ledCount ≤ index.toNat) :
    exec (.setpix index r g b) s = .next (raiseFault .index (encode (.setpix index r g b)) s) := by
  rw [exec, execSetpix, if_neg (by simp [h]), if_pos hindex]

theorem exec_setpix_completes {s : State} {index : BitVec 8} (r g b : BitVec 8) (h : s.ledInit = true)
    (hindex : index.toNat < ledCount) :
    exec (.setpix index r g b) s =
      .next (complete (.setpix index r g b) 0 (storePixel index.toNat (scaledPixel s.cfg r g b) s)) := by
  rw [exec, execSetpix, if_neg (by simp [h]), if_neg (Nat.not_le.mpr hindex)]

theorem exec_clear_notInit {s : State} (h : s.ledInit = false) :
    exec .clear s = .next (raiseFault .notInit (encode .clear) s) := if_pos h

theorem exec_clear_completes {s : State} (h : s.ledInit = true) :
    exec .clear s = .next (complete .clear 0 (storeAllPixels darkPixel s)) := by
  rw [exec, execClear, if_neg (by simp [h]), scaledPixel_zero]

theorem exec_write_notInit {s : State} (h : s.ledInit = false) :
    exec .write s = .next (raiseFault .notInit (encode .write) s) := if_pos h

theorem exec_write_completes {s sent : State} (h : s.ledInit = true)
    (hpush : pushPixels (List.range ledCount) s = some sent) : exec .write s = .next (complete .write 0 sent) := by
  simp only [exec, execWrite, h, hpush, Bool.true_eq_false, if_false]

/-- Settles O14: each failed check is the halt of R240. -/
theorem ledCommandsHaltOnFailedCheck : Obligations.LedCommandsHaltOnFailedCheck := by
  unfold Obligations.LedCommandsHaltOnFailedCheck
  intro s
  simp only [← raiseFault_eq_haltedState]
  exact ⟨fun pin => exec_ledinit_noEngine pin,
    fun hinit => ⟨fun index r g b => exec_setpix_notInit index r g b hinit, exec_clear_notInit hinit,
      exec_write_notInit hinit⟩,
    fun hinit index r g b => exec_setpix_index r g b hinit⟩

/-! ## What a command that writes only registers leaves of the clocked part -/

/-- What time makes of the clocked part depends on these registers alone. -/
theorem clockedRun_congr {r r' : Regs} (k : Nat) (c : Clocked) (hcfg : r'.cfg = r.cfg) (hen : r'.pwmEn = r.pwmEn)
    (hdiv : r'.pwmDiv = r.pwmDiv) (htop : r'.pwmTop = r.pwmTop) : clockedRun r' k c = clockedRun r k c := by
  simp only [clockedRun, hcfg, hen, hdiv, htop]

theorem fillPixels_read_of_lt (px : Pixel) (m : Memory Pixel) {j : Nat} (h : j < ledCount) :
    (fillPixels px m).read j = some px := (fillPixels_read px m j).trans (if_pos h)

theorem fillPixels_read_of_ge (px : Pixel) (m : Memory Pixel) {j : Nat} (h : ledCount ≤ j) :
    (fillPixels px m).read j = m.read j := (fillPixels_read px m j).trans (if_neg (Nat.not_lt.mpr h))

/-- The response of a completion without data is the row's match word (30_encoding.md R100). -/
theorem responseWord_noData (o : Opcode) : responseWord o.code 0 0 = o.matchWord := by
  cases o <;> decide

/-- A command that has written none of the clocked part, nor what the counter runs by, only lets time pass. -/
theorem onlyTimePassed_complete {i : Instr} {data : BitVec 32} {w : Word64} {s u : State}
    (hw : responseWord i.opcode.code 0 data = w) (hclock : u.toClocked = s.toClocked) (hcfg : u.cfg = s.cfg)
    (hen : u.pwmEn = s.pwmEn) (hdiv : u.pwmDiv = s.pwmDiv) (htop : u.pwmTop = s.pwmTop) :
    OnlyTimePassed w s (complete i data u) := by
  refine ⟨Config.freeCycles u.freeIdx, ?_⟩
  rw [complete_toClocked, gap_toClocked, record_toClocked, advance_toClocked, hclock, hw,
    clockedRun_congr _ _ hcfg hen hdiv htop]

/-- Settles O9: with an engine free LEDINIT is its writes and a completion. -/
theorem ledinitClaimsEngineAndZeroesBuffer : Obligations.LedinitClaimsEngineAndZeroesBuffer := by
  unfold Obligations.LedinitClaimsEngineAndZeroesBuffer
  intro s pin hfree
  have hpos : s.engFree.toNat ≠ 0 := fun h => hfree (BitVec.eq_of_toNat_eq h)
  exact ⟨_, exec_ledinit_completes pin hfree, BitVec.toNat_sub_of_le (show 1 ≤ s.engFree.toNat by omega), rfl, rfl,
    fun j => fillPixels_read_of_lt darkPixel s.pixbuf, fun j => fillPixels_read_of_ge darkPixel s.pixbuf,
    responseWord_noData .ledinit, complete_toRegs _ _ _,
    onlyTimePassed_complete (responseWord_noData .ledinit) (claimEngine_toClocked pin s) rfl rfl rfl rfl⟩

/-- Settles O10: with its two checks passed SETPIX is one write of the scaled pixel and a completion. -/
theorem setpixStoresScaledPixel : Obligations.SetpixStoresScaledPixel := by
  unfold Obligations.SetpixStoresScaledPixel
  intro s index r g b hinit hindex
  exact ⟨_, exec_setpix_completes r g b hinit hindex, Memory.read_write_same s.pixbuf _ _,
    fun j hj => Memory.read_write_other s.pixbuf _ hj, responseWord_noData .setpix, complete_toRegs _ _ _,
    onlyTimePassed_complete (responseWord_noData .setpix) rfl rfl rfl rfl rfl⟩

/-- Settles O11: after LEDINIT CLEAR is one fill with the dark pixel and a completion. -/
theorem clearZeroesEveryPixel : Obligations.ClearZeroesEveryPixel := by
  unfold Obligations.ClearZeroesEveryPixel
  intro s hinit
  exact ⟨_, exec_clear_completes hinit, fun j => fillPixels_read_of_lt darkPixel s.pixbuf,
    fun j => fillPixels_read_of_ge darkPixel s.pixbuf, responseWord_noData .clear, complete_toRegs _ _ _,
    onlyTimePassed_complete (responseWord_noData .clear) (storeAllPixels_toClocked darkPixel s) rfl rfl rfl rfl⟩

/-! ## PIXBUF holds only scaled values (R124) -/

/-- What keeps PIXBUF and the configuration keeps the stored pixels scaled. -/
theorem State.PixbufScaled.congr {s t : State} (h : s.PixbufScaled) (hcfg : t.cfg = s.cfg)
    (hpix : t.pixbuf = s.pixbuf) : t.PixbufScaled := by
  unfold State.PixbufScaled
  rw [hcfg, hpix]
  exact h

theorem State.PixbufScaled.storePixel {s : State} (h : s.PixbufScaled) (i : Nat) (r g b : BitVec 8) :
    (storePixel i (scaledPixel s.cfg r g b) s).PixbufScaled := by
  intro j px hread
  rw [storePixel_toRegs, Memory.read_write] at hread
  split at hread
  · exact ⟨r, g, b, (Option.some.inj hread).symm⟩
  · exact h j px hread

/-- A fill with the dark pixel, which is the scaling of (0, 0, 0). -/
theorem State.PixbufScaled.fill {s t : State} (h : s.PixbufScaled) (hcfg : t.cfg = s.cfg)
    (hpix : t.pixbuf = fillPixels darkPixel s.pixbuf) : t.PixbufScaled := by
  intro j px hread
  rw [hpix, fillPixels_read] at hread
  split at hread
  · exact ⟨0, 0, 0, by rw [scaledPixel_zero]; exact (Option.some.inj hread).symm⟩
  · rw [hcfg]
    exact h j px hread

/-- Of the commands that make no read, LEDINIT, SETPIX and CLEAR write PIXBUF, and only scaled pixels. -/
theorem Effect.pixbufScaled {s u : State} {i : Instr} {data : BitVec 32} (h : Effect s i data u)
    (hs : s.PixbufScaled) : u.PixbufScaled := by
  cases h with
  | ledinit pin => exact hs.fill rfl rfl
  | setpix index r g b => exact hs.storePixel _ r g b
  | clear => exact hs.fill rfl (by rw [scaledPixel_zero, storeAllPixels_toRegs])
  | write sent _ hpush => exact hs.congr (by rw [pushPixels_toRegs hpush]) (by rw [pushPixels_toRegs hpush])
  | tone => exact hs.congr (by rw [tone_toRegs]) (by rw [tone_toRegs])
  | pwminit | delay | getRegister | getPixel | getSymbol => exact hs.congr rfl rfl

theorem reads_pixbuf (store : Bool) (rem : Nat) (s : State) : (reads store rem s).2.pixbuf = s.pixbuf := by
  induction rem generalizing s with
  | zero => rfl
  | succ rem ih =>
    obtain hnone | ⟨waits, p, rest, sym, hins, hwaits, hp⟩ := press_split s.cfg s.inputs
    · obtain ⟨t, -, hpolled, hreads⟩ := reads_released (store := store) (rem := rem) hnone
      rw [hreads, hpolled.regs, enterPoll_toRegs]
    · obtain ⟨t, -, hpolled, hreads⟩ := reads_press (store := store) (rem := rem) hins hwaits hp
      have hkept : t.pixbuf = s.pixbuf := by rw [hpolled.regs, enterPoll_toRegs]
      rw [hreads, ih]
      cases store <;> simp [hkept]

theorem complete_pixbuf (i : Instr) (data : BitVec 32) (s : State) : (complete i data s).pixbuf = s.pixbuf := by
  rw [complete_toRegs, completedRegs]

theorem endReads_pixbuf (i : Instr) (r : Bool × State) : (endReads i r).pixbuf = r.2.pixbuf := by
  unfold endReads
  split
  · exact complete_pixbuf _ _ _
  · rfl

theorem resumeRead_pixbuf (s : State) : (resumeRead s).pixbuf = s.pixbuf := by
  unfold resumeRead
  split
  · rfl
  · split
    · rfl
    · rw [endReads_pixbuf, reads_pixbuf]

theorem ReadsBegin.pixbuf {s u : State} {i : Instr} {rem : Nat} (h : ReadsBegin s i rem u) : u.pixbuf = s.pixbuf := by
  cases h <;> rfl

theorem ExecNext.pixbufScaled {s t : State} {i : Instr} (h : ExecNext s i t) (hs : s.PixbufScaled) :
    t.PixbufScaled := by
  cases h with
  | fault e => exact hs.congr (by rw [raiseFault_toRegs]) (by rw [raiseFault_toRegs])
  | completed heffect => exact (heffect.pixbufScaled hs).congr (complete_cfg _ _ _) (complete_pixbuf _ _ _)
  | reads hbegin =>
    exact hs.congr (by rw [endReads_cfg, reads_cfg, hbegin.cfg]) (by rw [endReads_pixbuf, reads_pixbuf, hbegin.pixbuf])

theorem runStep_pixbufScaled {s t : State} (h : runStep s = .next t) (hs : s.PixbufScaled) : t.PixbufScaled := by
  obtain ⟨rfl, -⟩ | ⟨-, -, rfl⟩ | ⟨-, -, c, rest, -, hrun⟩ := runStep_cases h
  · exact hs.congr (by rw [idleCycle_toRegs]) (by rw [idleCycle_toRegs])
  · exact hs.congr (resumeRead_cfg s) (resumeRead_pixbuf s)
  · have haccept : (accept rest s).PixbufScaled := hs.congr (by rw [accept_toRegs]) (by rw [accept_toRegs])
    obtain ⟨e, -, rfl⟩ | ⟨i, -, hexec⟩ := hrun
    · exact haccept.congr (by rw [illegalCommand, raiseFault_toRegs]) (by rw [illegalCommand, raiseFault_toRegs])
    · exact (exec_next hexec).pixbufScaled haccept

/-- After a reset PIXBUF holds no value (70_reset_and_hazards.md R271, log 9). -/
theorem pixbufScaled_of_nil {s : State} (h : s.pixbuf = []) : s.PixbufScaled := by
  intro i px hread
  rw [h, Memory.read_nil] at hread
  cases hread

theorem holdReset_pixbuf (s : State) : (holdReset s).pixbuf = [] := by
  unfold holdReset
  split <;> rfl

/-- Settles O16: each case of a step writes scaled pixels or none, and a reset leaves none. -/
theorem stepKeepsPixbufScaled : Obligations.StepKeepsPixbufScaled := by
  unfold Obligations.StepKeepsPixbufScaled
  intro s t hs hstep
  obtain ⟨-, ⟨-, rfl⟩ | ⟨-, hrun⟩ | ⟨-, p, later, -, rfl | ⟨u, -, rfl⟩⟩⟩ := step_cases hstep
  · exact pixbufScaled_of_nil (holdReset_pixbuf s)
  · exact runStep_pixbufScaled hrun hs
  · exact pixbufScaled_of_nil rfl
  · exact pixbufScaled_of_nil rfl

/-! ## The steps of the timing engine (R131, R132, R134) -/

/-- An idle engine takes the word pushed at once; a sending one leaves it in TXQ (R131, log 6). -/
theorem enqueue_idle {s : State} (w : LedWord) (hidle : s.tx.shift = .idle) (hempty : s.tx.q = []) :
    (enqueue w s).tx = ⟨[], .sending w ledWordBits, 0, 0⟩ ∧ (enqueue w s).trace = s.trace ++ [.ledWord w] := by
  simp [enqueue, txTake, hidle, hempty]

theorem enqueue_sending {s : State} {v : LedWord} {n : Nat} (w : LedWord) (hsend : s.tx.shift = .sending v n) :
    (enqueue w s).tx = { s.tx with q := s.tx.q ++ [w] } ∧ (enqueue w s).trace = s.trace := by
  simp [enqueue, txTake, hsend]

theorem txRun_sending (latch d : Nat) (q : List LedWord) (w : LedWord) (n cell idle : Nat) :
    txRun latch d ⟨q, .sending w n, cell, idle⟩ = txSendRun latch w n cell d q := rfl

theorem txRun_idle (latch d cell idle : Nat) : txRun latch d ⟨[], .idle, cell, idle⟩ = txIdleRun latch idle d := rfl

theorem txRun_take (latch d : Nat) (w : LedWord) (q : List LedWord) (cell idle : Nat) :
    txRun latch d ⟨w :: q, .idle, cell, idle⟩ =
      ((txSendRun latch w ledWordBits 0 d q).1, .ledWord w :: (txSendRun latch w ledWordBits 0 d q).2) := rfl

/-- Inside a word the engine only counts cells and bits (R131). -/
theorem txSendRun_inside {latch n cell d : Nat} (w : LedWord) (q : List LedWord) (h : d < wordLeft n cell) :
    txSendRun latch w n cell d q =
      (⟨q, .sending w (n - (cell + d) / tBitNs), (cell + d) % tBitNs, 0⟩, []) := by
  cases q <;> rw [txSendRun, if_pos h]

/-- At the end of a word the next one is taken and recorded (R131). -/
theorem txSendRun_next {latch n cell d : Nat} (w w' : LedWord) (q : List LedWord) (h : wordLeft n cell ≤ d) :
    txSendRun latch w n cell d (w' :: q) =
      ((txSendRun latch w' ledWordBits 0 (d - wordLeft n cell) q).1,
        .ledWord w' :: (txSendRun latch w' ledWordBits 0 (d - wordLeft n cell) q).2) := by
  rw [txSendRun, if_neg (Nat.not_lt.mpr h)]

/-- At the end of the last word the shifter is idle from then on (R131). -/
theorem txSendRun_last {latch n cell d : Nat} (w : LedWord) (h : wordLeft n cell ≤ d) :
    txSendRun latch w n cell d [] = txIdleRun latch 0 (d - wordLeft n cell) := by
  rw [txSendRun, if_neg (Nat.not_lt.mpr h)]

/-- Below T_LATCH_NS idle time only grows (R134). -/
theorem txIdleRun_below {latch idle d : Nat} (h : idle + d < latch) :
    txIdleRun latch idle d = (⟨[], .idle, 0, idle + d⟩, []) := by
  rw [txIdleRun, if_neg (by omega), if_neg (by omega)]

/-- Reaching T_LATCH_NS is recorded (R134). -/
theorem txIdleRun_reach {latch idle d : Nat} (hidle : idle < latch) (h : latch ≤ idle + d) :
    txIdleRun latch idle d = (⟨[], .idle, 0, latch⟩, [.ledLatch]) := by
  rw [txIdleRun, if_neg (by omega), if_pos h]

/-- It is recorded once: a latched line stays latched (R134). -/
theorem txIdleRun_stay {latch idle : Nat} (d : Nat) (h : latch ≤ idle) :
    txIdleRun latch idle d = (⟨[], .idle, 0, idle⟩, []) := by
  rw [txIdleRun, if_pos h]

/-- Settles O17: each clause is one of the engine's steps. -/
theorem engineFollowsItsSteps : Obligations.EngineFollowsItsSteps := by
  unfold Obligations.EngineFollowsItsSteps
  refine ⟨fun s w => enqueue_idle w, fun s w v n => enqueue_sending w, fun s hidle => ?_, fun latch =>
    ⟨fun q w cell idle => ?_, fun q w n hn => ?_, fun q w w' => ?_, fun hlatch w => ?_, fun idle d => txIdleRun_below,
      fun idle d => txIdleRun_reach, fun d => txIdleRun_stay d (Nat.le_refl latch)⟩⟩
  · simp [State.ledDout, hidle]
  · rw [txRun_take, txSendRun_inside w q (by decide)]
    rfl
  · have hinside : 1250 < wordLeft n 0 := by unfold wordLeft tBitNs; omega
    rw [txRun_sending, txSendRun_inside w q hinside]
    rfl
  · have hend : wordLeft 1 0 ≤ 1250 := by decide
    have htaken : txSendRun latch w' ledWordBits 0 (1250 - wordLeft 1 0) q = (⟨q, .sending w' 24, 0, 0⟩, []) :=
      txSendRun_inside w' q (by decide)
    rw [txRun_sending, txSendRun_next w w' q hend, htaken]
  · rw [txRun_sending, txSendRun_last w (by decide)]
    exact txIdleRun_below hlatch

/-- Settles O18: `txRun_eq_txTicks`, by induction on the nanoseconds. -/
theorem engineRunIsIteratedNanoseconds : Obligations.EngineRunIsIteratedNanoseconds := by
  unfold Obligations.EngineRunIsIteratedNanoseconds
  exact fun cfg d t hgood => txRun_eq_txTicks d hgood

/-- Settles O19: `j` whole cells and `e` ns into the word the shifter has come to bit 23 - j. -/
theorem wordGoesOutMsbFirst : Obligations.WordGoesOutMsbFirst := by
  unfold Obligations.WordGoesOutMsbFirst
  intro s w q j e hrst htx hj he
  have hinside : j * 1250 + e < wordLeft 24 0 := by unfold wordLeft tBitNs; omega
  have hcell : (0 + (j * 1250 + e)) / tBitNs = j ∧ (0 + (j * 1250 + e)) % tBitNs = e := by unfold tBitNs; omega
  have hbit : 24 - j - 1 = 23 - j := by omega
  have hrun : (txRun s.cfg.tLatchNs (j * 1250 + e) s.tx).1 = ⟨q, .sending w (24 - j), e, 0⟩ := by
    rw [htx, txRun_sending, txSendRun_inside w q hinside, hcell.1, hcell.2]
  rw [hrun]
  simp only [State.ledDout, highNs, hbit, hrst, Bool.not_false, Bool.and_true]

/-! ## The loop of WRITE (R126) -/

/-- It ends if every element it reads holds a value (log 9). -/
theorem pushPixels_of_held {is : List Nat} {s : State} (h : ∀ i ∈ is, (s.pixbuf.read i).isSome = true) :
    ∃ t, pushPixels is s = some t := by
  induction is generalizing s with
  | nil => exact ⟨s, rfl⟩
  | cons i is ih =>
    obtain ⟨px, hpx⟩ := Option.isSome_iff_exists.mp (h i (by simp))
    simp only [pushPixels, hpx]
    exact ih fun j hj => by rw [txPush_toRegs]; exact h j (by simp [hj])

/-- What every push keeps, the loop keeps. -/
theorem pushPixels_keeps {P : State → Prop} (hkeeps : ∀ (w : LedWord) (s : State), P s → P (txPush w s))
    {is : List Nat} {s t : State} (h : pushPixels is s = some t) (hs : P s) : P t := by
  induction is generalizing s with
  | nil =>
    cases h
    exact hs
  | cons i is ih =>
    unfold pushPixels at h
    split at h
    · cases h
    · exact ih h (hkeeps _ s hs)

/-- The pixels the 25 elements hold, one by one. -/
theorem frame_pixels {m : Memory Pixel} {px : List Pixel} (h : (List.range ledCount).map m.read = px.map some) :
    px.length = ledCount ∧ ∀ i < ledCount, m.read i = px[i]? := by
  refine ⟨by simpa using (congrArg List.length h).symm, fun i hi => ?_⟩
  have hread : some (m.read i) = px[i]?.map some := by
    simpa [List.getElem?_range hi] using congrArg (·[i]?) h
  obtain ⟨p, hp, hsome⟩ := Option.map_eq_some_iff.mp hread.symm
  rw [hp, hsome]

/-- After LEDINIT, with every pixel held, WRITE pushes the stored frame and completes (R126). -/
theorem exec_write_pushes {s : State} (hinit : s.ledInit = true)
    (hheld : ∀ i < ledCount, (s.pixbuf.read i).isSome = true) :
    ∃ (sent : State) (px : List Pixel), pushPixels (List.range ledCount) s = some sent ∧
      exec .write s = .next (complete .write 0 sent) ∧ px.length = ledCount ∧
      (∀ i < ledCount, s.pixbuf.read i = px[i]?) ∧ sent.pushedWords = s.pushedWords ++ px.map pixelLedWord := by
  obtain ⟨sent, hpush⟩ := pushPixels_of_held (s := s) fun i hi => hheld i (List.mem_range.mp hi)
  obtain ⟨px, hstored, hwords⟩ := pushPixels_pushedWords hpush
  obtain ⟨hlength, hpixels⟩ := frame_pixels hstored
  exact ⟨sent, px, hpush, exec_write_completes hinit hpush, hlength, hpixels, hwords⟩

/-! ## The PWM counter and the sleep timer run on under a push (00_scope.md R17) -/

/-- What the counter runs by is as in `s`, and the counter and the sleep timer are what `k` cycles make of those of `s`. -/
structure CounterRan (k : Nat) (s t : State) : Prop where
  enabled : t.pwmEn = s.pwmEn
  divider : t.pwmDiv = s.pwmDiv
  top : t.pwmTop = s.pwmTop
  now : t.now = s.now + k
  pre : t.pwmPre = (advance k s).pwmPre
  counter : t.pwmCtr = (advance k s).pwmCtr
  timer : t.slpCnt = (advance k s).slpCnt

theorem CounterRan.ofAdvance (k : Nat) (s : State) : CounterRan k s (advance k s) := ⟨rfl, rfl, rfl, rfl, rfl, rfl, rfl⟩

/-- Without time nothing of it changes, from every state. -/
theorem CounterRan.refl (s : State) : CounterRan 0 s s where
  enabled := rfl
  divider := rfl
  top := rfl
  now := rfl
  pre := by simp [advance_toClocked, clockedRun]
  counter := by simp [advance_toClocked, clockedRun]
  timer := by simp [advance_toClocked, clockedRun]

/-- What time makes of the PWM counter depends on these registers alone (41_tone.md R156). -/
theorem advance_counter_congr {s t : State} (k : Nat) (hen : t.pwmEn = s.pwmEn) (hdiv : t.pwmDiv = s.pwmDiv)
    (htop : t.pwmTop = s.pwmTop) (hpre : t.pwmPre = s.pwmPre) (hctr : t.pwmCtr = s.pwmCtr) :
    (advance k t).pwmPre = (advance k s).pwmPre ∧ (advance k t).pwmCtr = (advance k s).pwmCtr := by
  simp only [advance_toClocked, clockedRun]
  rw [hen, hdiv, htop, hpre, hctr]
  exact ⟨rfl, rfl⟩

/-- The cycles of two stretches add up. -/
theorem CounterRan.trans {a b : Nat} {s t u : State} (h : CounterRan a s t) (h' : CounterRan b t u) :
    CounterRan (a + b) s u where
  enabled := h'.enabled.trans h.enabled
  divider := h'.divider.trans h.divider
  top := h'.top.trans h.top
  now := by rw [h'.now, h.now, Nat.add_assoc]
  pre := by
    rw [h'.pre, advance_add]
    exact (advance_counter_congr (s := advance a s) b h.enabled h.divider h.top h.pre h.counter).1
  counter := by
    rw [h'.counter, advance_add]
    exact (advance_counter_congr (s := advance a s) b h.enabled h.divider h.top h.pre h.counter).2
  timer := by
    rw [h'.timer, advance_add]
    simp only [advance_toClocked b, clockedRun, h.timer]

/-- A change in no time that touches none of it. -/
theorem CounterRan.after {k : Nat} {s t u : State} (h : CounterRan k s t) (hen : u.pwmEn = t.pwmEn)
    (hdiv : u.pwmDiv = t.pwmDiv) (htop : u.pwmTop = t.pwmTop) (hnow : u.now = t.now) (hpre : u.pwmPre = t.pwmPre)
    (hctr : u.pwmCtr = t.pwmCtr) (htimer : u.slpCnt = t.slpCnt) : CounterRan k s u :=
  ⟨hen.trans h.enabled, hdiv.trans h.divider, htop.trans h.top, hnow.trans h.now, hpre.trans h.pre, hctr.trans h.counter,
    htimer.trans h.timer⟩

theorem counterRan_txPush (w : LedWord) (s : State) : ∃ k, CounterRan k s (txPush w s) := by
  have hfree : CounterRan 0 s (takeFree s) := (CounterRan.refl s).after rfl rfl rfl rfl rfl rfl rfl
  have hwork := hfree.trans (.ofAdvance (pushCycles s) (takeFree s))
  have hroom := hwork.trans (.ofAdvance (roomCycles (advance (pushCycles s) (takeFree s))) _)
  exact ⟨_, hroom.after rfl rfl rfl rfl rfl rfl rfl⟩

theorem counterRan_complete (i : Instr) (data : BitVec 32) (s : State) : ∃ k, CounterRan k s (complete i data s) := by
  have hfree : CounterRan 0 s (takeFree s) := (CounterRan.refl s).after rfl rfl rfl rfl rfl rfl rfl
  exact ⟨_, (hfree.trans (.ofAdvance (Config.freeCycles s.freeIdx) _)).after rfl rfl rfl rfl rfl rfl rfl⟩

theorem pushPixels_counterRan {is : List Nat} {s t : State} (h : pushPixels is s = some t) :
    ∃ k, CounterRan k s t := by
  refine pushPixels_keeps (P := fun t => ∃ k, CounterRan k s t) (fun w t ⟨a, ht⟩ => ?_) h ⟨0, .refl s⟩
  obtain ⟨b, hb⟩ := counterRan_txPush w t
  exact ⟨_, ht.trans hb⟩

/-- Settles O13: each push appends its word and lets time pass, and so does the completion. -/
theorem writePushesTheFrame : Obligations.WritePushesTheFrame := by
  unfold Obligations.WritePushesTheFrame
  intro s hinit hheld
  obtain ⟨sent, px, hpush, hexec, hlength, hpixels, hwords⟩ := exec_write_pushes hinit hheld
  obtain ⟨a, ha⟩ := pushPixels_counterRan hpush
  obtain ⟨b, hb⟩ := counterRan_complete .write 0 sent
  have hran := ha.trans hb
  refine ⟨_, px, hexec, hlength, hpixels, ?_, responseWord_noData .write, ?_, ?_, a + b, hran.now, hran.pre,
    hran.counter, hran.timer⟩
  · rw [complete_pushedWords, hwords]
    rfl
  · rw [complete_toRegs, pushPixels_toRegs hpush]
    rfl
  · rw [complete_sequencerEvents, pushPixels_sequencerEvents hpush]
    exact congrArg (fun w => _ ++ [Event.rsp w]) (responseWord_noData .write)

/-! ## How long the engine has words to send (R133, R134) -/

/-- Nanoseconds until a legal engine has sent all it holds: what is left of its word, and a word time for each in TXQ. -/
def TxEngine.leftNs (t : TxEngine) : Nat := engineBusyNs t + t.q.length * ledWordNs

theorem TxEngine.leftNs_idle (cell idle : Nat) : TxEngine.leftNs ⟨[], .idle, cell, idle⟩ = 0 := by
  simp [TxEngine.leftNs, engineBusyNs]

theorem TxEngine.leftNs_sending (q : List LedWord) (w : LedWord) (n cell idle : Nat) :
    TxEngine.leftNs ⟨q, .sending w n, cell, idle⟩ = wordLeft n cell + q.length * ledWordNs := rfl

/-- A legal engine holds at most the words of a full TXQ and one more (20_memory.md R74). -/
theorem TxEngine.Good.leftNs_le {cfg : Config} {t : TxEngine} (h : t.Good cfg) :
    t.leftNs ≤ (cfg.ledFifoDepth + 1) * ledWordNs := by
  obtain ⟨q, shift, cell, idle⟩ := t
  obtain ⟨hfits, hshift⟩ := h
  have hqueue : q.length * ledWordNs ≤ cfg.ledFifoDepth * ledWordNs := Nat.mul_le_mul_right _ hfits
  cases shift with
  | idle =>
    obtain ⟨rfl, -⟩ := hshift
    rw [TxEngine.leftNs_idle]
    exact Nat.zero_le _
  | sending w n =>
    obtain ⟨-, hbits, -, -⟩ := hshift
    have hword : wordLeft n cell ≤ ledWordNs := (Nat.sub_le _ _).trans (Nat.mul_le_mul_right tBitNs hbits)
    rw [TxEngine.leftNs_sending, Nat.add_one_mul]
    omega

/-- Less than T_LATCH_NS after its last word a sending engine has recorded no latch: what it has recorded and what is in
TXQ are the words of TXQ before. -/
theorem txSendRun_noLatch {latch n cell d : Nat} {w : LedWord} {q : List LedWord}
    (hd : d < wordLeft n cell + q.length * ledWordNs + latch) :
    (txSendRun latch w n cell d q).2 ++ (txSendRun latch w n cell d q).1.q.map Event.ledWord = q.map .ledWord := by
  have hword : wordLeft ledWordBits 0 = ledWordNs := rfl
  induction q generalizing w n cell d with
  | nil =>
    rcases Nat.lt_or_ge d (wordLeft n cell) with hin | hend
    · rw [txSendRun_inside w [] hin, List.nil_append]
    · rw [List.length_nil] at hd
      rw [txSendRun_last w hend, txIdleRun_below (by omega), List.nil_append]
  | cons w' q ih =>
    rcases Nat.lt_or_ge d (wordLeft n cell) with hin | hend
    · rw [txSendRun_inside w (w' :: q) hin, List.nil_append]
    · rw [List.length_cons, Nat.add_one_mul] at hd
      rw [txSendRun_next w w' q hend, List.cons_append, ih (by omega), List.map_cons]

/-- No latch is recorded while the engine has words to send, nor while the line stays latched. -/
theorem txRun_noLatch {cfg : Config} {d : Nat} {t : TxEngine} (hlatch : 0 < cfg.tLatchNs) (h : t.Good cfg)
    (hd : cfg.tLatchNs ≤ t.idleNs ∨ d ≤ t.leftNs) :
    (txRun cfg.tLatchNs d t).2 ++ (txRun cfg.tLatchNs d t).1.q.map Event.ledWord = t.q.map .ledWord := by
  obtain ⟨q, shift, cell, idle⟩ := t
  cases shift with
  | idle =>
    obtain ⟨rfl, -, hidle⟩ : q = [] ∧ cell = 0 ∧ idle ≤ cfg.tLatchNs := h.shifter
    rcases hd with hlatched | hnone
    · rw [txRun_idle, txIdleRun_stay d hlatched, List.nil_append]
    · obtain rfl : d = 0 := Nat.le_zero.mp (hnone.trans_eq (TxEngine.leftNs_idle _ _))
      rw [txRun_zero h, List.nil_append]
  | sending w n =>
    obtain ⟨-, -, -, rfl⟩ : 1 ≤ n ∧ n ≤ ledWordBits ∧ cell < tBitNs ∧ idle = 0 := h.shifter
    have hleft : d ≤ wordLeft n cell + q.length * ledWordNs := hd.resolve_left (Nat.not_le.mpr hlatch)
    rw [txRun_sending]
    exact txSendRun_noLatch (by omega)

/-- T_LATCH_NS after its last word a sending engine has recorded the words of TXQ and one latch (R134). -/
theorem txSendRun_latchOnce {latch n cell d : Nat} {w : LedWord} {q : List LedWord} (hlatch : 0 < latch)
    (hd : wordLeft n cell + q.length * ledWordNs + latch ≤ d) :
    (txSendRun latch w n cell d q).2 = q.map .ledWord ++ [.ledLatch] := by
  have hword : wordLeft ledWordBits 0 = ledWordNs := rfl
  induction q generalizing w n cell d with
  | nil =>
    rw [List.length_nil] at hd
    rw [txSendRun_last w (by omega), txIdleRun_reach hlatch (by omega), List.map_nil, List.nil_append]
  | cons w' q ih =>
    rw [List.length_cons, Nat.add_one_mul] at hd
    rw [txSendRun_next w w' q (by omega), ih (by omega), List.map_cons, List.cons_append]

/-- So has every legal engine that holds words. -/
theorem txRun_latchOnce {cfg : Config} {d : Nat} {t : TxEngine} (hlatch : 0 < cfg.tLatchNs) (h : t.Good cfg)
    (hbusy : 0 < t.leftNs) (hd : t.leftNs + cfg.tLatchNs ≤ d) :
    (txRun cfg.tLatchNs d t).2 = t.q.map .ledWord ++ [.ledLatch] := by
  obtain ⟨q, shift, cell, idle⟩ := t
  cases shift with
  | idle =>
    obtain ⟨rfl, -⟩ : q = [] ∧ cell = 0 ∧ idle ≤ cfg.tLatchNs := h.shifter
    exact absurd (TxEngine.leftNs_idle cell idle) hbusy.ne'
  | sending w n => exact txSendRun_latchOnce hlatch hd

/-! ## The engine's events as time passes and words are pushed -/

theorem engineEvents_engine {es : List Event} (h : ∀ e ∈ es, e.fromEngine = true) : engineEvents es = es :=
  List.filter_eq_self.mpr h

/-- The whole nanoseconds `k` cycles of `s` bring (log 5). -/
def State.nsIn (s : State) (k : Nat) : Nat := (s.nsFrac + k * nsPerSec) / s.cfg.sysclkHz

theorem advance_tx (k : Nat) (s : State) : (advance k s).tx = (txRun s.cfg.tLatchNs (s.nsIn k) s.tx).1 := rfl

theorem advance_engineEvents (k : Nat) (s : State) :
    engineEvents (advance k s).trace = engineEvents s.trace ++ (txRun s.cfg.tLatchNs (s.nsIn k) s.tx).2 := by
  rw [advance_toClocked, clockedRun_trace, engineEvents_append, engineEvents_engine (txRun_events _ _ _)]
  rfl

/-- The words and latches on the line since reset, followed by the words still in TXQ. -/
def State.lineEvents (s : State) : List Event := engineEvents s.trace ++ s.tx.q.map .ledWord

/-- Time that brings no latch only moves words from TXQ to the line. -/
theorem advance_lineEvents {k : Nat} {s : State} (hcfg : s.cfg.wf = true) (h : s.ClockOk)
    (hns : s.cfg.tLatchNs ≤ s.tx.idleNs ∨ s.nsIn k ≤ s.tx.leftNs) : (advance k s).lineEvents = s.lineEvents := by
  obtain ⟨-, -, -, -, -, -, -, -, -, -, hlatch, -⟩ := Config.wf_ranges hcfg
  rw [State.lineEvents, advance_engineEvents, advance_tx, List.append_assoc,
    txRun_noLatch (by omega) h.engine hns, State.lineEvents]

/-- A word pushed comes after all others; a legal engine then has at least a word time left to send. -/
theorem enqueue_lineEvents {s : State} (h : s.ClockOk) (w : LedWord) :
    (enqueue w s).lineEvents = s.lineEvents ++ [.ledWord w] ∧ ledWordNs ≤ (enqueue w s).tx.leftNs := by
  have hshift := h.engine.shifter
  cases hs : s.tx.shift with
  | idle =>
    rw [hs] at hshift
    obtain ⟨htx, htrace⟩ := enqueue_idle w hs hshift.1
    refine ⟨?_, ?_⟩
    · rw [State.lineEvents, State.lineEvents, htx, htrace, hshift.1, engineEvents_append]
      simp [engineEvents, Event.fromEngine]
    · rw [htx, TxEngine.leftNs_sending]
      exact Nat.le_add_right ledWordNs _
  | sending v n =>
    obtain ⟨htx, htrace⟩ := enqueue_sending w hs
    refine ⟨?_, ?_⟩
    · rw [State.lineEvents, State.lineEvents, htx, htrace, List.map_append, List.map_singleton, List.append_assoc]
    · rw [htx, TxEngine.leftNs, List.length_append, List.length_singleton, Nat.add_one_mul]
      omega

/-! ## A push is shorter than a word (R133, log 4) -/

/-- A push takes no more than a word time where SYSCLK_HZ is at least 1,000,000. -/
theorem nsIn_pushCycles_le {s : State} (hfrac : s.nsFrac < s.cfg.sysclkHz) (hhz : pushHz ≤ s.cfg.sysclkHz) :
    s.nsIn (pushCycles s) ≤ ledWordNs := by
  have hmega : 1000000 ≤ s.cfg.sysclkHz := hhz
  have hlimit : pushLimit s.cfg * 1000000000 ≤ 30000 * s.cfg.sysclkHz := Nat.div_mul_le_self _ _
  have hpos : 0 < pushLimit s.cfg := Nat.div_pos (show 1000000000 ≤ 30000 * s.cfg.sysclkHz by omega) (by decide)
  have hcycles : pushCycles s < pushLimit s.cfg := by
    rw [pushCycles, if_pos hhz]
    exact Nat.mod_lt _ hpos
  refine Nat.lt_succ_iff.mp ((Nat.div_lt_iff_lt_mul (by omega)).mpr ?_)
  show s.nsFrac + pushCycles s * 1000000000 < 30001 * s.cfg.sysclkHz
  omega

/-- The wait for `ns` nanoseconds is over less than a word time later. -/
theorem nsIn_cyclesFor_lt {s : State} (ns : Nat) (hfrac : s.nsFrac < s.cfg.sysclkHz)
    (hhz : pushHz ≤ s.cfg.sysclkHz) : s.nsIn (cyclesFor s ns) < ns + ledWordNs := by
  have hmega : 1000000 ≤ s.cfg.sysclkHz := hhz
  have hceil : cyclesFor s ns * 1000000000 ≤ ns * s.cfg.sysclkHz - s.nsFrac + 999999999 := Nat.div_mul_le_self _ _
  refine (Nat.div_lt_iff_lt_mul (by omega)).mpr ?_
  show s.nsFrac + cyclesFor s ns * 1000000000 < (ns + 30000) * s.cfg.sysclkHz
  rw [Nat.add_mul]
  omega

/-- The wait for room ends while the engine has words to send (00_scope.md R15). -/
theorem nsIn_roomCycles_le {s : State} (hcfg : s.cfg.wf = true) (h : s.ClockOk) (hhz : pushHz ≤ s.cfg.sysclkHz) :
    s.nsIn (roomCycles s) ≤ s.tx.leftNs := by
  obtain ⟨-, -, -, -, -, -, hdepth, -⟩ := Config.wf_ranges hcfg
  unfold roomCycles
  split
  · rw [State.nsIn, Nat.zero_mul, Nat.add_zero, Nat.div_eq_of_lt h.fracBelow]
    exact Nat.zero_le _
  next hfull =>
    have hwait := nsIn_cyclesFor_lt (engineBusyNs s.tx) h.fracBelow hhz
    have hqueue : 1 * ledWordNs ≤ s.tx.q.length * ledWordNs := Nat.mul_le_mul_right _ (by omega)
    rw [TxEngine.leftNs]
    omega

/-- A push to a latched line, or to an engine with a word time left, brings no latch and leaves a word time to send. -/
theorem txPush_lineEvents {s : State} (hcfg : s.cfg.wf = true) (h : s.ClockOk) (hhz : pushHz ≤ s.cfg.sysclkHz)
    (hfed : s.cfg.tLatchNs ≤ s.tx.idleNs ∨ ledWordNs ≤ s.tx.leftNs) (w : LedWord) :
    (txPush w s).lineEvents = s.lineEvents ++ [.ledWord w] ∧ ledWordNs ≤ (txPush w s).tx.leftNs := by
  have hwork := h.takeFree.advance (pushCycles s)
  have hroom := hwork.advance (roomCycles (advance (pushCycles s) (takeFree s)))
  have hpush : (advance (pushCycles s) (takeFree s)).lineEvents = s.lineEvents :=
    advance_lineEvents hcfg h.takeFree (hfed.imp_right (nsIn_pushCycles_le h.fracBelow hhz).trans)
  have hwait : (waitForRoom (advance (pushCycles s) (takeFree s))).lineEvents = s.lineEvents :=
    (advance_lineEvents (s := advance (pushCycles s) (takeFree s)) hcfg hwork
      (.inr (nsIn_roomCycles_le (s := advance (pushCycles s) (takeFree s)) hcfg hwork hhz))).trans hpush
  obtain ⟨hevents, hleft⟩ := enqueue_lineEvents hroom w
  exact ⟨hevents.trans (by rw [← hwait]; rfl), hleft⟩

/-! ## The frame on the line -/

/-- From the latched line of `s` to `t` the words `pushed` have been pushed, with no latch between them. -/
structure Streaming (s : State) (pushed : List LedWord) (t : State) : Prop where
  cfg : t.cfg = s.cfg
  clockOk : t.ClockOk
  words : t.pushedWords = s.pushedWords ++ pushed
  events : t.lineEvents = s.lineEvents ++ pushed.map .ledWord
  fed : (pushed = [] ∧ t.cfg.tLatchNs ≤ t.tx.idleNs) ∨ ledWordNs ≤ t.tx.leftNs

theorem Streaming.push {s t : State} {pushed : List LedWord} (h : Streaming s pushed t) (hcfg : s.cfg.wf = true)
    (hhz : pushHz ≤ s.cfg.sysclkHz) (w : LedWord) : Streaming s (pushed ++ [w]) (txPush w t) := by
  have hcfg' : t.cfg.wf = true := by rw [h.cfg, hcfg]
  obtain ⟨hevents, hleft⟩ := txPush_lineEvents hcfg' h.clockOk (by rwa [h.cfg]) (h.fed.imp_left And.right) w
  refine ⟨?_, h.clockOk.txPush hcfg' w, ?_, ?_, .inr hleft⟩
  · rw [txPush_toRegs, h.cfg]
  · rw [txPush_pushedWords, h.words, List.append_assoc]
  · rw [hevents, h.events, List.map_append, List.map_singleton, List.append_assoc]

/-- The loop of WRITE streams its words. -/
theorem pushPixels_streaming {is : List Nat} {s t : State} (hcfg : s.cfg.wf = true) (h : s.ClockOk)
    (hhz : pushHz ≤ s.cfg.sysclkHz) (hlatched : s.cfg.tLatchNs ≤ s.tx.idleNs) (hpush : pushPixels is s = some t) :
    ∃ pushed, Streaming s pushed t := by
  refine pushPixels_keeps (P := fun t => ∃ pushed, Streaming s pushed t) (fun w t ⟨pushed, ht⟩ => ?_) hpush ⟨[], ?_⟩
  · exact ⟨_, ht.push hcfg hhz w⟩
  · exact ⟨rfl, h, (List.append_nil _).symm, (List.append_nil _).symm, .inl ⟨rfl, hlatched⟩⟩

/-- The words of a stream go out, and once TXQ is empty for T_LATCH_NS the line latches once (R134). -/
theorem Streaming.latches {s t : State} {pushed : List LedWord} {k : Nat} (h : Streaming s pushed t)
    (hcfg : s.cfg.wf = true) (hsome : pushed ≠ [])
    (hk : ((s.cfg.ledFifoDepth + 1) * ledWordNs + s.cfg.tLatchNs) * s.cfg.sysclkHz ≤ k * nsPerSec) :
    engineEvents (advance k t).trace = s.lineEvents ++ pushed.map .ledWord ++ [.ledLatch] := by
  obtain ⟨-, hhz, -, -, -, -, -, -, -, -, hlatch, -⟩ := Config.wf_ranges hcfg
  have hleft : ledWordNs ≤ t.tx.leftNs := h.fed.resolve_left fun hnone => hsome hnone.1
  have hns : t.tx.leftNs + t.cfg.tLatchNs ≤ t.nsIn k := by
    refine (Nat.add_le_add_right h.clockOk.engine.leftNs_le _).trans ?_
    rw [State.nsIn, h.cfg]
    exact (Nat.le_div_iff_mul_le (by omega)).mpr (hk.trans (Nat.le_add_left _ _))
  rw [advance_engineEvents, txRun_latchOnce (by rw [h.cfg]; omega) h.clockOk.engine
    (Nat.lt_of_lt_of_le (by decide) hleft) hns, ← List.append_assoc]
  exact congrArg (· ++ [Event.ledLatch]) h.events

/-! ## What the LED chain displays (R137) -/

/-- The first 25 words of a frame are kept, word `k` by LED `k`. -/
theorem chainRun_words (c : Chain) (ws : List LedWord) (h : c.kept.length + ws.length ≤ ledCount) :
    chainRun c (ws.map .ledWord) = { c with kept := c.kept ++ ws } := by
  induction ws generalizing c with
  | nil => simp [chainRun]
  | cons w ws ih =>
    rw [List.length_cons] at h
    have hkeep : chainFeed c (.ledWord w) = { c with kept := c.kept ++ [w] } := if_pos (by omega)
    rw [List.map_cons, chainRun, List.foldl_cons, hkeep]
    refine (ih _ ?_).trans ?_
    · rw [List.length_append, List.length_singleton]
      omega
    · rw [List.append_assoc, List.singleton_append]

/-- A frame of 25 words is displayed at its latch. -/
theorem chainRun_frame {shown ws : List LedWord} (hshown : shown.length = ledCount) (hws : ws.length = ledCount) :
    (chainRun ⟨[], shown⟩ (ws.map .ledWord ++ [.ledLatch])).shown = ws := by
  have hwords := chainRun_words ⟨[], shown⟩ ws (by simp [hws])
  have hnone : shown.drop ws.length = [] := List.drop_eq_nil_of_le (by omega)
  rw [chainRun, List.foldl_append]
  show (chainFeed (chainRun ⟨[], shown⟩ (ws.map .ledWord)) .ledLatch).shown = ws
  rw [hwords]
  show ws ++ shown.drop ws.length = ws
  rw [hnone, List.append_nil]

/-- An LED displays the pixel its word was made of (R108, R137). -/
theorem wordColour_pixelLedWord (p : Pixel) : wordColour (pixelLedWord p) = p := by
  have hr : (p.g ++ p.r ++ p.b).extractLsb' 8 8 = p.r := by
    rw [BitVec.extractLsb'_append_eq_of_le (by decide)]
    exact BitVec.extractLsb'_append_eq_right
  have hg : (p.g ++ p.r ++ p.b).extractLsb' 16 8 = p.g := by
    rw [BitVec.extractLsb'_append_eq_of_le (by decide)]
    exact BitVec.extractLsb'_append_eq_left
  have hb : (p.g ++ p.r ++ p.b).extractLsb' 0 8 = p.b := BitVec.extractLsb'_append_eq_right
  simp only [wordColour, pixelLedWord, hr, hg, hb]

/-- Settles O22: each push comes while the engine still has a word to send, so the line latches once, after the last word
(`Streaming`); the completion only lets the engine run on. -/
theorem writeDisplaysTheFrame : Obligations.WriteDisplaysTheFrame := by
  unfold Obligations.WriteDisplaysTheFrame
  intro s shown hs hinit hhz htx hshown
  obtain ⟨sent, px, hpush, hexec, hlength, hpixels, hwords⟩ := exec_write_pushes hinit (hs.pixbufHeld hinit)
  obtain ⟨pushed, hstream⟩ := pushPixels_streaming hs.cfgWf hs.clockOk hhz (by rw [htx]) hpush
  obtain rfl : pushed = px.map pixelLedWord := List.append_cancel_left (hstream.words.symm.trans hwords)
  have hsome : px.map pixelLedWord ≠ [] := by
    intro hnil
    rw [List.map_eq_nil_iff.mp hnil] at hlength
    cases hlength
  have hempty : s.lineEvents = engineEvents s.trace := by rw [State.lineEvents, htx, List.map_nil, List.append_nil]
  obtain ⟨a, ha⟩ := engineRan_complete .write 0 sent
  refine ⟨_, px, hexec, hlength, hpixels, fun k hk => ?_⟩
  have hran := (ha.trans (complete_cfg _ _ _) (.ofAdvance k _)).events
  have hgap : k * nsPerSec ≤ (a + k) * nsPerSec := Nat.mul_le_mul_right _ (Nat.le_add_left _ _)
  have hevents : engineEvents (advance k (complete .write 0 sent)).trace =
      engineEvents s.trace ++ ((px.map pixelLedWord).map .ledWord ++ [.ledLatch]) := by
    rw [hran, hstream.latches hs.cfgWf hsome (hk.trans hgap), hempty, List.append_assoc]
  refine ⟨?_, ?_⟩
  · rw [hevents, List.map_map, List.append_assoc]
    rfl
  · rw [hevents, List.drop_left, chainRun_frame hshown (by rw [List.length_map, hlength]), List.map_map]
    exact (List.map_congr_left fun p _ => wordColour_pixelLedWord p).trans (List.map_id px)

end Sys2Proof.Machine

/-! # PROOFS. The TONE unit: its commands, the PWM counter, and the waveform of a tone (spec/41_tone.md) -/

namespace Sys2Proof.Machine

/-! ## The two computed values (R152) -/

/-- A legal SYSCLK_HZ keeps TopOf in 32 bits, so PWM_TOP holds it without a wrap. -/
theorem topOf_toNat {cfg : Config} (f : Nat) (h : cfg.wf = true) :
    (BitVec.ofNat 32 (topOf cfg f)).toNat = topOf cfg f := by
  obtain ⟨-, -, hhz, -⟩ := Config.wf_ranges h
  rw [BitVec.toNat_ofNat]
  exact Nat.mod_eq_of_lt ((topOf_lt cfg f h).trans hhz)

theorem levelOf_le (top : Nat) : levelOf top ≤ top := by
  unfold levelOf
  omega

theorem levelOf_toNat {cfg : Config} (f : Nat) (h : cfg.wf = true) :
    (BitVec.ofNat 32 (levelOf (topOf cfg f))).toNat = levelOf (topOf cfg f) := by
  obtain ⟨-, -, hhz, -⟩ := Config.wf_ranges h
  rw [BitVec.toNat_ofNat]
  exact Nat.mod_eq_of_lt ((levelOf_le _).trans_lt ((topOf_lt cfg f h).trans hhz))

/-- A period of the counter is `SYSCLK_HZ div f` ticks (R158). -/
theorem topOf_succ {cfg : Config} {f : Nat} (hpos : 1 ≤ f) (hle : f ≤ cfg.sysclkHz) :
    topOf cfg f + 1 = cfg.sysclkHz / f :=
  Nat.sub_add_cancel (Nat.div_pos hle hpos)

theorem topOf_anti (cfg : Config) {f g : Nat} (hpos : 1 ≤ f) (hfg : f ≤ g) : topOf cfg g ≤ topOf cfg f :=
  Nat.sub_le_sub_right (Nat.div_le_div_left hfg hpos) 1

/-- Settles O23: the formulas are the definitions; the ranges and the monotony are those of the floor division. -/
theorem topAndLevelFollowRule : Obligations.TopAndLevelFollowRule := by
  unfold Obligations.TopAndLevelFollowRule
  refine ⟨fun cfg f hwf _ _ => ?_, fun cfg f g => topOf_anti cfg, fun cfg hwf => ?_, rfl, fun cfg hworked => ?_, rfl⟩
  · obtain ⟨-, -, hhz, -⟩ := Config.wf_ranges hwf
    have htop := topOf_lt cfg f hwf
    exact ⟨rfl, rfl, htop.trans hhz, Nat.le_sub_one_of_lt htop, levelOf_le _⟩
  · obtain ⟨-, hmin, -⟩ := Config.wf_ranges hwf
    rw [topOf, Nat.div_self (by omega)]
  · rw [topOf, hworked]

/-! ## The output (R157) -/

theorem State.pwmOut_iff {s : State} (h : s.rst = false) :
    s.pwmOut = true ↔ s.pwmEn = true ∧ s.pwmCtr.toNat < s.pwmLevel.toNat := by
  simp [State.pwmOut, h, BitVec.lt_def]

/-- No counter value is below level 0. -/
theorem State.pwmOut_of_level_zero {s : State} (h : s.pwmLevel = 0) : s.pwmOut = false := by
  simp [State.pwmOut, h]

/-- Settles O28: the output is the comparison of the two registers, and none is below 0. -/
theorem outputIsComparison : Obligations.OutputIsComparison := by
  unfold Obligations.OutputIsComparison
  exact fun s hrst => ⟨State.pwmOut_iff hrst, State.pwmOut_of_level_zero⟩

/-! ## The counter agent (R156) -/

/-- Settles O31, by induction on the edges: the first is one edge of the closed form, and the closed form is additive. -/
theorem counterRunIsIteratedEdges : Obligations.CounterRunIsIteratedEdges := by
  unfold Obligations.CounterRunIsIteratedEdges
  intro k div pre top ctr
  induction k generalizing pre ctr with
  | zero => exact pwmRun_zero div pre top ctr
  | succ k ih => rw [Nat.add_comm k 1, pwmRun_add, pwmRun_one, ih, Nat.add_comm 1 k, Function.iterate_succ_apply]

/-- An edge that is a tick. -/
theorem pwmEdge_tick {div pre : BitVec 8} (top ctr : BitVec 32) (h : div.toNat ≤ pre.toNat + 1) :
    pwmEdge div pre top ctr = (0, if top ≤ ctr then 0 else ctr + 1) := if_pos h

/-- An edge between two ticks. -/
theorem pwmEdge_noTick {div pre : BitVec 8} (top ctr : BitVec 32) (h : pre.toNat + 1 < div.toNat) :
    pwmEdge div pre top ctr = (pre + 1, ctr) := if_neg (Nat.not_le.mpr h)

/-- From a legal prescaler the edges are counted modulo the divider. -/
theorem pwmRun_pre_mod (k : Nat) {div pre : BitVec 8} (top ctr : BitVec 32) (hpre : pre.toNat < div.toNat) :
    (pwmRun k div pre top ctr).1.toNat = (pre.toNat + k) % div.toNat := by
  have hperiod : max 1 div.toNat = div.toNat := by omega
  have hmin : min pre.toNat (div.toNat - 1) = pre.toNat := by omega
  rw [pwmRun_pre, hperiod, hmin]
  split
  · next hnone => exact (Nat.mod_eq_of_lt (Nat.lt_of_div_eq_zero (Nat.zero_lt_of_lt hpre) hnone)).symm
  · rfl

/-- From a legal prescaler and a counter not above the top the ticks are counted modulo `PWM_TOP + 1`. -/
theorem pwmRun_ctr_mod (k : Nat) {div pre : BitVec 8} {top ctr : BitVec 32} (hpre : pre.toNat < div.toNat)
    (hctr : ctr ≤ top) :
    (pwmRun k div pre top ctr).2.toNat = (ctr.toNat + (pre.toNat + k) / div.toNat) % (top.toNat + 1) := by
  have hperiod : max 1 div.toNat = div.toNat := by omega
  have hmin : min pre.toNat (div.toNat - 1) = pre.toNat := by omega
  rw [pwmRun_ctr, hperiod, hmin, Nat.min_eq_left (BitVec.le_def.mp hctr)]
  split
  · next hnone => rw [hnone, Nat.add_zero, Nat.mod_eq_of_lt (Nat.lt_succ_of_le (BitVec.le_def.mp hctr))]
  · rfl

/-- After `(PWM_TOP + 1) * PWM_DIV` edges the counter and the prescaler are where they were. -/
theorem pwmRun_period {div pre : BitVec 8} {top ctr : BitVec 32} (hpre : pre.toNat < div.toNat) (hctr : ctr ≤ top) :
    pwmRun ((top.toNat + 1) * div.toNat) div pre top ctr = (pre, ctr) := by
  have hdiv : 0 < div.toNat := Nat.zero_lt_of_lt hpre
  refine Prod.ext (BitVec.eq_of_toNat_eq ?_) (BitVec.eq_of_toNat_eq ?_)
  · rw [pwmRun_pre_mod _ _ _ hpre, Nat.add_mul_mod_self_right, Nat.mod_eq_of_lt hpre]
  · rw [pwmRun_ctr_mod _ hpre hctr, Nat.add_mul_div_right _ _ hdiv, Nat.div_eq_of_lt hpre, Nat.zero_add,
      Nat.add_mod_right, Nat.mod_eq_of_lt (Nat.lt_succ_of_le (BitVec.le_def.mp hctr))]

/-- While PWM_EN = 1 time runs the counter. -/
theorem advance_pwm_on {s : State} (k : Nat) (h : s.pwmEn = true) :
    (advance k s).pwmPre = (pwmRun k s.pwmDiv s.pwmPre s.pwmTop s.pwmCtr).1 ∧
      (advance k s).pwmCtr = (pwmRun k s.pwmDiv s.pwmPre s.pwmTop s.pwmCtr).2 := by
  simp only [advance_toClocked, clockedRun, h, if_true, and_self]

/-- Settles O27: with PWM_EN = 1 one cycle is one edge of the rule, and the counter's closed form has the period. -/
theorem counterFollowsEdgeRule : Obligations.CounterFollowsEdgeRule := by
  unfold Obligations.CounterFollowsEdgeRule
  intro s
  refine ⟨fun hen => ⟨fun htick => ?_, fun hnone => ?_, fun hpre hctr => ?_⟩,
    fun hoff k => (advance_pwm_off k hoff).symm⟩
  · obtain ⟨hpre, hctr⟩ := advance_pwm_on 1 hen
    rw [pwmRun_one, pwmEdge_tick _ _ htick] at hpre hctr
    refine ⟨hpre, fun hwrap => ?_, fun hbelow => ?_⟩
    · rw [hctr, if_pos (BitVec.le_def.mpr hwrap)]
    · have htop := s.pwmTop.isLt
      rw [hctr, if_neg (by rw [BitVec.le_def]; omega), BitVec.toNat_add_of_lt (by simp; omega)]
      rfl
  · obtain ⟨hpre, hctr⟩ := advance_pwm_on 1 hen
    rw [pwmRun_one, pwmEdge_noTick _ _ hnone] at hpre hctr
    have hdiv := s.pwmDiv.isLt
    rw [hpre, BitVec.toNat_add_of_lt (by simp; omega)]
    exact ⟨rfl, hctr⟩
  · have hperiod := advance_pwm_on ((s.pwmTop.toNat + 1) * s.pwmDiv.toNat) hen
    rwa [pwmRun_period hpre hctr] at hperiod

/-! ## The counter stays within its period (R154, R156) -/

/-- PWM_CTR is not above PWM_TOP. -/
def State.CounterBelow (s : State) : Prop := s.pwmCtr ≤ s.pwmTop

theorem State.CounterBelow.gap {s : State} (h : s.CounterBelow) : (gap s).CounterBelow :=
  advance_pwmCtr_le (s := takeFree s) _ h

theorem State.CounterBelow.sleep {s : State} (h : s.CounterBelow) (ms : Nat) : (sleep ms s).CounterBelow :=
  advance_pwmCtr_le (s := beginSleep ms s) _ h

/-- "The counter is never above the new top" (R154), from every state: it is cleared with the write of PWM_TOP. -/
theorem counterBelow_toneStart (f : Nat) (s : State) : (toneStart f s).CounterBelow :=
  State.CounterBelow.gap (s := setTop (topOf s.cfg f) s) (Nat.zero_le (BitVec.toNat _))

theorem State.CounterBelow.toneStop {s : State} (h : s.CounterBelow) : (toneStop s).CounterBelow := h.gap

theorem counterBelow_tone (f ms : Nat) (s : State) : (tone f ms s).CounterBelow :=
  ((counterBelow_toneStart f s).sleep ms).toneStop.sleep toneGapMs

theorem State.CounterBelow.complete {s : State} (h : s.CounterBelow) (i : Instr) (data : BitVec 32) :
    (complete i data s).CounterBelow := h.gap

/-! ## The waveform of a tone (R158) -/

/-- Whether a square wave is high `x` cycles after the start of a period: a period has `ticks` ticks of `div` cycles and is
high for the first `level` ticks (R157). `advance_pwmOut` ties it to the output. -/
def squareWave (ticks div level x : Nat) : Bool := decide (x / div % ticks < level)

theorem squareWave_periodic (ticks level : Nat) {div : Nat} (h : 0 < div) :
    Function.Periodic (squareWave ticks div level) (ticks * div) := fun x => by
  rw [squareWave, Nat.add_mul_div_right _ _ h, Nat.add_mod_right, squareWave]

/-- The first period is high for `level * div` cycles, then low. -/
theorem squareWave_firstPeriod {ticks div level x : Nat} (hdiv : 0 < div) (h : x < ticks * div) :
    squareWave ticks div level x = true ↔ x < level * div := by
  have htick : x / div < ticks := (Nat.div_lt_iff_lt_mul hdiv).mpr h
  rw [squareWave, decide_eq_true_iff, Nat.mod_eq_of_lt htick, Nat.div_lt_iff_lt_mul hdiv]

theorem count_squareWave {ticks div level : Nat} (hdiv : 0 < div) (hlevel : level ≤ ticks) :
    Nat.count (squareWave ticks div level · = true) (ticks * div) = level * div := by
  obtain ⟨low, hlow⟩ := Nat.exists_eq_add_of_le (Nat.mul_le_mul_right div hlevel)
  have hhigh : ∀ x < level * div, squareWave ticks div level x = true := fun x hx =>
    (squareWave_firstPeriod hdiv (by omega)).mpr hx
  have hrest : ∀ x < low, ¬ squareWave ticks div level (level * div + x) = true := fun x hx h => by
    have hbelow := (squareWave_firstPeriod hdiv (by omega)).mp h
    omega
  rw [hlow, Nat.count_add, Nat.count_of_forall hhigh, Nat.count_of_forall_not hrest, Nat.add_zero]

theorem length_filter_range (wave : Nat → Bool) (n : Nat) :
    ((List.range n).filter fun j => wave j).length = Nat.count (wave · = true) n := by
  simp [Nat.count, List.countP_eq_length_filter]

/-- A stretch as long as the period, wherever it starts, has as many high cycles as the first period. -/
theorem count_shift_of_periodic {wave : Nat → Bool} {period : Nat} (h : Function.Periodic wave period) (start : Nat) :
    Nat.count (fun j => wave (start + j) = true) period = Nat.count (wave · = true) period := by
  have hshift : ∀ j, wave (j + period) = wave j := h
  have hstart := Nat.count_add (wave · = true) start period
  have hperiod := Nat.count_add' (wave · = true) start period
  simp only [hshift] at hperiod
  omega

/-- The prescaler is cleared with the write of PWM_TOP (R154), and time keeps it below the divider. -/
theorem toneStart_pwmPre_lt {s : State} (f : Nat) (h : 1 ≤ s.pwmDiv.toNat) :
    (toneStart f s).pwmPre.toNat < s.pwmDiv.toNat :=
  advance_pwmPre_lt (s := takeFree (setTop (topOf s.cfg f) s)) _ h

/-- An enabled channel in a legal state puts a square wave on its output; what the counter has counted is its phase. -/
theorem advance_pwmOut {s : State} (k : Nat) (hrst : s.rst = false) (hen : s.pwmEn = true)
    (hpre : s.pwmPre.toNat < s.pwmDiv.toNat) (hctr : s.CounterBelow) :
    (advance k s).pwmOut = squareWave (s.pwmTop.toNat + 1) s.pwmDiv.toNat s.pwmLevel.toNat
      (s.pwmCtr.toNat * s.pwmDiv.toNat + s.pwmPre.toNat + k) := by
  have hrun := (advance_pwm_on k hen).2
  have hticks : (s.pwmCtr.toNat * s.pwmDiv.toNat + s.pwmPre.toNat + k) / s.pwmDiv.toNat =
      s.pwmCtr.toNat + (s.pwmPre.toNat + k) / s.pwmDiv.toNat := by
    rw [Nat.add_assoc, Nat.mul_comm, Nat.mul_add_div (Nat.zero_lt_of_lt hpre)]
  rw [Bool.eq_iff_iff, State.pwmOut_iff (s := advance k s) hrst, hrun, pwmRun_ctr_mod k hpre hctr, squareWave, hticks,
    decide_eq_true_iff]
  exact and_iff_right hen

/-- While a tone sounds the output is a square wave of `SYSCLK_HZ div f` ticks, in some phase at its start (R155). -/
theorem toneStart_squareWave {s : State} {f : Nat} (hcfg : s.cfg.wf = true) (hrst : s.rst = false)
    (hen : s.pwmEn = true) (hdiv : 1 ≤ s.pwmDiv.toNat) (hpos : 1 ≤ f) (hle : f ≤ s.cfg.sysclkHz) :
    ∃ phase, ∀ k, (advance k (toneStart f s)).pwmOut =
      squareWave (s.cfg.sysclkHz / f) s.pwmDiv.toNat (levelOf (topOf s.cfg f)) (phase + k) := by
  have hregs := toneStart_toRegs f s
  refine ⟨(toneStart f s).pwmCtr.toNat * s.pwmDiv.toNat + (toneStart f s).pwmPre.toNat, fun k => ?_⟩
  rw [advance_pwmOut k (by rw [hregs]; exact hrst) (by rw [hregs]; exact hen)
    (by rw [hregs]; exact toneStart_pwmPre_lt f hdiv) (counterBelow_toneStart f s), hregs]
  simp only [topOf_toNat f hcfg, levelOf_toNat f hcfg, topOf_succ hpos hle]

/-- Settles O29: the output is a square wave whose period is `SYSCLK_HZ div f` ticks, and every stretch of that length has
the high cycles of the first one. -/
theorem toneWaveform : Obligations.ToneWaveform := by
  unfold Obligations.ToneWaveform
  intro s f k hcfg hrst hen hdiv hpos hle
  obtain ⟨phase, hwave⟩ := toneStart_squareWave hcfg hrst hen hdiv hpos hle
  have hperiodic := squareWave_periodic (s.cfg.sysclkHz / f) (levelOf (topOf s.cfg f)) hdiv
  have hlevel : levelOf (topOf s.cfg f) ≤ s.cfg.sysclkHz / f := (levelOf_le _).trans (Nat.sub_le _ _)
  refine ⟨by rw [hwave, hwave, ← Nat.add_assoc, hperiodic], ?_⟩
  simp only [hwave, ← Nat.add_assoc, length_filter_range]
  exact (count_shift_of_periodic hperiodic (phase + k)).trans (count_squareWave hdiv hlevel)

/-! ## PWMINIT and TONE, check by check (R151, R153, R233) -/

theorem exec_pwminit (pin : BitVec 8) (s : State) :
    exec (.pwminit pin) s = .next (complete (.pwminit pin) 0 (enableChannel pin s)) := rfl

theorem exec_tone_notInit {s : State} (pin : BitVec 8) (f : BitVec 32) (ms : BitVec 16) (h : s.pwmInit = false) :
    exec (.tone pin f ms) s = .next (raiseFault .notInit (encode (.tone pin f ms)) s) := if_pos h

theorem exec_tone_pin {s : State} {pin : BitVec 8} (f : BitVec 32) (ms : BitVec 16) (hinit : s.pwmInit = true)
    (hpin : pin ≠ s.pwmPin) :
    exec (.tone pin f ms) s = .next (raiseFault .pin (encode (.tone pin f ms)) s) := by
  rw [exec, execTone, if_neg (by simp [hinit]), if_pos hpin]

theorem exec_tone_freqZero {s : State} {pin : BitVec 8} {f : BitVec 32} (ms : BitVec 16) (hinit : s.pwmInit = true)
    (hpin : pin = s.pwmPin) (hzero : f = 0) :
    exec (.tone pin f ms) s = .next (raiseFault .freqZero (encode (.tone pin f ms)) s) := by
  rw [exec, execTone, if_neg (by simp [hinit]), if_neg (not_not.mpr hpin), if_pos hzero]

theorem exec_tone_freqRange {s : State} {pin : BitVec 8} {f : BitVec 32} (ms : BitVec 16) (hinit : s.pwmInit = true)
    (hpin : pin = s.pwmPin) (hzero : f ≠ 0) (hrange : s.cfg.sysclkHz < f.toNat) :
    exec (.tone pin f ms) s = .next (raiseFault .freqRange (encode (.tone pin f ms)) s) := by
  rw [exec, execTone, if_neg (by simp [hinit]), if_neg (not_not.mpr hpin), if_neg hzero, if_pos hrange]

theorem exec_tone_completes {s : State} {pin : BitVec 8} {f : BitVec 32} (ms : BitVec 16) (hinit : s.pwmInit = true)
    (hpin : pin = s.pwmPin) (hzero : f ≠ 0) (hrange : f.toNat ≤ s.cfg.sysclkHz) :
    exec (.tone pin f ms) s = .next (complete (.tone pin f ms) 0 (tone f.toNat ms.toNat s)) := by
  rw [exec, execTone, if_neg (by simp [hinit]), if_neg (not_not.mpr hpin), if_neg hzero, if_neg (Nat.not_lt.mpr hrange)]

/-- Settles O26: each failed check is the halt of R240. -/
theorem toneHaltsOnFailedCheck : Obligations.ToneHaltsOnFailedCheck := by
  unfold Obligations.ToneHaltsOnFailedCheck
  intro s pin f ms
  simp only [← raiseFault_eq_haltedState]
  exact ⟨exec_tone_notInit pin f ms, exec_tone_pin f ms, exec_tone_freqZero ms, exec_tone_freqRange ms⟩

/-! ## What the two commands do when they complete -/

/-- Settles O24: PWMINIT is its writes and a completion; level 0 is silent. -/
theorem pwminitEnablesSilentChannel : Obligations.PwminitEnablesSilentChannel := by
  unfold Obligations.PwminitEnablesSilentChannel
  intro s pin
  exact ⟨_, exec_pwminit pin s, State.pwmOut_of_level_zero rfl, responseWord_noData .pwminit, complete_toRegs _ _ _,
    onlyTimePassed_complete (responseWord_noData .pwminit) rfl rfl rfl rfl rfl⟩

/-- A completion does not restart the sleep timer. -/
theorem complete_slpCnt {s : State} (i : Instr) (data : BitVec 32) (h : s.slpCnt = 0) :
    (complete i data s).slpCnt = 0 :=
  advance_slpCnt (s := takeFree s) h

/-- A completed TONE has written the tone's wraparound, level 0 and the registers of a completion. -/
theorem completedTone_toRegs (i : Instr) (f ms : Nat) (s : State) :
    (complete i 0 (tone f ms s)).toRegs = completedRegs i 0 (s.freeIdx + 1 + 1 + 1)
      { s.toRegs with pwmTop := BitVec.ofNat 32 (topOf s.cfg f), pwmLevel := 0 } := by
  rw [complete_toRegs, tone_toRegs]
  rfl

/-- Settles O25: with its four checks passed TONE is `Tone(f, ms)` and a completion; each part of the statement is a law
of the two. -/
theorem toneSoundsThenSilences : Obligations.ToneSoundsThenSilences := by
  unfold Obligations.ToneSoundsThenSilences
  intro s pin f ms hcfg hinit hpin hzero hrange
  have hregs := completedTone_toRegs (.tone pin f ms) f.toNat ms.toNat s
  have hsilent : (complete (.tone pin f ms) 0 (tone f.toNat ms.toNat s)).pwmLevel = 0 := by rw [hregs]; rfl
  have htime := tone_now (f := f.toNat) hcfg (Nat.le_of_lt_succ ms.isLt)
  obtain ⟨a, ha⟩ := engineRan_tone f.toNat ms.toNat s
  obtain ⟨b, hb⟩ := engineRan_complete (.tone pin f ms) 0 (tone f.toNat ms.toNat s)
  refine ⟨_, exec_tone_completes ms hinit hpin hzero hrange, ?_, hsilent, (counterBelow_tone _ _ s).complete _ _,
    complete_slpCnt _ _ (sleep_slpCnt _ _), State.pwmOut_of_level_zero hsilent, responseWord_noData .tone, ?_, ?_, ?_, ?_,
    a + b, ha.trans (by rw [tone_toRegs]) hb⟩
  · rw [hregs]
    exact topOf_toNat f.toNat hcfg
  · rw [hregs]
    rfl
  · rw [complete_sequencerEvents, tone_sequencerEvents, List.append_assoc]
    exact congrArg (fun w => _ ++ [_, _, _, _, Event.rsp w]) (responseWord_noData .tone)
  · rw [complete_now]
    exact htime.trans (Nat.le_add_right _ _)
  · rw [complete_pushedWords, tone_pushedWords]

/-! ## A tone is never left sounding (R161) -/

theorem complete_pwmLevel (i : Instr) (data : BitVec 32) (s : State) : (complete i data s).pwmLevel = s.pwmLevel := by
  rw [complete_toRegs, completedRegs]

theorem endReads_pwmLevel (i : Instr) (r : Bool × State) : (endReads i r).pwmLevel = r.2.pwmLevel := by
  unfold endReads
  split
  · exact complete_pwmLevel _ _ _
  · rfl

/-- A command that makes no read and has ended its work has left no level: PWMINIT and TONE write 0, the others none. -/
theorem Effect.silent {s u : State} {i : Instr} {data : BitVec 32} (h : Effect s i data u) (hs : s.pwmLevel = 0) :
    u.pwmLevel = 0 := by
  cases h with
  | write sent _ hpush => rwa [pushPixels_toRegs hpush]
  | pwminit => rfl
  | tone => rw [tone_toRegs]
  | ledinit | setpix | clear | delay | getRegister | getPixel | getSymbol => exact hs

/-- Every press ends its feedback tone before the next read begins. -/
theorem reads_silent {store : Bool} {rem : Nat} {s : State} (hs : s.pwmLevel = 0) :
    (reads store rem s).2.pwmLevel = 0 := by
  induction rem generalizing s with
  | zero => exact hs
  | succ rem ih =>
    obtain hnone | ⟨waits, p, rest, sym, hins, hwaits, hp⟩ := press_split s.cfg s.inputs
    · obtain ⟨t, -, hpolled, hreads⟩ := reads_released (store := store) (rem := rem) hnone
      rw [hreads, hpolled.regs]
      exact hs
    · obtain ⟨t, -, -, hreads⟩ := reads_press (store := store) (rem := rem) hins hwaits hp
      rw [hreads]
      exact ih (by cases store <;> simp)

theorem resumeRead_silent {s : State} (hs : s.pwmLevel = 0) : (resumeRead s).pwmLevel = 0 := by
  unfold resumeRead
  split
  · exact hs
  · split
    · exact hs
    · rw [endReads_pwmLevel]
      exact reads_silent hs

theorem ReadsBegin.pwmLevel {s u : State} {i : Instr} {rem : Nat} (h : ReadsBegin s i rem u) :
    u.pwmLevel = s.pwmLevel := by
  cases h <;> rfl

theorem ExecNext.silent {s t : State} {i : Instr} (h : ExecNext s i t) (hs : s.pwmLevel = 0) : t.pwmLevel = 0 := by
  cases h with
  | fault e => rwa [raiseFault_toRegs]
  | completed heffect => rw [complete_pwmLevel, heffect.silent hs]
  | reads hbegin =>
    rw [endReads_pwmLevel]
    exact reads_silent (hbegin.pwmLevel.trans hs)

theorem runStep_silent {s t : State} (h : runStep s = .next t) (hs : s.pwmLevel = 0) : t.pwmLevel = 0 := by
  obtain ⟨rfl, -⟩ | ⟨-, -, rfl⟩ | ⟨-, -, c, rest, -, hrun⟩ := runStep_cases h
  · exact hs
  · exact resumeRead_silent hs
  · have haccept : (accept rest s).pwmLevel = 0 := by rwa [accept_toRegs]
    obtain ⟨e, -, rfl⟩ | ⟨i, -, hexec⟩ := hrun
    · rwa [illegalCommand, raiseFault_toRegs]
    · exact (exec_next hexec).silent haccept

theorem holdReset_silent (s : State) : (holdReset s).pwmLevel = 0 := by
  unfold holdReset
  split <;> rfl

theorem step_silent {s t : State} (h : step s = .next t) (hs : s.pwmLevel = 0) : t.pwmLevel = 0 := by
  obtain ⟨-, ⟨-, rfl⟩ | ⟨-, hrun⟩ | ⟨-, p, later, -, rfl | ⟨u, -, rfl⟩⟩⟩ := step_cases h
  · exact holdReset_silent s
  · exact runStep_silent hrun hs
  · rfl
  · rfl

/-- Settles O30: a reset leaves level 0, every case of a step keeps it, and level 0 is silent. -/
theorem stepKeepsSilence : Obligations.StepKeepsSilence := by
  unfold Obligations.StepKeepsSilence
  exact ⟨fun _ => rfl, fun s t hs hstep =>
    ⟨step_silent hstep hs, State.pwmOut_of_level_zero (step_silent hstep hs)⟩⟩

end Sys2Proof.Machine

/-! # PROOFS. The BTN unit: READSYM and READSEQ (spec/42_button.md) -/

namespace Sys2Proof.Machine

/-! ## READSYM and READSEQ, check by check (R174, R176, R233) -/

theorem exec_readsym_notInit {s : State} (h : s.pwmInit = false) :
    exec .readsym s = .next (raiseFault .notInit (encode .readsym) s) := if_pos h

theorem exec_readsym_reads {s : State} (h : s.pwmInit = true) :
    exec .readsym s = .next (endReads .readsym (reads false 1 s)) := if_neg (by simp [h])

theorem exec_readseq_notInit {s : State} (length : BitVec 16) (h : s.pwmInit = false) :
    exec (.readseq length) s = .next (raiseFault .notInit (encode (.readseq length)) s) := if_pos h

theorem exec_readseq_seqLen {s : State} {length : BitVec 16} (h : s.pwmInit = true) (hlen : seqCap < length.toNat) :
    exec (.readseq length) s = .next (raiseFault .seqLen (encode (.readseq length)) s) := by
  rw [exec, execReadseq, if_neg (by simp [h]), if_pos hlen]

theorem exec_readseq_reads {s : State} {length : BitVec 16} (h : s.pwmInit = true) (hlen : length.toNat ≤ seqCap) :
    exec (.readseq length) s =
      .next (endReads (.readseq length) (reads true length.toNat (emptySequence s))) := by
  rw [exec, execReadseq, if_neg (by simp [h]), if_neg (Nat.not_lt.mpr hlen)]

/-- Settles O40: each failed check is the halt of R240. -/
theorem readsHaltOnFailedCheck : Obligations.ReadsHaltOnFailedCheck := by
  unfold Obligations.ReadsHaltOnFailedCheck
  intro s
  simp only [← raiseFault_eq_haltedState]
  exact ⟨fun h => ⟨exec_readsym_notInit h, fun length => exec_readseq_notInit length h⟩,
    fun h _ hlen => exec_readseq_seqLen h hlen⟩

/-! ## One read that a press ends (R172) -/

/-- What the trace shows of the feedback of a press. -/
def feedbackEvents (cfg : Config) : List Event :=
  [.tonOn (topOf cfg feedbackHz) (levelOf (topOf cfg feedbackHz)), .slept feedbackMs, .tonOff, .slept toneGapMs,
    .slept debounceMs]

/-- What one read has done that `p` ended, of the Symbol `sym`, after the released samples `waits`. -/
structure ReadOnce (waits : List Sample) (p : Sample) (sym : Symbol) (s t : State) : Prop where
  regs : t.toRegs =
    { s.toRegs with
        inputs := t.inputs
        btnState := .debounce
        btnRem := t.btnRem
        result := sym
        resultValid := true
        pwmTop := BitVec.ofNat 32 (topOf s.cfg feedbackHz)
        pwmLevel := 0
        freeIdx := t.freeIdx }
  events : sequencerEvents t.trace = sequencerEvents s.trace ++
    (waits ++ [p]).map (fun q => .polled q.aN q.bN) ++ feedbackEvents s.cfg
  time : s.cfg.wf = true → s.now + waits.length * s.cfg.pollCycles + 350 * cycPerMs s.cfg ≤ t.now
  timer : t.slpCnt = 0

/-- A polling loop that ends with a press, then its feedback. -/
theorem Polled.feedback {waits : List Sample} {p : Sample} {rem : Nat} {s t : State}
    (h : Polled (waits ++ [p]) waits.length (enterPoll rem s) t) (sym : Symbol) :
    ReadOnce waits p sym s (feedback sym t) where
  regs := by rw [feedback_toRegs, h.regs, enterPoll_toRegs]
  events := by
    rw [feedback_sequencerEvents, h.events, h.regs, enterPoll_toClocked, enterPoll_toRegs]
    rfl
  time hcfg := by
    have hnow := h.time
    have hfeedback := feedback_now (sym := sym) (s := t) (by rw [h.regs]; exact hcfg)
    rw [h.regs] at hfeedback
    simp only [enterPoll_toRegs, enterPoll_toClocked] at hnow hfeedback
    omega
  timer := feedback_slpCnt sym t

/-- A read with a press among the samples supplied is a `ReadOnce`; the next read begins with the samples after it. -/
theorem reads_readOnce (store : Bool) (rem : Nat) {waits : List Sample} {p : Sample} {rest : List Sample} {sym : Symbol}
    {s : State} (hi : s.inputs = waits ++ p :: rest) (hw : ∀ q ∈ waits, pressedSymbol s.cfg q = none)
    (hp : pressedSymbol s.cfg p = some sym) :
    ∃ t, t.inputs = rest ∧ ReadOnce waits p sym s t ∧
      reads store (rem + 1) s = reads store rem (if store then storeSymbol sym t else t) := by
  obtain ⟨t, hrest, hpolled, hreads⟩ := reads_press (store := store) (rem := rem) hi hw hp
  exact ⟨feedback sym t, by rw [feedback_toRegs, hrest], hpolled.feedback sym, hreads⟩

/-- READSYM with a press among the samples supplied is that one read and a completion (R174). -/
theorem exec_readsym_press {waits : List Sample} {p : Sample} {rest : List Sample} {sym : Symbol} {s : State}
    (hinit : s.pwmInit = true) (hi : s.inputs = waits ++ p :: rest) (hw : ∀ q ∈ waits, pressedSymbol s.cfg q = none)
    (hp : pressedSymbol s.cfg p = some sym) :
    ∃ t, t.inputs = rest ∧ ReadOnce waits p sym s t ∧ (reads false 1 s).2 = enterIdle t ∧
      exec .readsym s = .next (complete .readsym (symbolBit sym) (enterIdle t)) := by
  obtain ⟨t, hrest, hread, hreads⟩ := reads_readOnce false 0 hi hw hp
  have hend : reads false 1 s = (true, enterIdle t) := hreads
  have hdata : readData .readsym (enterIdle t) = symbolBit sym := by
    rw [readData, enterIdle_toRegs, hread.regs]
  refine ⟨t, hrest, hread, by rw [hend], ?_⟩
  rw [exec_readsym_reads hinit, hend, endReads, if_pos rfl, hdata]

theorem pressedSymbol_eq_none_iff {cfg : Config} {q : Sample} :
    pressedSymbol cfg q = none ↔ q.aN = true ∧ q.bN = true := by
  obtain ⟨_ | _, _ | _⟩ := q <;> simp [pressedSymbol]

/-- "Button A is checked first" (R172). -/
theorem pressedSymbol_eq_some_iff {cfg : Config} {p : Sample} {sym : Symbol} :
    pressedSymbol cfg p = some sym ↔
      (p.aN = false ∧ sym = cfg.symA) ∨ (p.aN = true ∧ p.bN = false ∧ sym = cfg.symB) := by
  obtain ⟨_ | _, _ | _⟩ := p <;> simp [pressedSymbol, eq_comm]

/-- A run of reads and the completion of its command let the engine run on (R281). -/
theorem engineRan_reads_complete {store : Bool} {rem : Nat} {s t : State} (h : (reads store rem s).2 = t) (i : Instr)
    (data : BitVec 32) : ∃ k, EngineRan k s (complete i data t) := by
  subst h
  exact (engineLeft_reads store rem s).ran (reads_cfg store rem s) (engineRan_complete i data _)

/-- Settles O34: READSYM is one `ReadOnce` and a completion; each part of the statement is a law of the two. -/
theorem readsymReturnsFirstPress : Obligations.ReadsymReturnsFirstPress := by
  unfold Obligations.ReadsymReturnsFirstPress
  intro s waits p rest sym hcfg hinit hins hwaits hpress
  obtain ⟨t, hrest, hread, hreads, hexec⟩ := exec_readsym_press hinit hins
    (fun q hq => pressedSymbol_eq_none_iff.mpr (hwaits q hq)) (pressedSymbol_eq_some_iff.mpr hpress)
  have hpushed : t.pushedWords = s.pushedWords := by rw [← reads_pushedWords false 1 s, hreads, enterIdle_toClocked]
  have htop : t.pwmTop = BitVec.ofNat 32 (topOf s.cfg feedbackHz) := by rw [hread.regs]
  have hdata : symbolBit sym = if sym = .red then 1 else 0 := by cases sym <;> rfl
  have htime := hread.time hcfg
  refine ⟨_, hexec, ?_, ?_, ?_, ?_, ?_, complete_slpCnt _ _ hread.timer, ?_, engineRan_reads_complete hreads _ _⟩
  · show responseWord Instr.readsym.opcode.code 0 (symbolBit sym) = _
    cases sym <;> decide
  · rw [complete_toRegs]
    exact (congrArg BitVec.toNat htop).trans (topOf_toNat feedbackHz hcfg)
  · rw [complete_toRegs, enterIdle_toRegs, hread.regs, hrest, ← hdata]
    rfl
  · rw [complete_sequencerEvents, enterIdle_toClocked, hread.events, complete_toRegs, List.map_append]
    simp only [List.append_assoc]
    rfl
  · rw [complete_now]
    exact htime.trans (Nat.le_add_right _ _)
  · rw [complete_pushedWords, enterIdle_toClocked, hpushed]

/-! ## Elements written one after the other (10_state.md R41) -/

/-- The values `vs` written to the elements from `i` on. -/
def Memory.writeFrom {α : Type} : Nat → List α → Memory α → Memory α
  | _, [], m => m
  | i, v :: vs, m => Memory.writeFrom (i + 1) vs (m.write i v)

theorem Memory.read_writeFrom {α : Type} (i : Nat) (vs : List α) (m : Memory α) (j : Nat) :
    (m.writeFrom i vs).read j = if i ≤ j ∧ j < i + vs.length then vs[j - i]? else m.read j := by
  induction vs generalizing i m with
  | nil => rw [writeFrom, if_neg (by simp)]
  | cons v vs ih =>
    rw [writeFrom, ih, Memory.read_write, List.length_cons]
    rcases Nat.lt_trichotomy j i with hlt | rfl | hgt
    · rw [if_neg (by omega), if_neg (by omega), if_neg (by omega)]
    · rw [if_neg (by omega), if_pos rfl, if_pos (by omega), Nat.sub_self, List.getElem?_cons_zero]
    · obtain ⟨d, rfl⟩ := Nat.exists_eq_add_of_lt hgt
      rw [if_neg (show i + d + 1 ≠ i by omega), show i + d + 1 - i = d + 1 by omega,
        show i + d + 1 - (i + 1) = d by omega, List.getElem?_cons_succ]
      exact if_congr (by omega) rfl rfl

/-! ## The reads of READSEQ (R176) -/

/-- The first press among some samples, then those after it. -/
theorem filterMap_press {cfg : Config} {waits : List Sample} {p : Sample} {sym : Symbol} (rest : List Sample)
    (hw : ∀ q ∈ waits, pressedSymbol cfg q = none) (hp : pressedSymbol cfg p = some sym) :
    (waits ++ p :: rest).filterMap (pressedSymbol cfg) = sym :: rest.filterMap (pressedSymbol cfg) := by
  rw [List.filterMap_append, List.filterMap_eq_nil_iff.mpr hw, List.filterMap_cons_some hp, List.nil_append]

/-- What the reads of READSEQ have done that used the samples `used` and stored their `presses`. -/
structure PressesStored (used : List Sample) (presses : List Symbol) (s t : State) : Prop where
  inputs : s.inputs = used ++ t.inputs
  symbols : used.filterMap (pressedSymbol s.cfg) = presses
  lastPressed : ∀ p, used.getLast? = some p → pressedSymbol s.cfg p ≠ none
  regs : t.toRegs =
    { s.toRegs with
        inputs := t.inputs
        btnState := t.btnState
        btnRem := t.btnRem
        result := presses.getLast?.getD s.result
        resultValid := s.resultValid || decide (presses ≠ [])
        seqbuf := s.seqbuf.writeFrom s.seqlen.toNat presses
        seqlen := BitVec.ofNat 7 (s.seqlen.toNat + presses.length)
        pwmTop := if presses = [] then s.pwmTop else BitVec.ofNat 32 (topOf s.cfg feedbackHz)
        pwmLevel := if presses = [] then s.pwmLevel else 0
        freeIdx := t.freeIdx }
  time : s.cfg.wf = true → s.now + presses.length * 350 * cycPerMs s.cfg ≤ t.now
  timer : presses ≠ [] ∨ s.slpCnt = 0 → t.slpCnt = 0

theorem PressesStored.refl (s : State) : PressesStored [] [] s s where
  inputs := rfl
  symbols := rfl
  lastPressed := by simp
  regs := by simp [Memory.writeFrom]
  time _ := by simp
  timer h := h.resolve_left (not_not.mpr rfl)

/-- One read, its Symbol stored, then the other reads. -/
theorem PressesStored.cons {waits used : List Sample} {p : Sample} {sym : Symbol} {presses : List Symbol}
    {s t v : State} (hi : s.inputs = waits ++ p :: t.inputs) (hw : ∀ q ∈ waits, pressedSymbol s.cfg q = none)
    (hp : pressedSymbol s.cfg p = some sym) (hroom : s.seqlen.toNat < seqCap) (hread : ReadOnce waits p sym s t)
    (h : PressesStored used presses (storeSymbol sym t) v) :
    PressesStored (waits ++ p :: used) (sym :: presses) s v := by
  obtain ⟨hinputs, hsymbols, hlast, hregs, htime, htimer⟩ := h
  have hcfg : t.cfg = s.cfg := by rw [hread.regs]
  have hlen : t.seqlen = s.seqlen := by rw [hread.regs]
  simp only [storeSymbol_toRegs, storeSymbol_toClocked, hcfg] at hinputs hsymbols hlast htime
  simp only [storeSymbol_toRegs, hlen, hcfg, seqlen_succ_toNat hroom] at hregs
  refine ⟨?_, ?_, ?_, ?_, ?_, ?_⟩
  · rw [hi, hinputs, List.append_assoc, List.cons_append]
  · rw [filterMap_press used hw hp, hsymbols]
  · intro q hq
    rw [List.getLast?_append, List.getLast?_cons, Option.some_or, Option.some.injEq] at hq
    subst hq
    cases hused : used.getLast? with
    | none => simp [hp]
    | some q => exact hlast q hused
  · rw [hregs, hread.regs]
    simp [Memory.writeFrom, List.getLast?_cons, Nat.add_assoc, Nat.add_comm 1]
  · intro hwf
    have hfirst := hread.time hwf
    have hrest := htime hwf
    rw [List.length_cons, Nat.add_mul, Nat.add_mul]
    omega
  · exact fun _ => htimer (.inr hread.timer)

/-- With enough presses among the samples supplied the reads end, each press stored. -/
theorem reads_store {rem : Nat} {s : State}
    (henough : rem ≤ (s.inputs.filterMap (pressedSymbol s.cfg)).length) (hroom : s.seqlen.toNat + rem ≤ seqCap) :
    ∃ t used, reads true rem s = (true, enterIdle t) ∧
      PressesStored used ((s.inputs.filterMap (pressedSymbol s.cfg)).take rem) s t := by
  induction rem generalizing s with
  | zero => exact ⟨s, [], reads_zero true s, .refl s⟩
  | succ rem ih =>
    obtain hnone | ⟨waits, p, rest, sym, hins, hwaits, hp⟩ := press_split s.cfg s.inputs
    · rw [List.filterMap_eq_nil_iff.mpr hnone] at henough
      exact absurd henough (Nat.not_succ_le_zero rem)
    · obtain ⟨t, rfl, hread, hreads⟩ := reads_readOnce true rem hins hwaits hp
      have hcfg : t.cfg = s.cfg := by rw [hread.regs]
      have hlen : t.seqlen = s.seqlen := by rw [hread.regs]
      have hpresses : s.inputs.filterMap (pressedSymbol s.cfg) = sym :: t.inputs.filterMap (pressedSymbol s.cfg) := by
        rw [hins, filterMap_press _ hwaits hp]
      have hfree : s.seqlen.toNat < seqCap := by omega
      rw [hpresses] at henough ⊢
      obtain ⟨v, used, hrest, hstored⟩ := ih (s := storeSymbol sym t)
        (by simpa [hcfg] using henough) (by rw [storeSymbol_toRegs, hlen, seqlen_succ_toNat hfree]; omega)
      simp only [storeSymbol_toRegs, hcfg] at hstored
      exact ⟨v, waits ++ p :: used, hreads.trans hrest, .cons hins hwaits hp hfree hread hstored⟩

/-- The response of READSEQ carries its length (R176). -/
theorem responseWord_readseq (length : BitVec 16) :
    responseWord 0x31 0 (length.setWidth 32) = (0x31 : BitVec 8) ++ (0 : BitVec 40) ++ length := by
  apply BitVec.eq_of_toNat_eq
  have hlen : length.toNat < 2 ^ 32 := by omega
  simp only [responseWord, BitVec.toNat_append, BitVec.toNat_setWidth, Nat.mod_eq_of_lt hlen]
  simp

/-- Settles O35: the reads end with the presses stored (`reads_store`), and the command completes. -/
theorem readseqStoresThePresses : Obligations.ReadseqStoresThePresses := by
  unfold Obligations.ReadseqStoresThePresses
  intro s length presses hcfg hinit hlen hpresses henough
  change s.inputs.filterMap (pressedSymbol s.cfg) = presses at hpresses
  obtain ⟨t, used, hreads, hstored⟩ := reads_store (s := emptySequence s) (hpresses ▸ henough)
    (by simpa [seqCap] using hlen)
  simp only [emptySequence_toRegs, hpresses] at hstored
  have hcount : (presses.take length.toNat).length = length.toNat := List.length_take_of_le henough
  generalize hp : presses.take length.toNat = stored at hstored hcount
  have hnil : stored = [] ↔ length = 0 := by
    rw [← List.length_eq_zero_iff, hcount]
    exact BitVec.toNat_inj (y := 0)
  have hexec : exec (.readseq length) s =
      .next (complete (.readseq length) (length.setWidth 32) (enterIdle t)) := by
    rw [exec_readseq_reads hinit hlen, hreads, endReads, if_pos rfl, readData]
  have hseqlen : t.seqlen.toNat = length.toNat := by
    rw [hstored.regs]
    show (BitVec.ofNat 7 (0 + stored.length)).toNat = length.toNat
    rw [BitVec.toNat_ofNat, Nat.zero_add, hcount]
    exact Nat.mod_eq_of_lt (by omega)
  have hseqbuf : t.seqbuf = s.seqbuf.writeFrom 0 stored := by
    rw [hstored.regs]
    rfl
  have hresult : (if length = 0 then s.result else stored.getLast?.getD s.result) = stored.getLast?.getD s.result :=
    ite_eq_right_iff.mpr fun hzero => by rw [hnil.mpr hzero]; rfl
  have hpushed : t.pushedWords = s.pushedWords := by
    have hkept := reads_pushedWords true length.toNat (emptySequence s)
    rwa [hreads] at hkept
  refine ⟨_, used, hexec, ?_, ?_, ?_, ?_, ?_, ?_, ?_, ?_, ?_, ?_, ?_, ?_⟩
  · intro i hi
    rw [complete_toRegs, completedRegs, enterIdle_toRegs, hseqbuf, Memory.read_writeFrom, if_pos (by omega),
      Nat.sub_zero, ← hp, List.getElem?_take_of_lt hi]
  · intro i hi
    rw [complete_toRegs, completedRegs, enterIdle_toRegs, hseqbuf, Memory.read_writeFrom, if_neg (by omega)]
  · rw [complete_toRegs]
    exact hseqlen
  · exact hstored.inputs
  · exact hstored.symbols
  · intro p hlast
    by_contra! hreleased
    exact hstored.lastPressed p hlast (pressedSymbol_eq_none_iff.mpr (by simpa using hreleased))
  · exact responseWord_readseq length
  · rw [complete_toRegs, enterIdle_toRegs, hstored.regs]
    simp only [ne_eq, hnil, hresult]
    rfl
  · have htime := hstored.time hcfg
    rw [hcount] at htime
    rw [complete_now]
    exact htime.trans (Nat.le_add_right _ _)
  · exact fun h => complete_slpCnt _ _ (hstored.timer (h.imp_left (mt hnil.mp)))
  · rw [complete_pushedWords, enterIdle_toClocked, hpushed]
  · obtain ⟨k, hran⟩ := engineRan_reads_complete (t := enterIdle t) (by rw [hreads]) (.readseq length)
      (length.setWidth 32)
    exact ⟨k, EngineRan.before (t := emptySequence s) ⟨rfl, rfl, rfl, rfl, rfl⟩ hran⟩

/-! ## A read that waited goes on (R171, 60_exceptions.md R246) -/

/-- More samples listed after those there are (00_scope.md R14), and what the block says of a running command. -/
def listMore (late : List Sample) (busy : Bool) (running : Option Instr) (s : State) : State :=
  { s with inputs := s.inputs ++ late, busy := busy, running := running }

/-- The next read begins here: the feedback of a press, its Symbol stored if it is to be. -/
def afterPress (store : Bool) (sym : Symbol) (s : State) : State :=
  if store then storeSymbol sym (feedback sym s) else feedback sym s

section
variable (late : List Sample) (busy : Bool) (running : Option Instr)

theorem toneStart_listMore (f : Nat) (s : State) :
    toneStart f (listMore late busy running s) = listMore late busy running (toneStart f s) := rfl

theorem toneStop_listMore (s : State) :
    toneStop (listMore late busy running s) = listMore late busy running (toneStop s) := rfl

theorem sleep_listMore (ms : Nat) (s : State) :
    sleep ms (listMore late busy running s) = listMore late busy running (sleep ms s) := rfl

theorem latchPress_listMore (sym : Symbol) (s : State) :
    latchPress sym (listMore late busy running s) = listMore late busy running (latchPress sym s) := rfl

theorem enterGap_listMore (s : State) :
    enterGap (listMore late busy running s) = listMore late busy running (enterGap s) := rfl

theorem enterDebounce_listMore (s : State) :
    enterDebounce (listMore late busy running s) = listMore late busy running (enterDebounce s) := rfl

/-- The feedback of a press takes no sample and does not look at what runs. -/
theorem afterPress_listMore (store : Bool) (sym : Symbol) (s : State) :
    afterPress store sym (listMore late busy running s) = listMore late busy running (afterPress store sym s) := by
  have hfeedback : feedback sym (listMore late busy running s) = listMore late busy running (feedback sym s) := by
    simp only [feedback, latchPress_listMore, toneStart_listMore, sleep_listMore, toneStop_listMore, enterGap_listMore,
      enterDebounce_listMore]
  cases store with
  | false => exact hfeedback
  | true => exact congrArg (storeSymbol sym) hfeedback

/-- A polling loop that ends with a press does not look at the samples listed after it; one that has looked at all goes
on with them. -/
theorem pollLoop_listMore (ins : List Sample) (s : State) :
    pollLoop (ins ++ late) (listMore late busy running s) =
      match pollLoop ins s with
      | (some sym, t) => (some sym, listMore late busy running t)
      | (none, t) => pollLoop late (listMore late busy running t) := by
  induction ins generalizing s with
  | nil => rfl
  | cons p rest ih =>
    have hcfg : (listMore late busy running s).cfg = s.cfg := rfl
    rw [List.cons_append, pollLoop, pollLoop, hcfg]
    cases hp : pressedSymbol s.cfg p with
    | some sym => rfl
    | none => exact ih (advance s.cfg.pollCycles (takeSample p rest s))

end

/-- What follows the polling loop of a read, with `rem` reads after it. -/
def afterPoll (store : Bool) (rem : Nat) : Option Symbol × State → Bool × State
  | (none, t) => (false, t)
  | (some sym, t) => reads store rem (afterPress store sym t)

theorem reads_succ (store : Bool) (rem : Nat) (s : State) :
    reads store (rem + 1) s = afterPoll store rem (pollLoop s.inputs (enterPoll (rem + 1) s)) := rfl

theorem reads_succ_listMore (late : List Sample) (busy : Bool) (running : Option Instr) (store : Bool) (rem : Nat)
    (s : State) :
    reads store (rem + 1) (listMore late busy running s) =
      afterPoll store rem (pollLoop (s.inputs ++ late) (listMore late busy running (enterPoll (rem + 1) s))) := rfl

/-! ### What was said of the running command makes no difference -/

theorem listMore_nil (busy : Bool) (running : Option Instr) (s : State) :
    listMore [] busy running s = { s with busy := busy, running := running } := by
  rw [listMore, List.append_nil]

theorem readData_congr {i : Instr} {s t : State} (h : t.result = s.result) : readData i t = readData i s := by
  unfold readData
  rw [h]

theorem endReads_listMore_nil (i : Instr) (busy : Bool) (running : Option Instr) (done : Bool) (s : State) :
    endReads i (done, listMore [] busy running s) = endReads i (done, s) := by
  rw [listMore_nil]
  cases done with
  | false => rfl
  | true =>
    have hdata : readData i { s with busy := busy, running := running } = readData i s := readData_congr rfl
    show complete i (readData i { s with busy := busy, running := running }) _ = _
    rw [hdata]
    rfl

/-- A read command that ends or waits says itself whether it runs. -/
theorem endReads_reads_listMore_nil (i : Instr) (busy : Bool) (running : Option Instr) (store : Bool) (rem : Nat)
    (s : State) :
    endReads i (reads store rem (listMore [] busy running s)) = endReads i (reads store rem s) := by
  induction rem generalizing s with
  | zero => exact endReads_listMore_nil i busy running true (enterIdle s)
  | succ rem ih =>
    rw [reads_succ_listMore, pollLoop_listMore, reads_succ]
    rcases pollLoop s.inputs (enterPoll (rem + 1) s) with ⟨_ | sym, t⟩
    · exact endReads_listMore_nil i busy running false t
    · rw [afterPoll, afterPoll, afterPress_listMore]
      exact ih (afterPress store sym t)

theorem endReads_reads_listMore (i : Instr) (late : List Sample) (busy : Bool) (running : Option Instr) (busy' : Bool)
    (running' : Option Instr) (store : Bool) (rem : Nat) (s : State) :
    endReads i (reads store rem (listMore late busy running s)) =
      endReads i (reads store rem (listMore late busy' running' s)) := by
  have hsame : listMore [] busy running (listMore late busy' running' s) = listMore late busy running s :=
    listMore_nil ..
  rw [← hsame, endReads_reads_listMore_nil]

/-! ### The samples may come in two parts -/

/-- A read that waits has looked at all samples; what no read writes is as before. -/
theorem reads_waits {store : Bool} {rem : Nat} {s w : State} (h : reads store rem s = (false, w)) :
    w.inputs = [] ∧ w.cfg = s.cfg ∧ w.rst = s.rst ∧ w.resets = s.resets ∧ w.halted = s.halted := by
  induction rem generalizing s with
  | zero => cases h
  | succ rem ih =>
    obtain hnone | ⟨waits, p, rest, sym, hins, hwaits, hp⟩ := press_split s.cfg s.inputs
    · obtain ⟨t, hempty, hpolled, hreads⟩ := reads_released (store := store) (rem := rem) hnone
      obtain ⟨-, rfl⟩ := Prod.mk.inj (hreads.symm.trans h)
      rw [hpolled.regs]
      exact ⟨hempty, rfl, rfl, rfl, rfl⟩
    · obtain ⟨t, -, hread, hreads⟩ := reads_readOnce store rem hins hwaits hp
      have hkept : t.cfg = s.cfg ∧ t.rst = s.rst ∧ t.resets = s.resets ∧ t.halted = s.halted := by
        rw [hread.regs]
        exact ⟨rfl, rfl, rfl, rfl⟩
      obtain ⟨hcfg, hrst, hresets, hhalted⟩ := hkept
      have hrest := ih (hreads.symm.trans h)
      rw [← hcfg, ← hrst, ← hresets, ← hhalted]
      cases store <;> exact hrest

/-- The reads left go on with the samples listed since as if these had been there. -/
theorem reads_listMore {store : Bool} {rem : Nat} {s w : State} (h : reads store rem s = (false, w))
    (hrem : rem ≤ seqCap) (late : List Sample) (busy : Bool) (running : Option Instr) :
    reads store rem (listMore late busy running s) = reads store w.btnRem.toNat (listMore late busy running w) := by
  induction rem generalizing s with
  | zero => cases h
  | succ rem ih =>
    rw [reads_succ] at h
    rw [reads_succ_listMore, pollLoop_listMore]
    obtain hnone | ⟨waits, p, rest, sym, hins, hwaits, hp⟩ := press_split s.cfg s.inputs
    · obtain ⟨t, hpoll, hempty, hpolled⟩ := pollLoop_released (s := enterPoll (rem + 1) s) rfl hnone
      change pollLoop s.inputs _ = _ at hpoll
      rw [hpoll] at h ⊢
      obtain ⟨-, rfl⟩ := Prod.mk.inj h
      have hstate : t.btnState = .poll := by rw [hpolled.regs]; rfl
      have hbtnRem : t.btnRem = BitVec.ofNat 7 (rem + 1) := by rw [hpolled.regs]; rfl
      have henter : enterPoll (rem + 1) t = t := by rw [enterPoll, ← hstate, ← hbtnRem]
      have hcount : t.btnRem.toNat = rem + 1 := by
        rw [hbtnRem, BitVec.toNat_ofNat]
        exact Nat.mod_eq_of_lt (by unfold seqCap at hrem; omega)
      rw [hcount, reads_succ_listMore, henter, hempty]
      rfl
    · obtain ⟨t, hpoll, -⟩ := pollLoop_press (rest := rest) (s := enterPoll (rem + 1) s) hwaits hp
      rw [← hins] at hpoll
      rw [hpoll] at h ⊢
      rw [afterPoll, afterPress_listMore]
      exact ih h (Nat.le_of_succ_le hrem)

/-! ### From the command to the step that goes on -/

theorem ReadsBegin.exec {s u : State} {i : Instr} {rem : Nat} (h : ReadsBegin s i rem u) :
    exec i s = .next (endReads i (reads (readStores i) rem u)) := by
  cases h with
  | readsym hinit => exact exec_readsym_reads hinit
  | readseq length hinit hcap => exact exec_readseq_reads hinit hcap

theorem ReadsBegin.listMore {s u : State} {i : Instr} {rem : Nat} (h : ReadsBegin s i rem u) (late : List Sample)
    (busy : Bool) (running : Option Instr) :
    ReadsBegin (listMore late busy running s) i rem (listMore late busy running u) := by
  cases h with
  | readsym hinit => exact .readsym hinit
  | readseq length hinit hcap => exact .readseq length hinit hcap

theorem ReadsBegin.waits {s u w : State} {i : Instr} {rem : Nat} {store : Bool} (h : ReadsBegin s i rem u)
    (hreads : reads store rem u = (false, w)) :
    w.inputs = [] ∧ w.cfg = s.cfg ∧ w.rst = s.rst ∧ w.resets = s.resets ∧ w.halted = s.halted := by
  have hwaits := reads_waits hreads
  cases h <;> exact hwaits

theorem ReadsBegin.rem_le {s u : State} {i : Instr} {rem : Nat} (h : ReadsBegin s i rem u) : rem ≤ seqCap := by
  cases h with
  | readsym => decide
  | readseq length _ hcap => exact hcap

/-- A read command whose step ends with BUSY = 1 waits. -/
theorem endReads_busy {i : Instr} {r : Bool × State} (h : (endReads i r).busy = true) :
    r = (false, r.2) ∧ endReads i r = keepWaiting i r.2 := by
  obtain ⟨_ | _, t⟩ := r
  · exact ⟨rfl, rfl⟩
  · rw [endReads, if_pos rfl, complete_toRegs] at h
    cases h

/-- The step of a waiting read makes the reads left with the samples now listed. -/
theorem step_keepWaiting {w : State} (i : Instr) {late : List Sample} (hcfg : w.cfg.wf = true) (hrst : w.rst = false)
    (hresets : w.resets = []) (hhalted : w.halted = false) (hempty : w.inputs = []) (hlate : late ≠ []) :
    step { keepWaiting i w with inputs := late } =
      .next (endReads i (reads (readStores i) w.btnRem.toNat (listMore late true (some i) w))) := by
  have hmore : { keepWaiting i w with inputs := late } = listMore late true (some i) w := by
    rw [listMore, hempty]
    rfl
  have hstep : step (listMore late true (some i) w) = .next (resumeRead (listMore late true (some i) w)) :=
    (step_quiet (s := listMore late true (some i) w) hcfg hrst hresets).trans (runStep_busy hhalted rfl)
  have hmany : (listMore late true (some i) w).inputs ≠ [] := by simpa [listMore, hempty] using hlate
  rw [hmore, hstep]
  exact congrArg Host.Outcome.next (if_neg hmany)

/-- Settles O38: the reads left go on with the later samples (`reads_listMore`), and nothing depends on what the block
said of the running command meanwhile. -/
theorem waitingReadGoesOn : Obligations.WaitingReadGoesOn := by
  unfold Obligations.WaitingReadGoesOn
  intro s w i early late hcfg hrst hresets hhalted _ hinit hi hlate hexec hwait
  obtain ⟨rem, u, hbegin⟩ : ∃ rem u, ReadsBegin { s with inputs := early } i rem u := by
    obtain rfl | ⟨length, rfl, hlen⟩ := hi
    · exact ⟨_, _, .readsym hinit⟩
    · exact ⟨_, _, .readseq length hinit hlen⟩
  rw [hbegin.exec] at hexec
  obtain rfl := Host.Outcome.next.inj hexec
  obtain ⟨hreads, hkeep⟩ := endReads_busy hwait
  obtain ⟨hempty, hcfg', hrst', hresets', hhalted'⟩ := hbegin.waits hreads
  have hstep := step_keepWaiting i (hcfg' ▸ hcfg) (hrst'.trans hrst) (hresets'.trans hresets) (hhalted'.trans hhalted)
    hempty hlate
  have hwhole : exec i { s with inputs := early ++ late } = _ := (hbegin.listMore late s.busy s.running).exec
  rw [hkeep, hstep, hwhole, reads_listMore hreads hbegin.rem_le, endReads_reads_listMore i late true (some i) s.busy
    s.running]

/-! ## READSEQ and as many READSYM (R176) -/

/-- An event that is no response. -/
def Event.notResponse : Event → Bool
  | .rsp _ => false
  | _ => true

/-- What the reads of the two ways have in common: what they depend on, and the polls, tones and sleeps of the trace. -/
structure ReadView where
  cfg : Config
  inputs : List Sample
  result : Symbol
  resultValid : Bool
  pwmTop : BitVec 32
  events : List Event

def readView (s : State) : ReadView where
  cfg := s.cfg
  inputs := s.inputs
  result := s.result
  resultValid := s.resultValid
  pwmTop := s.pwmTop
  events := (sequencerEvents s.trace).filter Event.notResponse

theorem readView_accept (rest : List Word64) (s : State) : readView (accept rest s) = readView s := by
  simp [readView, accept_toClocked]

theorem readView_complete (i : Instr) (data : BitVec 32) (s : State) : readView (complete i data s) = readView s := by
  simp [readView, completedRegs, Event.notResponse]

/-- What a read changes of the view is the same from every state. -/
theorem ReadOnce.readView_eq {waits : List Sample} {p : Sample} {sym : Symbol} {s t : State}
    (h : ReadOnce waits p sym s t) :
    readView t =
      { cfg := (readView s).cfg
        inputs := t.inputs
        result := sym
        resultValid := true
        pwmTop := BitVec.ofNat 32 (topOf (readView s).cfg feedbackHz)
        events := (readView s).events ++
          ((waits ++ [p]).map (fun q => Event.polled q.aN q.bN) ++ feedbackEvents (readView s).cfg).filter
            Event.notResponse } := by
  have hevents := congrArg (List.filter Event.notResponse) h.events
  rw [List.append_assoc, List.filter_append] at hevents
  rw [readView, hevents, h.regs]
  rfl

/-- A step over a READSYM word, with a press among the samples supplied, is one read and a completion. -/
theorem step_readsym_press {waits : List Sample} {p : Sample} {rest : List Sample} {sym : Symbol} {s : State}
    {cmds : List Word64} (hcfg : s.cfg.wf = true) (hready : s.cmdReady = true) (hresets : s.resets = [])
    (hinit : s.pwmInit = true) (hpending : s.pending = 0x3000000000000000 :: cmds)
    (hi : s.inputs = waits ++ p :: rest) (hw : ∀ q ∈ waits, pressedSymbol s.cfg q = none)
    (hp : pressedSymbol s.cfg p = some sym) :
    ∃ t, t.inputs = rest ∧ ReadOnce waits p sym (accept cmds s) t ∧
      step s = .next (complete .readsym (symbolBit sym) (enterIdle t)) := by
  have hdecode : decode 0x3000000000000000 = .ok .readsym := by decide
  obtain ⟨-, -, hrst⟩ := s.cmdReady_iff.mp hready
  have haccept := accept_toRegs cmds s
  obtain ⟨t, hrest, hread, -, hexec⟩ := exec_readsym_press (s := accept cmds s) (by rw [haccept]; exact hinit)
    (by rw [haccept]; exact hi) (by rw [haccept]; exact hw) (by rw [haccept]; exact hp)
  refine ⟨t, hrest, hread, ?_⟩
  rw [step_quiet hcfg hrst hresets, runStep_command hready hpending, runCommand_ok hdecode, hexec]

/-- As many READSYM as READSEQ has reads to make, from a state of the same view, lead to the same view. -/
theorem run_readsym {n : Nat} {u r t : State} (hview : readView u = readView r) (hcfg : u.cfg.wf = true)
    (hready : u.cmdReady = true) (hresets : u.resets = []) (hinit : u.pwmInit = true)
    (hpending : u.pending = List.replicate n 0x3000000000000000) (hreads : reads true n r = (true, t)) :
    ∃ v, Host.Core.run Sys2Proof.core n u = .next v ∧ readView v = readView t := by
  induction n generalizing u r with
  | zero =>
    obtain ⟨-, rfl⟩ := Prod.mk.inj hreads
    exact ⟨u, rfl, hview⟩
  | succ n ih =>
    have hsame : u.cfg = r.cfg := congrArg ReadView.cfg hview
    have hinputs : u.inputs = r.inputs := congrArg ReadView.inputs hview
    obtain hnone | ⟨waits, p, rest, sym, hins, hwaits, hp⟩ := press_split r.cfg r.inputs
    · obtain ⟨w, -, -, hwait⟩ := reads_released (store := true) (rem := n) hnone
      cases hwait.symm.trans hreads
    · obtain ⟨r', hrest, hread, hmore⟩ := reads_readOnce true n hins hwaits hp
      obtain ⟨u', hrest', hread', hstep⟩ := step_readsym_press hcfg hready hresets hinit hpending
        (hinputs.trans hins) (hsame ▸ hwaits) (hsame ▸ hp)
      have hview' : readView (complete .readsym (symbolBit sym) (enterIdle u')) = readView (storeSymbol sym r') := by
        have hright : readView (storeSymbol sym r') = readView r' := rfl
        have hleft : readView (enterIdle u') = readView u' := rfl
        rw [readView_complete, hleft, hright, hread.readView_eq, hread'.readView_eq, readView_accept, hview,
          hrest, hrest']
      have hregs := complete_toRegs .readsym (symbolBit sym) (enterIdle u')
      rw [enterIdle_toRegs, hread'.regs, accept_toRegs] at hregs
      rw [run_succ hstep]
      have hready' : (complete .readsym (symbolBit sym) (enterIdle u')).cmdReady = true := by
        obtain ⟨-, hhalted, hrst⟩ := u.cmdReady_iff.mp hready
        rw [State.cmdReady_iff, hregs]
        exact ⟨rfl, hhalted, hrst⟩
      exact ih hview' (by rw [hregs]; exact hcfg) hready' (by rw [hregs]; exact hresets) (by rw [hregs]; exact hinit)
        (by rw [hregs]; rfl) (hmore.symm.trans hreads)

/-- Settles O39: both ways lead to the same view (`run_readsym`), and READSEQ only completes after its reads. -/
theorem readseqIsRepeatedReadsym : Obligations.ReadseqIsRepeatedReadsym := by
  unfold Obligations.ReadseqIsRepeatedReadsym
  intro s t length hinv hready hresets hinit hlen hexec hdone
  rw [exec_readseq_reads hinit hlen] at hexec
  obtain rfl := Host.Outcome.next.inj hexec
  rcases hreads : reads true length.toNat (emptySequence s) with ⟨_ | _, r⟩
  · rw [hreads] at hdone
    cases hdone
  · obtain ⟨u, hrun, hview⟩ := run_readsym
      (u := { s with pending := List.replicate length.toNat 0x3000000000000000 }) (r := emptySequence s) rfl hinv.cfgWf
      hready hresets hinit rfl hreads
    have hsame : readView u = readView (complete (.readseq length) (readData (.readseq length) r) r) := by
      rw [readView_complete, hview]
    exact ⟨u, hrun, congrArg ReadView.result hsame, congrArg ReadView.resultValid hsame,
      congrArg ReadView.inputs hsame, congrArg ReadView.pwmTop hsame, congrArg ReadView.events hsame⟩

end Sys2Proof.Machine

/-! # PROOFS. The service commands: DELAY and GET (spec/43_service.md) -/

namespace Sys2Proof.Machine

/-! ## DELAY (R190) -/

theorem exec_delay (ms : BitVec 16) (s : State) :
    exec (.delay ms) s = .next (complete (.delay ms) 0 (sleep ms.toNat s)) := rfl

/-- A sleep and a completion let the engine and, once the timer is set, the PWM counter run on, for the same cycles:
each accounts for all the time that has passed. -/
theorem ran_sleep_complete (i : Instr) (data : BitVec 32) (ms : Nat) (s : State) :
    ∃ k, EngineRan k s (complete i data (sleep ms s)) ∧
      CounterRan k (beginSleep ms s) (complete i data (sleep ms s)) := by
  obtain ⟨a, hsleep⟩ := engineRan_sleep ms s
  obtain ⟨b, hcomplete⟩ := engineRan_complete i data (sleep ms s)
  obtain ⟨c, hcounter⟩ := counterRan_complete i data (sleep ms s)
  have hengine := hsleep.trans rfl hcomplete
  have hcounts := (CounterRan.ofAdvance (beginSleep ms s).slpCnt.toNat (beginSleep ms s)).trans hcounter
  have hsame := Nat.add_left_cancel (hcounts.now.symm.trans hengine.now)
  exact ⟨_, hengine, hsame ▸ hcounts⟩

/-- Settles O41: DELAY is `Sleep(ms)` and a completion; starting the timer does not touch the PWM counter. -/
theorem delayOnlyLetsTimePass : Obligations.DelayOnlyLetsTimePass := by
  unfold Obligations.DelayOnlyLetsTimePass
  intro s ms hcfg
  obtain ⟨k, hengine, hcounter⟩ := ran_sleep_complete (.delay ms) 0 ms.toNat s
  obtain ⟨hpre, hctr⟩ := advance_counter_congr (s := s) (t := beginSleep ms.toNat s) k rfl rfl rfl rfl rfl
  have hlong : s.now + ms.toNat * cycPerMs s.cfg ≤ s.now + k := by
    rw [← hengine.now, complete_now, sleep_now hcfg (Nat.le_of_lt_succ ms.isLt)]
    exact Nat.le_add_right _ _
  refine ⟨_, k, exec_delay ms s, responseWord_noData .delay, complete_toRegs _ _ _, ?_,
    Nat.le_of_add_le_add_left hlong, hengine, hcounter.pre.trans hpre, hcounter.counter.trans hctr,
    complete_slpCnt _ _ (sleep_slpCnt _ _)⟩
  rw [complete_sequencerEvents, sleep_sequencerEvents, List.append_assoc]
  exact congrArg (fun w => _ ++ [_, Event.rsp w]) (responseWord_noData .delay)

/-! ## GET, check by check (R192, R233) -/

theorem exec_get_register {sel : Selector} (s : State) (h : sel.indexed = false) :
    exec (.get sel 0) s = .next (complete (.get sel 0) (registerData s sel) s) := by
  cases sel with
  | pixbuf | seqbuf => cases h
  | status | pwmCsr | pwmTop | pwmLevel | pwmCtr | ledCsr | result | seqlen => rfl

theorem exec_get_illegal {sel : Selector} {idx : BitVec 16} (s : State) (h : sel.indexed = false) (hidx : idx ≠ 0) :
    exec (.get sel idx) s = .next (raiseFault .illegal (encode (.get sel idx)) s) := by
  cases sel with
  | pixbuf | seqbuf => cases h
  | status | pwmCsr | pwmTop | pwmLevel | pwmCtr | ledCsr | result | seqlen => exact if_pos hidx

theorem exec_get_pixbuf_notInit {s : State} (idx : BitVec 16) (h : s.ledInit = false) :
    exec (.get .pixbuf idx) s = .next (raiseFault .notInit (encode (.get .pixbuf idx)) s) := if_pos h

theorem exec_get_pixbuf_index {s : State} {idx : BitVec 16} (h : s.ledInit = true) (hidx : ledCount ≤ idx.toNat) :
    exec (.get .pixbuf idx) s = .next (raiseFault .index (encode (.get .pixbuf idx)) s) := by
  simp only [exec, execGet, h, Bool.true_eq_false, if_false, if_pos hidx]

theorem exec_get_pixbuf_completes {s : State} {idx : BitVec 16} {px : Pixel} (h : s.ledInit = true)
    (hidx : idx.toNat < ledCount) (hread : s.pixbuf.read idx.toNat = some px) :
    exec (.get .pixbuf idx) s = .next (complete (.get .pixbuf idx) (pixelData px) s) := by
  simp only [exec, execGet, h, Bool.true_eq_false, if_false, if_neg (Nat.not_le.mpr hidx), hread]

theorem exec_get_seqbuf_index {s : State} {idx : BitVec 16} (h : s.seqlen.toNat ≤ idx.toNat) :
    exec (.get .seqbuf idx) s = .next (raiseFault .index (encode (.get .seqbuf idx)) s) := if_pos h

theorem exec_get_seqbuf_completes {s : State} {idx : BitVec 16} {sym : Symbol} (h : idx.toNat < s.seqlen.toNat)
    (hread : s.seqbuf.read idx.toNat = some sym) :
    exec (.get .seqbuf idx) s = .next (complete (.get .seqbuf idx) (symbolBit sym) s) := by
  simp only [exec, execGet, if_neg (Nat.not_le.mpr h), hread]

/-- The selectors 0x00 to 0x07 are those without an index (10_state.md R44). -/
theorem Selector.indexed_eq_false {sel : Selector} (h : sel.code.toNat ≤ 7) : sel.indexed = false := by
  cases sel with
  | pixbuf | seqbuf => exact absurd h (by decide)
  | status | pwmCsr | pwmTop | pwmLevel | pwmCtr | ledCsr | result | seqlen => rfl

/-- Settles O45: each failed check is the halt of R240. -/
theorem getHaltsOnFailedCheck : Obligations.GetHaltsOnFailedCheck := by
  unfold Obligations.GetHaltsOnFailedCheck
  intro s idx
  simp only [← raiseFault_eq_haltedState]
  exact ⟨exec_get_pixbuf_notInit idx, exec_get_pixbuf_index, exec_get_seqbuf_index,
    fun sel hcode => exec_get_illegal s (Selector.indexed_eq_false hcode)⟩

/-! ## The data of the table, as numbers (10_state.md R44) -/

/-- A field above the bits of the others is added at its place. -/
theorem toNat_or_shiftLeft {w n : Nat} {x y : BitVec w} (hx : x.toNat < 2 ^ n) (hy : y.toNat * 2 ^ n < 2 ^ w) :
    (x ||| y <<< n).toNat = x.toNat + 2 ^ n * y.toNat := by
  rw [BitVec.toNat_or, BitVec.toNat_shiftLeft, Nat.shiftLeft_eq, Nat.mod_eq_of_lt hy, Nat.or_comm, Nat.mul_comm,
    ← Nat.two_pow_add_eq_or_of_lt hx, Nat.add_comm]

theorem flagBit_toNat (b : Bool) : (flagBit b).toNat = b.toNat := by
  cases b <;> rfl

theorem flagBits_toNat (a b c : Bool) :
    (flagBit a ||| (flagBit b <<< 1) ||| (flagBit c <<< 2)).toNat = a.toNat + 2 * b.toNat + 4 * c.toNat := by
  decide +revert

theorem byteField_toNat (x : BitVec 8) : (x.setWidth 32).toNat = x.toNat :=
  BitVec.toNat_setWidth_of_le (by decide)

theorem registerData_status_toNat (s : State) : (registerData s .status).toNat =
    s.ledInit.toNat + 2 * s.pwmInit.toNat + 4 * s.resultValid.toNat + 256 * s.engFree.toNat := by
  have hled := s.ledInit.toNat_le
  have hpwm := s.pwmInit.toNat_le
  have hvalid := s.resultValid.toNat_le
  rw [registerData, toNat_or_shiftLeft] <;> simp only [flagBits_toNat, byteField_toNat] <;> omega

theorem registerData_pwmCsr_toNat (s : State) : (registerData s .pwmCsr).toNat =
    s.pwmEn.toNat + 256 * s.pwmDiv.toNat + 65536 * s.pwmPin.toNat := by
  have hen := s.pwmEn.toNat_le
  have hlow : (flagBit s.pwmEn ||| s.pwmDiv.setWidth 32 <<< 8).toNat = s.pwmEn.toNat + 256 * s.pwmDiv.toNat := by
    rw [toNat_or_shiftLeft] <;> simp only [flagBit_toNat, byteField_toNat] <;> omega
  rw [registerData, toNat_or_shiftLeft] <;> simp only [hlow, byteField_toNat] <;> omega

theorem registerData_ledCsr_toNat (s : State) :
    (registerData s .ledCsr).toNat = s.ledInit.toNat + 256 * s.ledPin.toNat := by
  have hinit := s.ledInit.toNat_le
  rw [registerData, toNat_or_shiftLeft] <;> simp only [flagBit_toNat, byteField_toNat] <;> omega

theorem registerData_result_toNat (s : State) : (registerData s .result).toNat =
    (if s.resultValid = true ∧ s.result = .red then 1 else 0) + 256 * s.resultValid.toNat := by
  cases hv : s.resultValid <;> cases hr : s.result <;> simp [registerData, hv, hr, flagBit, symbolBit]

theorem registerData_seqlen_toNat (s : State) : (registerData s .seqlen).toNat = s.seqlen.toNat :=
  BitVec.toNat_setWidth_of_le (by decide)

/-! ## GET of a register, a pixel, a symbol (R192) -/

/-- The response of a completion as a number (30_encoding.md R100). -/
theorem responseWord_toNat (op : BitVec 8) (data : BitVec 32) :
    (responseWord op 0 data).toNat = op.toNat * 2 ^ 56 + data.toNat := by
  simp only [responseWord, BitVec.toNat_append, ← Nat.shiftLeft_add_eq_or_of_lt data.isLt]
  simp [Nat.shiftLeft_eq, Nat.mul_assoc]

/-- GET of a register answers with its number and changes nothing. -/
theorem get_register_returns {s : State} {sel : Selector} {data : Nat} (h : sel.indexed = false)
    (hdata : (registerData s sel).toNat = data) :
    ∃ t, exec (.get sel 0) s = .next t ∧
      t.rspData.toNat = 0x41 * 2 ^ 56 + data ∧
      t.toRegs = completedRegs (.get sel 0) (BitVec.ofNat 32 data) t.freeIdx s.toRegs ∧
      OnlyTimePassed t.rspData s t := by
  subst hdata
  rw [BitVec.ofNat_toNat, BitVec.setWidth_eq]
  exact ⟨_, exec_get_register s h, responseWord_toNat _ _, complete_toRegs _ _ _,
    onlyTimePassed_complete rfl rfl rfl rfl rfl rfl⟩

/-- Settles O42: row by row, the data GET packs is the number of the table. -/
theorem getReturnsTheRegister : Obligations.GetReturnsTheRegister := by
  unfold Obligations.GetReturnsTheRegister
  intro s sel data hrow
  simp only [List.mem_cons, Prod.mk.injEq, List.not_mem_nil, or_false] at hrow
  obtain ⟨rfl, rfl⟩ | ⟨rfl, rfl⟩ | ⟨rfl, rfl⟩ | ⟨rfl, rfl⟩ | ⟨rfl, rfl⟩ | ⟨rfl, rfl⟩ | ⟨rfl, rfl⟩ | ⟨rfl, rfl⟩ :=
    hrow
  · exact get_register_returns rfl (registerData_status_toNat s)
  · exact get_register_returns rfl (registerData_pwmCsr_toNat s)
  · exact get_register_returns rfl rfl
  · exact get_register_returns rfl rfl
  · exact get_register_returns rfl rfl
  · exact get_register_returns rfl (registerData_ledCsr_toNat s)
  · exact get_register_returns rfl (registerData_result_toNat s)
  · exact get_register_returns rfl (registerData_seqlen_toNat s)

/-- The response that carries a pixel (20_memory.md R66). -/
theorem responseWord_pixelData (px : Pixel) :
    responseWord 0x41 0 (pixelData px) = (0x41 : BitVec 8) ++ (0 : BitVec 32) ++ px.r ++ px.g ++ px.b := by
  apply BitVec.eq_of_toNat_eq
  simp only [responseWord, pixelData, BitVec.toNat_append]
  simp [Nat.shiftLeft_or_distrib, ← Nat.shiftLeft_add, Nat.or_assoc]

/-- Settles O43: with its two checks passed GET PIXBUF is a completion with the packed channels. -/
theorem getReturnsThePixel : Obligations.GetReturnsThePixel := by
  unfold Obligations.GetReturnsThePixel
  intro s idx px hinit hidx hread
  exact ⟨_, exec_get_pixbuf_completes hinit hidx hread, responseWord_pixelData px, complete_toRegs _ _ _,
    onlyTimePassed_complete rfl rfl rfl rfl rfl rfl⟩

theorem symbolBit_eq (sym : Symbol) : symbolBit sym = if sym = .red then 1 else 0 := by
  cases sym <;> rfl

/-- The response that carries a symbol (10_state.md R40). -/
theorem responseWord_symbolBit (sym : Symbol) :
    responseWord 0x41 0 (symbolBit sym) = if sym = .red then 0x4100000000000001 else 0x4100000000000000 := by
  cases sym <;> decide

/-- Settles O44: with its check passed GET SEQBUF is a completion with the symbol's bit. -/
theorem getReturnsTheSymbol : Obligations.GetReturnsTheSymbol := by
  unfold Obligations.GetReturnsTheSymbol
  intro s idx sym hidx hread
  refine ⟨_, exec_get_seqbuf_completes hidx hread, responseWord_symbolBit sym, ?_,
    onlyTimePassed_complete rfl rfl rfl rfl rfl rfl⟩
  rw [← symbolBit_eq]
  exact complete_toRegs _ _ _

/-! ## GET of the tone counter, through the step that accepts it (R193) -/

/-- A step over the word of a GET of a register answers with the register as the acceptance leaves it. -/
theorem step_get_register {s : State} {c : Word64} {rest : List Word64} {sel : Selector} (hcfg : s.cfg.wf = true)
    (hready : s.cmdReady = true) (hresets : s.resets = []) (hpending : s.pending = c :: rest)
    (hdecode : decode c = .ok (.get sel 0)) (hplain : sel.indexed = false) :
    step s = .next (complete (.get sel 0) (registerData (accept rest s) sel) (accept rest s)) := by
  obtain ⟨-, -, hrst⟩ := s.cmdReady_iff.mp hready
  rw [step_quiet hcfg hrst hresets, runStep_command hready hpending, runCommand_ok hdecode,
    exec_get_register _ hplain]

/-- Settles O46: the acceptance keeps the counter up to PWM_TOP, at 0 while PWM_EN = 0, and PWM_LEVEL at 0. -/
theorem getOfToneCounterIsBounded : Obligations.GetOfToneCounterIsBounded := by
  unfold Obligations.GetOfToneCounterIsBounded
  intro s rest hinv hready hresets
  have hregs := accept_toRegs rest s
  have hclock := hinv.clockOk.accept rest
  refine ⟨fun hpending => ?_, fun hpending => ?_⟩
  · have hanswer : (responseWord 0x41 0 (accept rest s).pwmCtr).toNat = 0x41 * 2 ^ 56 + (accept rest s).pwmCtr.toNat :=
      responseWord_toNat _ _
    refine ⟨_, step_get_register (sel := .pwmCtr) hinv.cfgWf hready hresets hpending (by decide) rfl, ?_, ?_, ?_⟩
    · have hbelow : (accept rest s).pwmCtr ≤ s.pwmTop := by simpa [hregs] using hclock.ctrBelow
      exact hanswer.trans_le (Nat.add_le_add_left hbelow _)
    · exact hanswer.symm ▸ Nat.le_add_right _ _
    · intro hen
      have hzero : (accept rest s).pwmCtr = 0 := (hclock.off (by rw [hregs]; exact hen)).1
      show responseWord 0x41 0 (accept rest s).pwmCtr = _
      rw [hzero]
      exact responseWord_noData .get
  · refine ⟨_, step_get_register (sel := .pwmLevel) hinv.cfgWf hready hresets hpending (by decide) rfl, ?_⟩
    have hzero : (accept rest s).pwmLevel = 0 := by rw [hregs]; exact hinv.silent
    show responseWord 0x41 0 (accept rest s).pwmLevel = _
    rw [hzero]
    exact responseWord_noData .get

end Sys2Proof.Machine

/-! # PROOFS. The reference host and its run against the block (spec/44_round_engine.md) -/

namespace Sys2Proof.Machine

/-! ## JUDGING (R207) -/

theorem gameNext_judging {g : Game} (draw : Nat → Nat → Symbol) (h : g.phase = .judging) :
    (gameNext draw g).phase = if g.sequence = g.player then .advancing else .resetting := by
  simp only [gameNext, h, enterPhase_phase, gameMatch, beq_iff_eq]

/-- Settles O53: the phase after JUDGING is decided by the equality of two lists of length Level. -/
theorem judgingComparesEveryPosition : Obligations.JudgingComparesEveryPosition := by
  unfold Obligations.JudgingComparesEveryPosition
  intro g hphase hsequence hplayer
  have hagree : g.sequence = g.player ↔ ∀ i < g.level, g.sequence[i]? = g.player[i]? := by
    rw [List.ext_getElem?_iff', hsequence, hplayer, max_self]
  refine ⟨by rw [gameCommands, hphase], fun draw => ?_⟩
  rw [gameNext_judging draw hphase, ← hagree]
  by_cases heq : g.sequence = g.player
  · simp [heq]
  · have hdiffer : ∃ i < g.level, g.sequence[i]? ≠ g.player[i]? := by simpa using mt hagree.mpr heq
    rw [if_neg heq]
    exact ⟨iff_of_false (by decide) heq, iff_of_true rfl hdiffer⟩

/-! ## The commands of a round and their sleeps (R215) -/

@[simp] theorem fillCommands_length (r g b : BitVec 8) : (fillCommands r g b).length = 25 := by
  simp [fillCommands]

@[simp] theorem fillCommands_sleep (r g b : BitVec 8) : ((fillCommands r g b).map sleepMs).sum = 0 := by
  simp [fillCommands, Function.comp_def, sleepMs]

@[simp] theorem showCommands_length (r g b : BitVec 8) (ms : BitVec 16) : (showCommands r g b ms).length = 30 := by
  simp [showCommands]

/-- SHOW sleeps in its one DELAY (R205). -/
@[simp] theorem showCommands_sleep (r g b : BitVec 8) (ms : BitVec 16) :
    ((showCommands r g b ms).map sleepMs).sum = ms.toNat := by
  simp [showCommands, sleepMs]

theorem displayCommands_length (s : Symbol) : (displayCommands s).length = 31 := by
  cases s <;> simp [displayCommands]

theorem displayCommands_sleep (s : Symbol) : ((displayCommands s).map sleepMs).sum = 1500 := by
  cases s <;> simp [displayCommands, sleepMs]

/-- The commands of DISPLAYING, symbol by symbol (R205). -/
theorem flatMap_displayCommands (ss : List Symbol) :
    (ss.flatMap displayCommands).length = ss.length * 31 ∧
      ((ss.flatMap displayCommands).map sleepMs).sum = ss.length * 1500 := by
  induction ss with
  | nil => exact ⟨rfl, rfl⟩
  | cons s ss ih =>
    obtain ⟨hlength, hsleep⟩ := ih
    simp only [List.flatMap_cons, List.length_append, List.map_append, List.sum_append, List.length_cons, hlength,
      hsleep, displayCommands_length, displayCommands_sleep]
    omega

/-- The GETs that copy the first elements of SEQBUF (R206). -/
def copyCommands (is : List Nat) : List Instr := is.map fun i => .get .seqbuf (BitVec.ofNat 16 i)

@[simp] theorem copyCommands_length (is : List Nat) : (copyCommands is).length = is.length := List.length_map _

@[simp] theorem copyCommands_sleep (is : List Nat) : ((copyCommands is).map sleepMs).sum = 0 := by
  simp [copyCommands, Function.comp_def, sleepMs]

theorem gameCommands_collecting {g : Game} (h : g.phase = .collecting) :
    gameCommands g = .readseq (BitVec.ofNat 16 g.level) :: copyCommands (List.range g.level) := by
  rw [gameCommands, h, copyCommands]

/-- A number below 2^16 survives in a 16-bit operand (30_encoding.md R91). -/
theorem toNat_operand16 {n : Nat} (h : n < 2 ^ 16) : (BitVec.ofNat 16 n).toNat = n := by
  rw [BitVec.toNat_ofNat, Nat.mod_eq_of_lt h]

/-- Settles O55: SHOW is 30 commands and sleeps in its DELAY; the other commands of a phase are counted beside it. -/
theorem roundCommandsAndTimes : Obligations.RoundCommandsAndTimes := by
  unfold Obligations.RoundCommandsAndTimes
  intro g _ hle
  refine ⟨fun hphase hlength => ?_, fun hphase => ?_, fun hphase => ?_, fun hphase => ?_⟩
  · rw [gameCommands, hphase, ← hlength]
    exact flatMap_displayCommands g.sequence
  · have hreads : (BitVec.ofNat 16 g.level).toNat = g.level := toNat_operand16 (by omega)
    rw [gameCommands_collecting hphase]
    simp [sleepMs, hreads, Nat.add_comm]
  · simp [gameCommands, hphase, beepCommands, sleepMs]
  · simp [gameCommands, hphase, beepCommands, sleepMs]

/-! ## The gap between two rounds (R217) -/

/-- Settles O59: a millisecond of whole cycles covers the frame gap (O21), and DELAY lets the engine run for at least
that (O41). -/
theorem roundGapLatchesTheFrame : Obligations.RoundGapLatchesTheFrame := by
  unfold Obligations.RoundGapLatchesTheFrame
  intro s hcfg hgood hgap hwhole
  refine ⟨fun g hphase hrounds => by simp only [gameCommands, hphase, if_neg hrounds], ?_⟩
  obtain ⟨t, k, hexec, -, -, -, hlong, hran, -⟩ := delayOnlyLetsTimePass s 1 hcfg
  refine ⟨t, hexec, hran.tx.trans (frameGapLatchesTheFrame s k hcfg hgood ?_)⟩
  have hmillisecond : s.cfg.sysclkHz ≤ k * 1000 := by
    have hcycles : s.cfg.sysclkHz / 1000 ≤ k := by simpa using hlong
    omega
  calc ((s.cfg.ledFifoDepth + 1) * 30000 + s.cfg.tLatchNs) * s.cfg.sysclkHz
    _ ≤ 1000000 * (k * 1000) := Nat.mul_le_mul hgap hmillisecond
    _ = k * 1000000000 := by ring

/-! ## A command that is issued, run and answered (R200) -/

/-- What holds of a block from one command of the host to the next, and inside a command, while it serves the host: no
reset is to come, and nothing stands on the port but what the host has just presented. -/
structure Regs.Serves (r : Regs) : Prop where
  cfgWf : r.cfg.wf = true
  gapFits : roundGapFits r.cfg = true
  noReset : r.rst = false
  noneToCome : r.resets = []
  notHalted : r.halted = false
  portFree : r.pending = []

/-- The host waits for nothing, and the block is ready for its next command. -/
structure Bench.Ready (b : Bench) : Prop where
  serves : b.block.toRegs.Serves
  notBusy : b.block.busy = false
  notWaiting : b.game.awaiting = none

theorem roundGapFits_iff {cfg : Config} :
    roundGapFits cfg = true ↔ (cfg.ledFifoDepth + 1) * 30000 + cfg.tLatchNs ≤ 1000000 := decide_eq_true_iff

theorem Regs.Serves.accept {s : State} (h : s.toRegs.Serves) : (accept [] s).toRegs.Serves := by
  rw [accept_toRegs]
  exact { h with portFree := rfl }

/-- The bench after the host has presented the command `i` (`gameIssue`), `rest` still to issue. -/
def Bench.issued (i : Instr) (rest : List Instr) (b : Bench) : Bench where
  game := (gameIssue i rest b.game b.block).1
  block := (gameIssue i rest b.game b.block).2

/-- A ready block that is presented a command runs it. -/
theorem Bench.Ready.step_issued {b : Bench} {i : Instr} (h : b.Ready) (rest : List Instr) (hwf : i.wellFormed = true) :
    step (b.issued i rest).block = exec i (accept [] b.block) := by
  obtain ⟨⟨hcfg, -, hrst, hresets, hhalted, -⟩, hbusy, -⟩ := h
  calc step (b.issued i rest).block
    _ = runStep (b.issued i rest).block := step_quiet hcfg hrst hresets
    _ = runCommand (encode i) (accept [] b.block) :=
      runStep_command ((State.cmdReady_iff _).mpr ⟨hbusy, hhalted, hrst⟩) rfl
    _ = exec i (accept [] b.block) := runCommand_ok (decodeInvertsEncode i hwf) _

/-- Three steps of the bench: the host presents its command, the block runs it, the host takes the response. -/
theorem Bench.Ready.benchRun_answered {draw : Nat → Nat → Symbol} {b : Bench} {i : Instr} {rest : List Instr}
    {t : State} (h : b.Ready) (n : Nat) (htodo : b.game.todo = i :: rest) (hwf : i.wellFormed = true)
    (hexec : exec i (accept [] b.block) = .next t) (hvalid : t.rspValid = true) (hrst : t.rst = false)
    (hpending : t.pending = []) :
    benchRun draw (n + 3) b =
      benchRun draw n ⟨gameReceive i t.rspData (b.issued i rest).game, t⟩ := by
  have hgap : roundGapFits t.cfg = true := by rw [(exec_next hexec).cfg, accept_toRegs]; exact h.serves.gapFits
  have hissue : benchStep draw b = .next (b.issued i rest) :=
    benchStep_host h.serves.gapFits h.serves.noReset (hostMove_issue h.notWaiting htodo)
  have hrun : benchStep draw (b.issued i rest) = .next ⟨(b.issued i rest).game, t⟩ :=
    benchStep_block h.serves.gapFits h.serves.noReset (hostMove_waits rfl (.inr (List.cons_ne_nil _ _)))
      ((h.step_issued rest hwf).trans hexec)
  have hreceive : benchStep draw ⟨(b.issued i rest).game, t⟩ =
      .next ⟨gameReceive i t.rspDataOut (b.issued i rest).game, t⟩ :=
    benchStep_host hgap hrst (hostMove_receive rfl (by rw [State.rspValidOut, hvalid, hrst]; rfl) hpending)
  rw [benchRun_succ hissue, benchRun_succ hrun, benchRun_succ hreceive, State.rspDataOut, hrst]
  rfl

/-- The host after its command `i` has completed with `data`, `rest` still to issue. -/
def gameCompleted (i : Instr) (data : BitVec 32) (rest : List Instr) (g : Game) : Game :=
  { g with
      todo := rest
      awaiting := none
      player :=
        if copiesSymbol i then g.player ++ [responseSymbol (responseWord i.opcode.code 0 data)] else g.player }

theorem responseCode_responseWord (op : BitVec 8) (code : BitVec 4) (data : BitVec 32) :
    responseCode (responseWord op code data) = code := by
  apply BitVec.eq_of_getLsbD_eq
  intro i hi
  unfold responseCode responseWord
  rw [BitVec.getLsbD_extractLsb', BitVec.getLsbD_append, BitVec.getLsbD_append, BitVec.getLsbD_append,
    if_neg (by omega), if_neg (by omega), if_pos (by omega), decide_eq_true hi, Bool.true_and]
  congr 1
  omega

/-- A command that completes brings the host, in three steps, to be ready for the next one. -/
theorem Bench.Ready.benchRun_completed {draw : Nat → Nat → Symbol} {b : Bench} {i : Instr} {rest : List Instr}
    {t : State} {data : BitVec 32} {k : Nat} {r : Regs} (h : b.Ready) (n : Nat) (htodo : b.game.todo = i :: rest)
    (hwf : i.wellFormed = true) (hexec : exec i (accept [] b.block) = .next t)
    (hregs : t.toRegs = completedRegs i data k r) (hr : r.Serves) :
    benchRun draw (n + 3) b = benchRun draw n ⟨gameCompleted i data rest b.game, t⟩ ∧
      Bench.Ready ⟨gameCompleted i data rest b.game, t⟩ := by
  have hserves : t.toRegs.Serves := by rw [hregs]; exact { hr with }
  have hdata : t.rspData = responseWord i.opcode.code 0 data := by rw [hregs]; rfl
  refine ⟨?_, hserves, by rw [hregs]; rfl, rfl⟩
  rw [h.benchRun_answered n htodo hwf hexec (by rw [hregs]; rfl) hserves.noReset hserves.portFree,
    gameReceive_ok _ (by rw [hdata, responseCode_responseWord]), hdata]
  rfl

/-- With no command left the host goes to its next phase. -/
theorem Bench.Ready.benchRun_next {draw : Nat → Nat → Symbol} {b : Bench} (h : b.Ready) (n : Nat)
    (htodo : b.game.todo = []) (hphase : b.game.phase ≠ .stopped) :
    benchRun draw (n + 1) b = benchRun draw n ⟨gameNext draw b.game, b.block⟩ :=
  benchRun_succ (benchStep_host h.serves.gapFits h.serves.noReset (hostMove_next h.notWaiting htodo hphase)) n

/-! ## COLLECTING (R206) -/

/-- The response of a GET of SEQBUF carries its Symbol to PlayerSequence. -/
theorem gameCompleted_get (idx : BitVec 16) (sym : Symbol) (rest : List Instr) (g : Game) :
    gameCompleted (.get .seqbuf idx) (symbolBit sym) rest g =
      { g with todo := rest, awaiting := none, player := g.player ++ [sym] } := by
  have hsymbol : responseSymbol (responseWord 0x41 0 (symbolBit sym)) = sym := by cases sym <;> decide
  exact congrArg (fun x => { g with todo := rest, awaiting := none, player := g.player ++ [x] }) hsymbol

/-- GETs of elements of SEQBUF that hold `syms` extend PlayerSequence by `syms`. -/
theorem Bench.Ready.benchRun_copy {draw : Nat → Nat → Symbol} {b : Bench} {is : List Nat} {syms : List Symbol}
    (h : b.Ready) (n : Nat) (htodo : b.game.todo = copyCommands is)
    (hbelow : ∀ i ∈ is, i < b.block.seqlen.toNat) (hheld : is.map b.block.seqbuf.read = syms.map some) :
    ∃ b' : Bench, benchRun draw (n + is.length * 3) b = benchRun draw n b' ∧ b'.Ready ∧
      b'.game = { b.game with todo := [], awaiting := none, player := b.game.player ++ syms } := by
  induction is generalizing b syms with
  | nil =>
    obtain rfl : syms = [] := by simpa using hheld.symm
    refine ⟨b, rfl, h, ?_⟩
    rw [List.append_nil, ← h.notWaiting, ← show b.game.todo = [] from htodo]
  | cons i is ih =>
    obtain ⟨sym, syms, rfl, hread, hheld⟩ := List.map_eq_cons_iff.mp hheld.symm
    have hi : i < b.block.seqlen.toNat := hbelow i List.mem_cons_self
    have hidx : (BitVec.ofNat 16 i).toNat = i := toNat_operand16 (by omega)
    have hexec : exec (.get .seqbuf (BitVec.ofNat 16 i)) (accept [] b.block) =
        .next (complete (.get .seqbuf (BitVec.ofNat 16 i)) (symbolBit sym) (accept [] b.block)) :=
      exec_get_seqbuf_completes (by rw [hidx]; exact hi) (by rw [hidx]; exact hread.symm)
    obtain ⟨hrun, hready⟩ := h.benchRun_completed (draw := draw) (n + is.length * 3) htodo rfl hexec
      (complete_toRegs _ _ _) h.serves.accept
    obtain ⟨b', hrest, hready', hgame⟩ := ih hready rfl
      (fun j hj => hbelow j (List.mem_cons_of_mem _ hj)) hheld.symm
    refine ⟨b', ?_, hready', ?_⟩
    · rw [List.length_cons, Nat.add_one_mul, ← Nat.add_assoc, hrun, hrest]
    · rw [hgame, gameCompleted_get, List.append_assoc]
      rfl

/-- Beside a host that waits for nothing no command is on the port and none runs (R200). -/
theorem Bench.Inv.portFree {b : Bench} (h : b.Inv) (hrst : b.block.rst = false) (hnone : b.game.awaiting = none) :
    b.block.pending = [] ∧ b.block.busy = false := by
  have hport := h.oneCommand hrst
  rwa [hnone] at hport

theorem Bench.Inv.ready {b : Bench} (h : b.Inv) (hrst : b.block.rst = false) (hresets : b.block.resets = [])
    (hhalted : b.block.halted = false) (hgap : roundGapFits b.block.cfg = true) (hnone : b.game.awaiting = none) :
    b.Ready := by
  obtain ⟨hpending, hbusy⟩ := h.portFree hrst hnone
  exact ⟨⟨h.block.cfgWf, hgap, hrst, hresets, hhalted, hpending⟩, hbusy, hnone⟩

/-- Settles O58: READSEQ stores the presses (O35), the GETs copy them, and then the host judges. -/
theorem collectingCopiesThePresses : Obligations.CollectingCopiesThePresses := by
  unfold Obligations.CollectingCopiesThePresses
  intro draw b presses hinv hrst hresets hhalted hinit hgap hphase hnone htodo hplayer hpresses henough
  have hready := hinv.ready hrst hresets hhalted (roundGapFits_iff.mpr hgap) hnone
  rw [gameCommands_collecting hphase] at htodo
  have hcap := hinv.level.2
  have hlevel : (BitVec.ofNat 16 b.game.level).toNat = b.game.level := toNat_operand16 (by omega)
  obtain ⟨t, -, hexec, hheld, -, hseqlen, -, -, -, -, hregs, -⟩ :=
    readseqStoresThePresses (accept [] b.block) (BitVec.ofNat 16 b.game.level) presses hinv.block.cfgWf hinit
      (hlevel.trans_le hcap) hpresses (hlevel.trans_le henough)
  rw [hlevel] at hheld hseqlen
  obtain ⟨hread, hread_ready⟩ := hready.benchRun_completed (draw := draw) (1 + b.game.level * 3) htodo rfl hexec hregs
    { hready.serves.accept with }
  have hsymbols : (List.range b.game.level).map t.seqbuf.read = (presses.take b.game.level).map some := by
    refine List.ext_getElem? fun i => ?_
    obtain hlt | hge := Nat.lt_or_ge i b.game.level
    · simp [hlt, hheld i hlt, Nat.lt_of_lt_of_le hlt henough]
    · simp [hge]
  obtain ⟨b', hcopy, hcopied, hgame⟩ := hread_ready.benchRun_copy (draw := draw) (is := List.range b.game.level)
    1 rfl (fun i hi => hseqlen.symm ▸ List.mem_range.mp hi) hsymbols
  rw [List.length_range] at hcopy
  have hnext := hcopied.benchRun_next (draw := draw) 0 (by rw [hgame]) (by rw [hgame]; simp [gameCompleted, hphase])
  refine ⟨_, _, hread.trans (hcopy.trans hnext), ?_, ?_, ?_, ?_⟩
  all_goals simp [hgame, gameNext, gameCompleted, hphase, copiesSymbol, hplayer]

/-! ## What a step takes from the port (R200) -/

theorem Effect.pending {s u : State} {i : Instr} {data : BitVec 32} (h : Effect s i data u) :
    u.pending = s.pending := by
  cases h with
  | write sent _ hpush => rw [pushPixels_toRegs hpush]
  | tone pin f ms => rw [tone_toRegs]
  | ledinit | setpix | clear | pwminit | delay | getRegister | getPixel | getSymbol => rfl

theorem ReadsBegin.pending {s u : State} {i : Instr} {rem : Nat} (h : ReadsBegin s i rem u) :
    u.pending = s.pending := by
  cases h <;> rfl

/-- A command takes no other command from the port while it runs. -/
theorem ExecNext.pending {s t : State} {i : Instr} (h : ExecNext s i t) : t.pending = s.pending := by
  cases h with
  | fault e => rw [raiseFault_toRegs]
  | completed heffect =>
    rw [complete_toRegs]
    exact heffect.pending
  | reads hbegin => rw [endReads_pending, reads_pending, hbegin.pending]

/-- A step of the sequencer leaves the port as it is, and the block then runs nothing that it did not run before, or it
takes the command at the head. -/
theorem runStep_pending {s t : State} (h : runStep s = .next t) :
    (t.pending = s.pending ∧ (s.busy = false → t.busy = false)) ∨
      (s.busy = false ∧ ∃ c, s.pending = c :: t.pending) := by
  obtain ⟨rfl, -⟩ | ⟨-, hbusy, rfl⟩ | ⟨-, hbusy, c, rest, hpending, hrun⟩ := runStep_cases h
  · exact .inl ⟨rfl, id⟩
  · exact .inl ⟨resumeRead_pending s, fun hidle => by rw [hbusy] at hidle; cases hidle⟩
  · refine .inr ⟨hbusy, c, ?_⟩
    obtain ⟨e, -, rfl⟩ | ⟨i, -, hexec⟩ := hrun
    · rw [illegalCommand, raiseFault_toRegs, accept_toRegs, hpending]
    · rw [(exec_next hexec).pending, accept_toRegs, hpending]

/-- A step between two states in which `rst` is 0 is the sequencer's. -/
theorem runStep_of_step {s t : State} (h : step s = .next t) (hrst : s.rst = false) (hrst' : t.rst = false) :
    runStep s = .next t := by
  obtain ⟨-, ⟨hr, -⟩ | ⟨-, hrun⟩ | ⟨-, p, later, -, rfl | ⟨u, -, rfl⟩⟩⟩ := step_cases h
  · rw [hrst] at hr
    cases hr
  · exact hrun
  · cases hrst'
  · cases hrst'

/-- A block that is presented nothing and runs nothing goes on so. -/
theorem step_portFree {s t : State} (h : step s = .next t) (hrst : s.rst = false) (hrst' : t.rst = false)
    (hpending : s.pending = []) (hbusy : s.busy = false) : t.pending = [] ∧ t.busy = false := by
  obtain ⟨hkept, hidle⟩ | ⟨-, c, htaken⟩ := runStep_pending (runStep_of_step h hrst hrst')
  · exact ⟨hkept.trans hpending, hidle hbusy⟩
  · rw [hpending] at htaken
    cases htaken

/-- The one command on the port is taken, or stays there and none runs. -/
theorem step_portHolds {s t : State} {c : Word64} (h : step s = .next t) (hrst : s.rst = false) (hrst' : t.rst = false)
    (hport : s.pending = [] ∨ (s.pending = [c] ∧ s.busy = false)) :
    t.pending = [] ∨ (t.pending = [c] ∧ t.busy = false) := by
  obtain ⟨hkept, hidle⟩ | ⟨-, c', htaken⟩ := runStep_pending (runStep_of_step h hrst hrst')
  · rw [hkept]
    exact hport.imp_right fun ⟨hheld, hbusy⟩ => ⟨hheld, hidle hbusy⟩
  · obtain hnone | ⟨hheld, -⟩ := hport
    · rw [hnone] at htaken
      cases htaken
    · rw [hheld] at htaken
      exact .inl (List.cons.inj htaken).2.symm

/-! ## The start, and a host that has stopped (R202) -/

theorem benchStart_ready {cfg : Config} (ledPin buzzerPin : BitVec 8) (hcfg : cfg.wf = true)
    (hgap : roundGapFits cfg = true) : (benchStart cfg ledPin buzzerPin).Ready :=
  ⟨⟨hcfg, hgap, rfl, rfl, rfl, rfl⟩, rfl, rfl⟩

theorem engFree_resetWith {cfg : Config} (hcfg : cfg.wf = true) :
    (State.resetWith cfg).engFree = 0 ↔ cfg.engines = 0 := by
  obtain ⟨-, -, -, -, -, hengines, -⟩ := Config.wf_ranges hcfg
  rw [← BitVec.toNat_inj]
  show cfg.engines % 2 ^ 8 = 0 ↔ _
  rw [Nat.mod_eq_of_lt (by omega)]

/-- With an engine LEDINIT and PWMINIT complete, and the first round begins. -/
theorem benchRun_starts {draw : Nat → Nat → Symbol} {cfg : Config} (ledPin buzzerPin : BitVec 8) (hcfg : cfg.wf = true)
    (hgap : roundGapFits cfg = true) (hengine : 0 < cfg.engines) :
    ∃ b, benchRun draw 7 (benchStart cfg ledPin buzzerPin) = .next b ∧ b.game.phase = .generating ∧
      b.game.level = 1 ∧ b.block.ledInit = true ∧ b.block.ledPin = ledPin ∧ b.block.pwmInit = true ∧
      b.block.pwmPin = buzzerPin ∧ b.block.cp = 2 := by
  have hready := benchStart_ready ledPin buzzerPin hcfg hgap
  have hfree : (accept [] (benchStart cfg ledPin buzzerPin).block).engFree ≠ 0 := by
    rw [accept_toRegs]
    exact (engFree_resetWith hcfg).not.mpr (by omega)
  obtain ⟨hled, hready_led⟩ := hready.benchRun_completed (draw := draw) 4 rfl rfl
    (exec_ledinit_completes ledPin hfree) (complete_toRegs _ _ _) { hready.serves.accept with }
  obtain ⟨hpwm, hready_pwm⟩ := hready_led.benchRun_completed (draw := draw) 1 rfl rfl
    (exec_pwminit buzzerPin _) (complete_toRegs _ _ _) { hready_led.serves.accept with }
  have hround := hready_pwm.benchRun_next (draw := draw) 0 rfl nofun
  exact ⟨_, hled.trans (hpwm.trans hround), rfl, rfl, by simp [completedRegs], by simp [completedRegs],
    by simp [completedRegs], by simp [completedRegs], by simp [completedRegs, benchStart, State.resetWith]⟩

/-- With no engine LEDINIT faults, and the host stops. -/
theorem benchRun_stops {draw : Nat → Nat → Symbol} {cfg : Config} (ledPin buzzerPin : BitVec 8) (hcfg : cfg.wf = true)
    (hgap : roundGapFits cfg = true) (hengine : cfg.engines = 0) :
    ∃ b, benchRun draw 3 (benchStart cfg ledPin buzzerPin) = .next b ∧ b.game.phase = .stopped ∧
      b.block.halted = true ∧ b.block.fault = 3 := by
  have hready := benchStart_ready ledPin buzzerPin hcfg hgap
  have hfree : (accept [] (benchStart cfg ledPin buzzerPin).block).engFree = 0 := by
    rw [accept_toRegs]
    exact (engFree_resetWith hcfg).mpr hengine
  have hrun := hready.benchRun_answered (draw := draw) 0 rfl rfl (exec_ledinit_noEngine ledPin hfree)
    (by rw [raiseFault_toRegs]) (by rw [raiseFault_toRegs]; rfl) (by rw [raiseFault_toRegs]; rfl)
  refine ⟨_, hrun, ?_, by rw [raiseFault_toRegs], by rw [raiseFault_toRegs]; rfl⟩
  rw [gameReceive_fault _ (by rw [raiseFault_toRegs, responseCode_responseWord]; decide), enterPhase_phase]

/-- A host that has stopped does nothing any more and presents nothing. -/
theorem benchStep_stopped {draw : Nat → Nat → Symbol} {b b' : Bench} (hinv : b.Inv) (hrst : b.block.rst = false)
    (hphase : b.game.phase = .stopped) (h : benchStep draw b = .next b') :
    b'.game = b.game ∧ (b'.block.rst = false → b'.block.pending = []) := by
  obtain ⟨htodo, hnone⟩ := hinv.silentPhase (.inr hphase)
  obtain ⟨hpending, hbusy⟩ := hinv.portFree hrst hnone
  have hstill := hostMove_stopped (draw := draw) (s := b.block) hnone htodo hphase
  obtain ⟨hr, -⟩ | ⟨-, hmove⟩ | ⟨-, -, hgame, hstep⟩ := benchStep_cases h
  · rw [hrst] at hr
    cases hr
  · rw [hstill] at hmove
    cases hmove
  · exact ⟨hgame, fun hrst' => (step_portFree hstep hrst hrst' hpending hbusy).1⟩

/-- Settles O57: the two starts end as LEDINIT answers, and a host that has stopped has nothing to present. -/
theorem hostStartsOrStops : Obligations.HostStartsOrStops := by
  unfold Obligations.HostStartsOrStops
  intro draw cfg ledPin buzzerPin hcfg hgap
  have hfits := roundGapFits_iff.mpr hgap
  exact ⟨benchRun_starts ledPin buzzerPin hcfg hfits, benchRun_stops ledPin buzzerPin hcfg hfits,
    fun b b' => benchStep_stopped⟩

/-! ## The host's part of the invariant of the bench (R200, R201, R207) -/

/-- The part of `Bench.Inv` about the host alone. -/
structure Game.Ok (g : Game) : Prop where
  level : 1 ≤ g.level ∧ g.level ≤ 100
  wellFormed : ∀ i ∈ g.awaiting.toList ++ g.todo, i.wellFormed = true
  sequenceLength : g.phase = .displaying ∨ g.phase = .collecting ∨ g.phase = .judging → g.sequence.length = g.level
  playerLength : g.phase = .collecting ∨ g.phase = .judging → g.player.length + g.toCopy = g.level
  silentPhase : g.phase = .judging ∨ g.phase = .stopped → g.todo = [] ∧ g.awaiting = none

/-- What the port holds beside a host that waits for `awaiting`. -/
def PortMatches (awaiting : Option Instr) (s : State) : Prop :=
  s.rst = false → match awaiting with
    | none => s.pending = [] ∧ s.busy = false
    | some i => s.pending = [] ∨ (s.pending = [encode i] ∧ s.busy = false)

theorem Bench.Inv.host {b : Bench} (h : b.Inv) : b.game.Ok :=
  ⟨h.level, h.wellFormed, h.sequenceLength, h.playerLength, h.silentPhase⟩

theorem Bench.Inv.ofParts {b : Bench} (hgame : b.game.Ok) (hblock : b.block.Inv)
    (hport : PortMatches b.game.awaiting b.block) : b.Inv :=
  ⟨hblock, hgame.level, hgame.wellFormed, hport, hgame.sequenceLength, hgame.playerLength, hgame.silentPhase⟩

theorem copiesSymbol_copyCommands (is : List Nat) : (copyCommands is).filter copiesSymbol = copyCommands is := by
  rw [List.filter_eq_self]
  intro i hi
  obtain ⟨n, -, rfl⟩ := List.mem_map.mp hi
  rfl

/-- Into a phase, for a host that waits for nothing: it needs a Sequence of length Level from DISPLAYING to JUDGING, an
empty PlayerSequence in COLLECTING, and one of length Level in JUDGING. -/
theorem Game.Ok.enterPhase {p : Phase} {g : Game} (hlevel : 1 ≤ g.level ∧ g.level ≤ 100) (hnone : g.awaiting = none)
    (hsequence : p = .displaying ∨ p = .collecting ∨ p = .judging → g.sequence.length = g.level)
    (hempty : p = .collecting → g.player = []) (hfull : p = .judging → g.player.length = g.level) :
    (enterPhase p g).Ok where
  level := hlevel
  wellFormed := by
    rw [enterPhase_awaiting, hnone]
    exact gameCommands_wellFormed _
  sequenceLength := hsequence
  playerLength h := by
    rw [Game.toCopy, enterPhase_awaiting, hnone, enterPhase_todo, enterPhase_player, enterPhase_level]
    obtain rfl | rfl := h
    · rw [gameCommands_collecting rfl, hempty rfl]
      simp [copiesSymbol_copyCommands, copiesSymbol]
    · simpa [gameCommands] using hfull rfl
  silentPhase h := by
    refine ⟨?_, hnone⟩
    obtain rfl | rfl := h <;> rfl

theorem Game.Ok.endRound (matched : Bool) {g : Game} (hnone : g.awaiting = none) : (endRound matched g).Ok :=
  .enterPhase (nextLevel_range (m := matched) (l := g.level)) hnone nofun nofun nofun

theorem Game.Ok.gameRestart (g : Game) : (gameRestart g).Ok where
  level := ⟨Nat.le_refl 1, by simp⟩
  wellFormed := gameCommands_wellFormed (gameStart g.ledPin g.buzzerPin)
  sequenceLength := by simp
  playerLength := by simp
  silentPhase := by simp

/-- The command that stood first is the one the host waits for. -/
theorem Game.Ok.issue {g : Game} {i : Instr} {rest : List Instr} (h : g.Ok) (hnone : g.awaiting = none)
    (htodo : g.todo = i :: rest) : Game.Ok { g with todo := rest, awaiting := some i } where
  level := h.level
  wellFormed := by simpa [hnone, htodo] using h.wellFormed
  sequenceLength := h.sequenceLength
  playerLength hphase := by
    have hcopied := h.playerLength hphase
    rwa [Game.toCopy, hnone, htodo] at hcopied
  silentPhase hphase := by
    have hsilent := (h.silentPhase hphase).1
    rw [htodo] at hsilent
    cases hsilent

/-- A response leaves one Symbol fewer to copy, and PlayerSequence one longer, exactly if it carries one. -/
theorem Game.Ok.gameReceive {g : Game} {i : Instr} (h : g.Ok) (hawaits : g.awaiting = some i) (w : Word64) :
    (gameReceive i w g).Ok := by
  by_cases hcode : responseCode w = 0
  · rw [gameReceive_ok g hcode]
    refine ⟨h.level, fun j hj => h.wellFormed j (List.mem_append_right _ hj), h.sequenceLength, fun hphase => ?_,
      fun hphase => ?_⟩
    · have hcopied := h.playerLength hphase
      simp only [Game.toCopy, hawaits] at hcopied ⊢
      by_cases hcopies : copiesSymbol i = true
      · simp [hcopies] at hcopied ⊢
        omega
      · simpa [hcopies] using hcopied
    · rw [(h.silentPhase hphase).2] at hawaits
      cases hawaits
  · rw [gameReceive_fault g hcode]
    exact .enterPhase (g := { g with awaiting := none }) h.level rfl nofun nofun nofun

/-- Every phase hands the next one what it needs. -/
theorem Game.Ok.gameNext {draw : Nat → Nat → Symbol} {g : Game} (h : g.Ok) (hnone : g.awaiting = none)
    (htodo : g.todo = []) : (gameNext draw g).Ok := by
  have hcopied : g.toCopy = 0 := by rw [Game.toCopy, hnone, htodo]; rfl
  unfold Machine.gameNext
  split
  next => exact .enterPhase h.level hnone nofun nofun nofun
  next => exact .enterPhase h.level hnone (fun _ => drawSequence_length draw g) nofun nofun
  next hphase =>
    exact .enterPhase h.level hnone (fun _ => h.sequenceLength (.inl hphase)) (fun _ => rfl) nofun
  next hphase =>
    refine .enterPhase h.level hnone (fun _ => h.sequenceLength (.inr (.inl hphase))) nofun fun _ => ?_
    simpa [hcopied] using h.playerLength (.inl hphase)
  next => split <;> exact .enterPhase h.level hnone nofun nofun nofun
  next => exact .endRound _ hnone
  next => exact .endRound _ hnone
  next => exact h

/-! ## No draw is taken back (R204) -/

theorem gameReceive_draws (i : Instr) (w : Word64) (g : Game) : (gameReceive i w g).draws = g.draws := by
  unfold gameReceive
  split <;> rfl

theorem gameNext_draws_le (draw : Nat → Nat → Symbol) (g : Game) : g.draws ≤ (gameNext draw g).draws := by
  unfold gameNext
  split
  next => exact Nat.le_refl _
  next => exact Nat.le_succ _
  all_goals exact Nat.le_refl _

/-! ## Every step of the bench keeps the invariant -/

/-- What the host does without waiting for the block: it takes a response, presents a command, or goes to its next
phase. -/
theorem hostMove_cases {draw : Nat → Nat → Symbol} {g g' : Game} {s s' : State}
    (h : hostMove draw g s = some (g', s')) :
    (∃ i, g.awaiting = some i ∧ s.rspValidOut = true ∧ s.pending = [] ∧ g' = gameReceive i s.rspDataOut g ∧ s' = s) ∨
      (∃ i rest, g.awaiting = none ∧ g.todo = i :: rest ∧ (g', s') = gameIssue i rest g s) ∨
      (g.awaiting = none ∧ g.todo = [] ∧ g' = gameNext draw g ∧ s' = s) := by
  unfold hostMove at h
  cases hawaits : g.awaiting with
  | some i =>
    simp only [hawaits, Option.ite_none_right_eq_some, Bool.and_eq_true, State.cmdValid, Bool.not_not,
      List.isEmpty_iff] at h
    obtain ⟨⟨hvalid, hpending⟩, hmove⟩ := h
    cases hmove
    exact .inl ⟨i, rfl, hvalid, hpending, rfl, rfl⟩
  | none =>
    cases htodo : g.todo with
    | cons i rest =>
      simp only [hawaits, htodo, Option.some.injEq] at h
      exact .inr (.inl ⟨i, rest, rfl, rfl, h.symm⟩)
    | nil =>
      simp only [hawaits, htodo, Option.ite_none_left_eq_some] at h
      obtain ⟨-, hmove⟩ := h
      cases hmove
      exact .inr (.inr ⟨rfl, rfl, rfl, rfl⟩)

/-- A command presented to a block that runs none leaves it in a good state. -/
theorem State.Inv.present {s : State} (h : s.Inv) (hrst : s.rst = false) (hbusy : s.busy = false) (cs : List Word64) :
    State.Inv { s with pending := cs } :=
  .ofAtRest { h.legal with } (h.clockOk.congr ⟨rfl, rfl, rfl, rfl⟩ ⟨rfl, rfl, rfl, rfl, rfl⟩) hbusy
    { h.rest hbusy with } fun hr => by rw [hrst] at hr; cases hr

/-- A block that gives a response runs nothing. -/
theorem State.Inv.notBusy_of_rspValid {s : State} (h : s.Inv) (hvalid : s.rspValid = true) : s.busy = false := by
  by_contra hbusy
  rw [(h.wait (by simpa using hbusy)).noResponse] at hvalid
  cases hvalid

theorem Bench.Inv.hostMove {draw : Nat → Nat → Symbol} {b b' : Bench} (h : b.Inv) (hrst : b.block.rst = false)
    (hmove : hostMove draw b.game b.block = some (b'.game, b'.block)) : b'.Inv ∧ b.game.draws ≤ b'.game.draws := by
  obtain ⟨g', s'⟩ := b'
  obtain ⟨i, hawaits, hvalid, hpending, rfl, rfl⟩ | ⟨i, rest, hnone, htodo, hissue⟩ | ⟨hnone, htodo, rfl, rfl⟩ :=
    hostMove_cases hmove
  · rw [State.rspValidOut, hrst, Bool.not_false, Bool.and_true] at hvalid
    refine ⟨.ofParts (h.host.gameReceive hawaits _) h.block ?_, (gameReceive_draws _ _ _).ge⟩
    rw [gameReceive_awaiting]
    exact fun _ => ⟨hpending, h.block.notBusy_of_rspValid hvalid⟩
  · obtain ⟨-, hbusy⟩ := h.portFree hrst hnone
    cases hissue
    exact ⟨.ofParts (h.host.issue hnone htodo) (h.block.present hrst hbusy _) fun _ => .inr ⟨rfl, hbusy⟩, Nat.le_refl _⟩
  · refine ⟨.ofParts (h.host.gameNext hnone htodo) h.block ?_, gameNext_draws_le draw b.game⟩
    rw [gameNext_awaiting, hnone]
    exact fun _ => h.portFree hrst hnone

theorem PortMatches.step {awaiting : Option Instr} {s t : State} (h : PortMatches awaiting s) (hrst : s.rst = false)
    (hstep : step s = .next t) : PortMatches awaiting t := by
  intro hrst'
  have hport := h hrst
  cases awaiting with
  | none => exact step_portFree hstep hrst hrst' hport.1 hport.2
  | some i => exact step_portHolds hstep hrst hrst' hport

/-- In reset nothing is presented and nothing runs (R271). -/
theorem holdReset_portFree {s : State} (h : s.pending = []) :
    (holdReset s).pending = [] ∧ (holdReset s).busy = false := by
  unfold holdReset
  split <;> exact ⟨h, rfl⟩

theorem benchStart_inv {cfg : Config} (ledPin buzzerPin : BitVec 8) (hcfg : cfg.wf = true) :
    (benchStart cfg ledPin buzzerPin).Inv :=
  .ofParts (.gameRestart (gameStart ledPin buzzerPin)) (releaseReset_inv (s := State.resetWith cfg) hcfg)
    fun _ => ⟨rfl, rfl⟩

/-- Settles O56: a step of the bench is an edge in reset, a move of the host, or a step of the block. -/
theorem hostIssuesOneCommandAtATime : Obligations.HostIssuesOneCommandAtATime := by
  unfold Obligations.HostIssuesOneCommandAtATime
  refine ⟨fun cfg ledPin buzzerPin => benchStart_inv ledPin buzzerPin, fun draw b b' hinv h => ?_⟩
  obtain ⟨hrst, hgame, hstep⟩ | ⟨hrst, hmove⟩ | ⟨hrst, -, hgame, hstep⟩ := benchStep_cases h
  · have hedge := step_reset (s := { b.block with pending := [] }) hinv.block.cfgWf hrst
    have hreset : b'.block = holdReset { b.block with pending := [] } :=
      Host.Outcome.next.inj (hstep.symm.trans hedge)
    refine ⟨.ofParts (hgame ▸ .gameRestart b.game) (hreset ▸ holdReset_inv hinv.block.cfgWf) ?_, by rw [hgame]; rfl⟩
    rw [hgame, hreset]
    exact fun _ => holdReset_portFree rfl
  · exact hinv.hostMove hrst hmove
  · refine ⟨.ofParts (hgame ▸ hinv.host) (stepKeepsInvariant b.block b'.block hinv.block hstep) ?_, by rw [hgame]⟩
    rw [hgame]
    exact PortMatches.step hinv.oneCommand hrst hstep

end Sys2Proof.Machine

/-! # PROOFS. Halt, hang, and a step that always goes on (spec/60_exceptions.md) -/

namespace Sys2Proof.Machine

/-! ## After a halt (R240, R241, R243) -/

theorem step_halted {s : State} (hcfg : s.cfg.wf = true) (hrst : s.rst = false) (hresets : s.resets = [])
    (hhalted : s.halted = true) : step s = .next (idleCycle s) :=
  (step_quiet hcfg hrst hresets).trans (runStep_halted hhalted)

/-- From the first step on, a halted block is the one with the response dropped that the clock has run on. -/
theorem run_halted {n : Nat} {s : State} (hcfg : s.cfg.wf = true) (hrst : s.rst = false) (hresets : s.resets = [])
    (hhalted : s.halted = true) :
    Host.Core.run Sys2Proof.core (n + 1) s = .next (advance (n + 1) (dropResponse s)) := by
  induction n generalizing s with
  | zero => exact run_succ (step_halted hcfg hrst hresets hhalted) 0
  | succ n ih =>
    have hdropped : dropResponse (idleCycle s) = advance 1 (dropResponse s) := rfl
    calc Host.Core.run Sys2Proof.core (n + 2) s
      _ = Host.Core.run Sys2Proof.core (n + 1) (idleCycle s) := run_succ (step_halted hcfg hrst hresets hhalted) (n + 1)
      _ = .next (advance (n + 1) (dropResponse (idleCycle s))) := ih hcfg hrst hresets hhalted
      _ = .next (advance (n + 2) (dropResponse s)) := by rw [hdropped, ← advance_add, Nat.add_comm 1]

/-- Settles O47: no step at all leaves the state, and the closed form of the others (`run_halted`) writes only what time
and the dropped response write. -/
theorem haltIsForever : Obligations.HaltIsForever := by
  unfold Obligations.HaltIsForever
  intro n s hcfg hrst hhalted hgood hfrac hresets
  cases n with
  | zero => exact ⟨s, rfl, rfl, by rw [advance_zero hgood hfrac], rfl⟩
  | succ n =>
    have hclocked : (advance (n + 1) (dropResponse s)).toClocked = (advance (n + 1) s).toClocked :=
      clockedRun_congr _ s.toClocked rfl rfl rfl rfl
    exact ⟨_, run_halted hcfg hrst hresets hhalted, rfl, hclocked, advance_sequencerEvents (n + 1) (dropResponse s)⟩

/-! ## A waiting read with no press to come (R246) -/

theorem step_pollReleased {s : State} {i : Instr} (hcfg : s.cfg.wf = true) (hrst : s.rst = false)
    (hresets : s.resets = []) (hhalted : s.halted = false) (hbusy : s.busy = true) (hrunning : s.running = some i)
    (hinputs : s.inputs = []) : step s = .next (pollReleased s) := by
  rw [step_quiet hcfg hrst hresets, runStep_busy hhalted hbusy]
  simp only [resumeRead, hrunning, hinputs, if_true]

theorem run_pollReleased {n : Nat} {s : State} {i : Instr} (hcfg : s.cfg.wf = true) (hrst : s.rst = false)
    (hresets : s.resets = []) (hhalted : s.halted = false) (hbusy : s.busy = true) (hrunning : s.running = some i)
    (hinputs : s.inputs = []) : Host.Core.run Sys2Proof.core n s = .next (pollReleased^[n] s) := by
  induction n generalizing s with
  | zero => rfl
  | succ n ih =>
    rw [run_succ (step_pollReleased hcfg hrst hresets hhalted hbusy hrunning hinputs), Function.iterate_succ_apply]
    exact ih hcfg hrst hresets hhalted hbusy hrunning hinputs

theorem pollReleased_iterate_toRegs (n : Nat) (s : State) : (pollReleased^[n] s).toRegs = s.toRegs := by
  induction n generalizing s with
  | zero => rfl
  | succ n ih => rw [Function.iterate_succ_apply, ih, pollReleased_toRegs]

/-- With no sample listed a poll is that of a released sample. -/
theorem pollReleased_eq {s : State} (h : s.inputs = []) :
    pollReleased s = advance s.cfg.pollCycles (takeSample .released [] s) := by
  rw [takeSample, ← h]
  rfl

theorem polled_pollReleased_iterate {n : Nat} {s : State} (h : s.inputs = []) :
    Polled (List.replicate n .released) n s (pollReleased^[n] s) := by
  induction n generalizing s with
  | zero => exact .refl s
  | succ n ih =>
    have hrest := ih (s := pollReleased s) h
    rw [pollReleased_eq h] at hrest
    rw [List.replicate_succ, Function.iterate_succ_apply, pollReleased_eq h]
    exact hrest.cons

theorem engineRan_pollReleased (s : State) : EngineRan s.cfg.pollCycles s (pollReleased s) :=
  .before (engineKept_record (e := .polled _ _) s) (.ofAdvance _ _)

theorem engineRan_pollReleased_iterate {n : Nat} {s : State} (hgood : s.tx.Good s.cfg)
    (hfrac : s.nsFrac < s.cfg.sysclkHz) : EngineRan (n * s.cfg.pollCycles) s (pollReleased^[n] s) := by
  induction n generalizing s with
  | zero =>
    rw [Nat.zero_mul]
    exact .refl hgood hfrac
  | succ n ih =>
    have hgood' : (pollReleased s).tx.Good s.cfg := txRun_good _ hgood
    have hfrac' : (pollReleased s).nsFrac < s.cfg.sysclkHz := Nat.mod_lt _ (Nat.zero_lt_of_lt hfrac)
    rw [Nat.succ_mul, Nat.add_comm, Function.iterate_succ_apply]
    exact (engineRan_pollReleased s).trans rfl (ih hgood' hfrac')

/-- Settles O37: each step is one poll of released inputs (`run_pollReleased`), which writes no register. -/
theorem waitingReadHangs : Obligations.WaitingReadHangs := by
  unfold Obligations.WaitingReadHangs
  intro n s hcfg hrst hhalted hwait hinputs hresets
  obtain ⟨i, hrunning⟩ : ∃ i, s.running = some i := by
    obtain ⟨hrunning, -⟩ | ⟨length, hrunning, -⟩ := hwait.command
    · exact ⟨_, hrunning⟩
    · exact ⟨_, hrunning⟩
  have hpolled := polled_pollReleased_iterate (n := n) hinputs
  refine ⟨_, run_pollReleased hcfg hrst hresets hhalted hwait.busy hrunning hinputs, pollReleased_iterate_toRegs n s, ?_,
    hpolled.time, engineRan_pollReleased_iterate⟩
  rw [hpolled.events, List.map_replicate]
  rfl

/-! ## A read with too few presses waits (R246) -/

/-- The read command `i`, with `rem` reads to make, has looked at every sample and found only the presses `presses`: the
registers no read writes are as before, and READSEQ has stored the presses from element 0 on (R176). -/
structure Starved (i : Instr) (rem : Nat) (presses : List Symbol) (s t : State) : Prop where
  regs : t.toRegs =
    { s.toRegs with
        inputs := []
        btnState := .poll
        btnRem := BitVec.ofNat 7 (rem - presses.length)
        result := t.result
        resultValid := t.resultValid
        seqbuf := t.seqbuf
        seqlen := t.seqlen
        pwmTop := t.pwmTop
        pwmLevel := t.pwmLevel
        freeIdx := t.freeIdx }
  stored : i ≠ .readsym →
    t.seqlen = BitVec.ofNat 7 presses.length ∧ t.seqbuf = s.seqbuf.writeFrom 0 presses

/-- A read with no press among the samples supplied is left in POLL, with nothing else written. -/
theorem reads_released_toRegs (store : Bool) {rem : Nat} {s : State} (hrem : 0 < rem)
    (hnone : ∀ q ∈ s.inputs, pressedSymbol s.cfg q = none) :
    ∃ t, reads store rem s = (false, t) ∧
      t.toRegs = { s.toRegs with inputs := [], btnState := .poll, btnRem := BitVec.ofNat 7 rem } := by
  obtain ⟨left, rfl⟩ := Nat.exists_eq_succ_of_ne_zero hrem.ne'
  obtain ⟨t, hempty, hpolled, hreads⟩ := reads_released (store := store) (rem := left) hnone
  refine ⟨t, hreads, ?_⟩
  rw [hpolled.regs, hempty, enterPoll_toRegs]

/-- The reads of READSEQ store every press there is, and those left begin with no press to come. -/
theorem reads_storeAll {rem : Nat} {s : State} (hfew : (s.inputs.filterMap (pressedSymbol s.cfg)).length ≤ rem)
    (hroom : s.seqlen.toNat + rem ≤ seqCap) :
    ∃ t used, reads true rem s = reads true (rem - (s.inputs.filterMap (pressedSymbol s.cfg)).length) t ∧
      PressesStored used (s.inputs.filterMap (pressedSymbol s.cfg)) s t ∧
      ∀ q ∈ t.inputs, pressedSymbol s.cfg q = none := by
  induction rem generalizing s with
  | zero =>
    have hnil := List.length_eq_zero_iff.mp (Nat.le_zero.mp hfew)
    rw [hnil]
    exact ⟨s, [], rfl, .refl s, List.filterMap_eq_nil_iff.mp hnil⟩
  | succ rem ih =>
    obtain hnone | ⟨waits, p, rest, sym, hins, hwaits, hp⟩ := press_split s.cfg s.inputs
    · rw [List.filterMap_eq_nil_iff.mpr hnone]
      exact ⟨s, [], rfl, .refl s, hnone⟩
    · obtain ⟨t, rfl, hread, hreads⟩ := reads_readOnce true rem hins hwaits hp
      have hcfg : (storeSymbol sym t).cfg = s.cfg := by rw [storeSymbol_toRegs, hread.regs]
      have hlen : t.seqlen = s.seqlen := by rw [hread.regs]
      have hfree : s.seqlen.toNat < seqCap := by omega
      have hroom' : (storeSymbol sym t).seqlen.toNat + rem ≤ seqCap := by
        rw [storeSymbol_toRegs, hlen, seqlen_succ_toNat hfree]
        omega
      rw [hins, filterMap_press _ hwaits hp] at hfew ⊢
      rw [← hcfg] at hfew ⊢
      obtain ⟨v, used, hrest, hstored, hnone⟩ := ih (s := storeSymbol sym t) (Nat.le_of_succ_le_succ hfew) hroom'
      refine ⟨v, waits ++ p :: used, ?_, .cons hins hwaits hp hfree hread hstored, hnone⟩
      rw [hreads, List.length_cons, Nat.succ_sub_succ]
      exact hrest

/-- The reads of a command with too few presses among the samples supplied wait. -/
theorem ReadsBegin.starved {s u : State} {i : Instr} {rem : Nat} (h : ReadsBegin s i rem u)
    (hfew : (s.inputs.filterMap (pressedSymbol s.cfg)).length < rem) :
    ∃ t, reads (readStores i) rem u = (false, t) ∧
      Starved i rem (s.inputs.filterMap (pressedSymbol s.cfg)) s t := by
  cases h with
  | readsym hinit =>
    have hnil := List.length_eq_zero_iff.mp (Nat.lt_one_iff.mp hfew)
    obtain ⟨t, hreads, hregs⟩ := reads_released_toRegs false Nat.one_pos (List.filterMap_eq_nil_iff.mp hnil)
    rw [hnil]
    exact ⟨t, hreads, by rw [hregs]; rfl, fun hi => absurd rfl hi⟩
  | readseq length hinit hcap =>
    obtain ⟨v, used, hreads, hstored, hnone⟩ := reads_storeAll (s := emptySequence s) (Nat.le_of_lt hfew)
      (by rw [emptySequence_toRegs]; simpa using hcap)
    have hcfg : v.cfg = s.cfg := by rw [hstored.regs]; rfl
    obtain ⟨t, hwait, hregs⟩ := reads_released_toRegs true (Nat.sub_pos_of_lt hfew) (hcfg.symm ▸ hnone)
    refine ⟨t, hreads.trans hwait, ?_, fun _ => ?_⟩
    · rw [hregs, hstored.regs]
      rfl
    · rw [hregs, hstored.regs]
      exact ⟨congrArg (BitVec.ofNat 7) (Nat.zero_add _), rfl⟩

/-- Settles O36: the command keeps waiting after the reads of `ReadsBegin.starved`, which leave the engine to itself. -/
theorem readWaitsWithoutPress : Obligations.ReadWaitsWithoutPress := by
  unfold Obligations.ReadWaitsWithoutPress
  intro s i n presses hinit hi hpresses hfew
  change s.inputs.filterMap (pressedSymbol s.cfg) = presses at hpresses
  obtain ⟨u, hbegin, hkept⟩ : ∃ u, ReadsBegin s i n u ∧ EngineKept s u := by
    obtain ⟨rfl, rfl⟩ | ⟨length, rfl, rfl, hlen⟩ := hi
    · exact ⟨s, .readsym hinit, rfl, rfl, rfl, rfl, rfl⟩
    · exact ⟨_, .readseq length hinit hlen, rfl, rfl, rfl, rfl, rfl⟩
  obtain ⟨t, hreads, hregs, hstored⟩ := hbegin.starved (hpresses ▸ hfew)
  have hexec : exec i s = .next (keepWaiting i t) := by
    rw [hbegin.exec, hreads, endReads, if_neg Bool.false_ne_true]
  have hn : n ≤ 100 := hbegin.rem_le
  rw [hpresses] at hregs hstored
  have hleft : (keepWaiting i t).btnRem.toNat = n - presses.length := by
    rw [keepWaiting_toRegs, hregs]
    exact (BitVec.toNat_ofNat _ _).trans (Nat.mod_eq_of_lt (by omega))
  have hsymbols : i ≠ .readsym → (keepWaiting i t).seqlen.toNat = presses.length ∧
      ∀ j < presses.length, (keepWaiting i t).seqbuf.read j = presses[j]? := by
    intro hseq
    obtain ⟨hseqlen, hseqbuf⟩ := hstored hseq
    rw [keepWaiting_toRegs]
    refine ⟨?_, fun j hj => ?_⟩
    · rw [hseqlen, BitVec.toNat_ofNat]
      exact Nat.mod_eq_of_lt (by omega)
    · rw [hseqbuf, Memory.read_writeFrom, if_pos (by omega), Nat.sub_zero]
  have hran : s.tx.Good s.cfg → s.nsFrac < s.cfg.sysclkHz → ∃ k, EngineRan k s (keepWaiting i t) := by
    intro hgood hfrac
    have hreadsLeft := engineLeft_reads (readStores i) n u
    rw [hreads] at hreadsLeft
    obtain ⟨k, hran⟩ := (EngineLeft.trans (.inl hkept) hkept.cfg hreadsLeft).ranGood hgood hfrac
    exact ⟨k, hran.after (u := keepWaiting i t) ⟨rfl, rfl, rfl, rfl, rfl⟩⟩
  refine ⟨_, hexec, rfl, rfl, ?_, hleft, ?_, ?_, ?_, ?_, ?_, ?_, hsymbols, hran⟩
  all_goals rw [keepWaiting_toRegs, hregs]

/-! ## A step always goes on (R231, R240) -/

/-- A check that fails leads to a next state, such as a halt (R240); one that is passed lets the rest go on. -/
theorem exists_next_of_check {fails : Prop} [Decidable fails] {ended : State} {o : Host.Outcome State Fault Refusal}
    (goesOn : ¬ fails → ∃ t, o = .next t) : ∃ t, (if fails then .next ended else o) = .next t := by
  by_cases h : fails
  · exact ⟨ended, if_pos h⟩
  · rw [if_neg h]
    exact goesOn h

/-- A GET goes on where the two buffers hold what it may read (43_service.md R192, log 9). -/
theorem execGet_goesOn {s : State} (hs : s.toRegs.Legal) (sel : Selector) (idx : BitVec 16) :
    ∃ t, execGet sel idx s = .next t := by
  cases sel with
  | pixbuf =>
    refine exists_next_of_check fun hinit => exists_next_of_check fun hidx => ?_
    obtain ⟨px, hread⟩ := Option.isSome_iff_exists.mp
      (hs.led.held (Bool.eq_true_of_not_eq_false hinit) idx.toNat (Nat.lt_of_not_le hidx))
    exact ⟨_, by rw [hread]⟩
  | seqbuf =>
    refine exists_next_of_check fun hidx => ?_
    obtain ⟨sym, hread⟩ := Option.isSome_iff_exists.mp (hs.seq.held idx.toNat (Nat.lt_of_not_le hidx))
    exact ⟨_, by rw [hread]⟩
  | status | pwmCsr | pwmTop | pwmLevel | pwmCtr | ledCsr | result | seqlen =>
    exact exists_next_of_check fun _ => ⟨_, rfl⟩

/-- With legal registers no command stops the model's machine: each check halts the block, and each buffer holds what the
command reads. -/
theorem exec_goesOn {s : State} (hs : s.toRegs.Legal) (i : Instr) : ∃ t, exec i s = .next t := by
  cases i with
  | ledinit pin => exact exists_next_of_check fun _ => ⟨_, rfl⟩
  | setpix index r g b => exact exists_next_of_check fun _ => exists_next_of_check fun _ => ⟨_, rfl⟩
  | clear => exact exists_next_of_check fun _ => ⟨_, rfl⟩
  | write =>
    cases hinit : s.ledInit with
    | false => exact ⟨_, exec_write_notInit hinit⟩
    | true =>
      obtain ⟨sent, -, -, hexec, -⟩ := exec_write_pushes hinit (hs.led.held hinit)
      exact ⟨_, hexec⟩
  | pwminit pin => exact ⟨_, rfl⟩
  | tone pin f ms =>
    exact exists_next_of_check fun _ => exists_next_of_check fun _ => exists_next_of_check fun _ =>
      exists_next_of_check fun _ => ⟨_, rfl⟩
  | readsym => exact exists_next_of_check fun _ => ⟨_, rfl⟩
  | readseq length => exact exists_next_of_check fun _ => exists_next_of_check fun _ => ⟨_, rfl⟩
  | delay ms => exact ⟨_, rfl⟩
  | get sel idx => exact execGet_goesOn hs sel idx

theorem runCommand_goesOn {s : State} (hs : s.toRegs.Legal) (c : Word64) : ∃ t, runCommand c s = .next t := by
  cases hdec : decode c with
  | error e => exact ⟨_, runCommand_error hdec s⟩
  | ok i =>
    rw [runCommand_ok hdec]
    exact exec_goesOn hs i

theorem runStep_goesOn {s : State} (h : s.Inv) (hrst : s.rst = false) : ∃ t, runStep s = .next t := by
  cases hhalted : s.halted with
  | true => exact ⟨_, runStep_halted hhalted⟩
  | false =>
    cases hbusy : s.busy with
    | true => exact ⟨_, runStep_busy hhalted hbusy⟩
    | false =>
      have hready := s.cmdReady_iff.mpr ⟨hbusy, hhalted, hrst⟩
      cases hpending : s.pending with
      | nil => exact ⟨_, runStep_idle hready hpending⟩
      | cons c rest =>
        rw [runStep_command hready hpending]
        exact runCommand_goesOn (h.accept_executing hrst hhalted rest).legal c

/-- An assertion of `rst` ends a step that goes on in reset, or leaves it alone (70_reset_and_hazards.md R270). -/
theorem interrupt_goesOn (p : ResetPulse) (later : List ResetPulse) (s u : State) :
    ∃ t, interrupt p later s (.next u) = .next t :=
  exists_next_of_check fun _ => exists_next_of_check fun _ => ⟨u, rfl⟩

/-- Settles O51: in reset a step is an edge; outside it the sequencer's step goes on, and a reset only ends it. -/
theorem stepAlwaysGoesOn : Obligations.StepAlwaysGoesOn := by
  unfold Obligations.StepAlwaysGoesOn
  intro s h
  cases hrst : s.rst with
  | true => exact ⟨_, step_reset h.cfgWf hrst⟩
  | false =>
    obtain ⟨u, hrun⟩ := runStep_goesOn h hrst
    cases hresets : s.resets with
    | nil => exact ⟨u, (step_quiet h.cfgWf hrst hresets).trans hrun⟩
    | cons p later =>
      simp only [step, h.cfgWf, hrst, hresets, hrun, Bool.true_eq_false, Bool.false_eq_true, if_false]
      exact interrupt_goesOn p later s u

end Sys2Proof.Machine

/-! # PROOFS. Reset, what it ends, and how long commands take (spec/70_reset_and_hazards.md) -/

namespace Sys2Proof.Machine

/-! ## A command takes at least its sleeps (R290) -/

/-- A run of reads that has ended has slept 350 ms for each of them (42_button.md R175). -/
theorem reads_ended_now {store : Bool} {rem : Nat} {s : State} (hcfg : s.cfg.wf = true)
    (hend : (reads store rem s).1 = true) :
    s.now + rem * 350 * cycPerMs s.cfg ≤ (reads store rem s).2.now := by
  induction rem generalizing s with
  | zero => simp [reads_zero]
  | succ rem ih =>
    obtain hnone | ⟨waits, p, rest, sym, hins, hwaits, hp⟩ := press_split s.cfg s.inputs
    · obtain ⟨t, -, -, hreads⟩ := reads_released (store := store) (rem := rem) hnone
      simp [hreads] at hend
    · obtain ⟨t, -, hread, hreads⟩ := reads_readOnce store rem hins hwaits hp
      have hcfg' : t.cfg = s.cfg := by rw [hread.regs]
      have hstored : (if store then storeSymbol sym t else t).cfg = s.cfg ∧
          (if store then storeSymbol sym t else t).now = t.now := by
        cases store <;> exact ⟨hcfg', rfl⟩
      have hone := hread.time hcfg
      rw [hreads] at hend ⊢
      have hrest := ih (by rwa [hstored.1]) hend
      rw [hstored.1, hstored.2] at hrest
      rw [Nat.succ_mul, Nat.add_mul]
      omega

/-- A read command that does not wait has made its reads. -/
theorem endReads_now {i : Instr} {r : Bool × State} (hbusy : (endReads i r).busy = false) :
    r.1 = true ∧ r.2.now ≤ (endReads i r).now := by
  unfold endReads at hbusy ⊢
  split at hbusy
  next hend => exact ⟨hend, by rw [if_pos hend, complete_now]; exact Nat.le_add_right _ _⟩
  next => cases hbusy

theorem ReadsBegin.sleeps {s u : State} {i : Instr} {rem : Nat} (h : ReadsBegin s i rem u) :
    sleepMs i = rem * 350 ∧ u.now = s.now := by
  cases h <;> exact ⟨rfl, rfl⟩

/-- Before it completes, a command that makes no read has slept its sleeps. -/
theorem Effect.sleeps {s u : State} {i : Instr} {data : BitVec 32} (h : Effect s i data u) (hcfg : s.cfg.wf = true) :
    s.now + sleepMs i * cycPerMs s.cfg ≤ u.now := by
  cases h with
  | write sent _ hpush =>
    obtain ⟨k, hran⟩ := pushPixels_counterRan hpush
    simp [sleepMs, hran.now]
  | tone pin f ms => exact tone_now hcfg (Nat.le_of_lt_succ ms.isLt)
  | delay ms => exact (sleep_now hcfg (Nat.le_of_lt_succ ms.isLt)).ge
  | ledinit | setpix | clear | pwminit | getRegister | getPixel | getSymbol => simp [sleepMs]

/-- Settles O33: a command that completes has done its work, which sleeps, or has ended its reads, which sleep each. -/
theorem commandsTakeTheirSleeps : Obligations.CommandsTakeTheirSleeps := by
  unfold Obligations.CommandsTakeTheirSleeps
  intro i s t hcfg hexec hhalted hbusy
  change s.now + sleepMs i * cycPerMs s.cfg ≤ t.now
  cases exec_next hexec with
  | fault e =>
    rw [raiseFault_toRegs] at hhalted
    cases hhalted
  | completed heffect =>
    rw [complete_now]
    exact (heffect.sleeps hcfg).trans (Nat.le_add_right _ _)
  | reads hbegin =>
    obtain ⟨hend, hlast⟩ := endReads_now hbusy
    obtain ⟨hsleeps, hnow⟩ := hbegin.sleeps
    have hreads := reads_ended_now (by rwa [hbegin.cfg]) hend
    rw [hbegin.cfg, hnow, ← hsleeps] at hreads
    exact hreads.trans hlast

/-! ## The ports and registers of a block in reset (R270, R271) -/

/-- While `rst` = 1 every output port is 0 (10_state.md R21). -/
theorem ports_zero_of_rst {s : State} (h : s.rst = true) :
    s.cmdReady = false ∧ s.rspValidOut = false ∧ s.rspDataOut = 0 ∧ s.pwmOut = false ∧ s.ledDout = false ∧
      s.haltedOut = false ∧ s.faultOut = 0 := by
  refine ⟨by simp [State.cmdReady, h], by simp [State.rspValidOut, h], by simp [State.rspDataOut, h],
    by simp [State.pwmOut, h], ?_, by simp [State.haltedOut, h], by simp [State.faultOut, h]⟩
  unfold State.ledDout
  split
  · rfl
  · simp [h]

/-- With the values of R271 the output ports but `cmd_ready` are 0, and it is 1 once `rst` is. -/
theorem State.HasResetValues.ports {s : State} (h : s.HasResetValues) :
    s.cmdReady = !s.rst ∧ s.rspValidOut = false ∧ s.rspDataOut = 0 ∧ s.pwmOut = false ∧ s.ledDout = false ∧
      s.haltedOut = false ∧ s.faultOut = 0 :=
  ⟨by simp [State.cmdReady, h.busy, h.halted], by simp [State.rspValidOut, h.rspValid],
    by simp [State.rspDataOut, h.rspData], State.pwmOut_of_level_zero h.pwmLevel, by simp [State.ledDout, h.txShift],
    by simp [State.haltedOut, h.halted], by simp [State.faultOut, h.fault]⟩

/-- The engine count of a legal configuration fits ENG_FREE (00_scope.md R7). -/
theorem engines_le {cfg : Config} (h : cfg.wf = true) : cfg.engines ≤ 255 := by
  have hranges := Config.wf_ranges h
  omega

theorem State.Inv.resetValues {s : State} (h : s.Inv) (hrst : s.rst = true) : s.HasResetValues :=
  h.resetHeld hrst ▸ inReset_values (engines_le h.cfgWf)

/-- What an edge in reset leaves to the environment (log 12). -/
theorem holdReset_environment (s : State) : (holdReset s).pending = s.pending ∧ (holdReset s).inputs = s.inputs := by
  unfold holdReset
  split <;> exact ⟨rfl, rfl⟩

/-- Settles O48: an edge in reset gives every register its value, and takes the release or counts down the hold. -/
theorem resetGivesResetValues : Obligations.ResetGivesResetValues := by
  unfold Obligations.ResetGivesResetValues
  refine ⟨fun s => ports_zero_of_rst, fun s => State.Inv.resetValues, fun s hcfg hrst => ?_⟩
  have hvalues : (holdReset s).HasResetValues := holdReset_values (engines_le hcfg)
  obtain ⟨hready, hports⟩ := hvalues.ports
  obtain ⟨hpending, hinputs⟩ := holdReset_environment s
  refine ⟨_, step_reset hcfg hrst, hvalues, holdReset_cfg s, hpending, hinputs, fun hzero => ?_,
    fun n hsucc => ?_, hports⟩
  · have hreleased : (holdReset s).rst = false := by rw [holdReset_zero hzero, releaseReset_rst]
    exact ⟨by rw [hready, hreleased]; rfl, hreleased⟩
  · rw [holdReset_succ hsucc]
    exact ⟨rfl, rfl⟩

/-- Settles O49: the block right after reset is one whose release has just been taken. -/
theorem resetMeetsInvariant : Obligations.ResetMeetsInvariant := by
  unfold Obligations.ResetMeetsInvariant
  exact fun cfg hcfg => ⟨releaseReset_inv (s := State.resetWith cfg) hcfg, rfl⟩

/-! ## An assertion of `rst` while something runs (R270) -/

/-- What an assertion of `rst` leaves: the values of R271, and what the environment supplies after it (log 12). -/
theorem step_interrupted_resets {s : State} {p : ResetPulse} {later : List ResetPulse} (hcfg : s.cfg.wf = true)
    (hrst : s.rst = false) (hp : s.resets = p :: later)
    (h : p.cycle ≤ s.now ∨ ∃ u, runStep s = .next u ∧ p.cycle < u.now) :
    ∃ t, step s = .next t ∧ t.rst = true ∧ t.HasResetValues ∧ t.cfg = s.cfg ∧
      t.rstHold = p.hold ∧ t.resets = later ∧ t.pending = p.pending ∧ t.inputs = p.inputs := by
  obtain ⟨u, hstep, hu⟩ := step_interrupted hcfg hrst hp h
  have hcfg' : u.cfg = s.cfg := hu.elim (congrArg (fun v : State => v.cfg)) runStep_cfg
  have hengines : u.cfg.engines ≤ 255 := hcfg' ▸ engines_le hcfg
  exact ⟨_, hstep, rfl, assertReset_values hengines, hcfg', rfl, rfl, rfl, rfl⟩

/-- A command that completes ends its step no sooner than its sleeps allow (R290). -/
theorem runStep_sleeps {s u : State} {c : Word64} {rest : List Word64} {i : Instr} (hcfg : s.cfg.wf = true)
    (hready : s.cmdReady = true) (hpending : s.pending = c :: rest) (hdec : decode c = .ok i)
    (hexec : exec i (accept rest s) = .next u) (hhalted : u.halted = false) (hbusy : u.busy = false) :
    runStep s = .next u ∧ s.now + sleepMs i * (s.cfg.sysclkHz / 1000) ≤ u.now := by
  refine ⟨by rw [runStep_command hready hpending, runCommand_ok hdec, hexec], ?_⟩
  have haccept : (accept rest s).now = s.now + Config.freeCycles s.freeIdx := by
    rw [accept_toClocked, advance_now]
  have hsleeps := commandsTakeTheirSleeps i (accept rest s) u (by rwa [accept_toRegs]) hexec hhalted hbusy
  rw [haccept, accept_toRegs] at hsleeps
  dsimp only at hsleeps
  omega

/-- Settles O60: an assertion before the end of the step interrupts it; the end of a command that completes is at least
its sleeps away (O33); an assertion at the end or later finds the step undisturbed. -/
theorem resetEndsWhatRuns : Obligations.ResetEndsWhatRuns := by
  unfold Obligations.ResetEndsWhatRuns
  intro s p later hcfg hrst hp
  refine ⟨step_interrupted_resets hcfg hrst hp, ?_, fun ⟨hnow, hend⟩ => ?_⟩
  · intro c rest i u hready hpending hdec hexec hhalted hbusy hcycle
    obtain ⟨hrun, hsleeps⟩ := runStep_sleeps hcfg hready hpending hdec hexec hhalted hbusy
    obtain ⟨t, hstep, hrst', hvalues, -⟩ :=
      step_interrupted_resets hcfg hrst hp (.inr ⟨u, hrun, Nat.lt_of_lt_of_le hcycle hsleeps⟩)
    exact ⟨t, hstep, hrst', hvalues, State.pwmOut_of_level_zero hvalues.pwmLevel⟩
  · have hundisturbed {n : Nat} (hn : n ≤ p.cycle) : s.Undisturbed n := by
      intro q rest hq
      cases hp.symm.trans hq
      exact ⟨hnow, hn⟩
    exact step_runStep hcfg hrst (hundisturbed hnow.le) fun u hu => hundisturbed (hend u hu)

/-! ## Level and draw of the reference host, also over a reset (44_round_engine.md R204, R208, R209, R213) -/

theorem gameNext_of_generating {g : Game} (draw : Nat → Nat → Symbol) (h : g.phase = .generating) :
    gameNext draw g = enterPhase .displaying (drawSequence draw g) := by
  simp only [gameNext, h]

theorem gameNext_of_advancing {g : Game} (draw : Nat → Nat → Symbol) (h : g.phase = .advancing) :
    gameNext draw g = endRound true g := by
  simp only [gameNext, h]

theorem gameNext_of_resetting {g : Game} (draw : Nat → Nat → Symbol) (h : g.phase = .resetting) :
    gameNext draw g = endRound false g := by
  simp only [gameNext, h]

/-- Only GENERATING draws (R204). -/
theorem gameNext_draws_sequence {g : Game} (draw : Nat → Nat → Symbol) (h : g.phase ≠ .generating) :
    (gameNext draw g).draws = g.draws ∧ (gameNext draw g).sequence = g.sequence := by
  unfold gameNext
  split
  next => exact ⟨rfl, rfl⟩
  next hgenerating => exact absurd hgenerating h
  all_goals exact ⟨rfl, rfl⟩

/-- SHOW reads no button (R111). -/
theorem readseq_notMem_showCommands (n : BitVec 16) (r g b : BitVec 8) (ms : BitVec 16) :
    Instr.readseq n ∉ showCommands r g b ms := by
  simp [showCommands, fillCommands]

/-- Of all phases COLLECTING asks READSEQ, for Level symbols (R206). -/
theorem readseq_mem_gameCommands {g : Game} {n : BitVec 16} (h : Instr.readseq n ∈ gameCommands g) :
    n = BitVec.ofNat 16 g.level := by
  unfold gameCommands at h
  split at h
  next => simp at h
  next => simp at h
  next =>
    obtain ⟨sym, -, hsym⟩ := List.mem_flatMap.mp h
    cases sym <;> simp [displayCommands, readseq_notMem_showCommands] at hsym
  next => simpa using h
  next => simp at h
  next => simp [beepCommands, readseq_notMem_showCommands] at h
  next => simp [beepCommands, readseq_notMem_showCommands] at h
  next => simp at h

/-- A reset takes the host to its start, but for the draws (R271, log 17). -/
theorem benchStep_reset_game {draw : Nat → Nat → Symbol} {b b' : Bench} (hrst : b.block.rst = true)
    (h : benchStep draw b = .next b') : b'.game = gameRestart b.game := by
  obtain ⟨-, hgame, -⟩ | ⟨hrst', -⟩ | ⟨hrst', -⟩ := benchStep_cases h
  · exact hgame
  · simp [hrst] at hrst'
  · simp [hrst] at hrst'

/-- Settles O54: the end of a round sets Level, GENERATING alone draws, a reset is the start again, and COLLECTING asks
for Level symbols. -/
theorem levelStaysInRange : Obligations.LevelStaysInRange := by
  unfold Obligations.LevelStaysInRange
  intro g draw hlow hhigh
  obtain ⟨hlow', hhigh'⟩ := gameNext_level_range (draw := draw) ⟨hlow, hhigh⟩
  refine ⟨fun hphase hlt => ?_, fun hphase htop => ?_, fun hphase => ?_, fun hphase => ?_,
    gameNext_draws_sequence draw, fun s b hrst hstep => ?_, hlow', hhigh', fun n hn => ?_, gameCommands_wellFormed g⟩
  · rw [gameNext_of_advancing draw hphase, endRound_level, nextLevel, if_pos rfl]
    exact min_eq_right hlt
  · rw [gameNext_of_advancing draw hphase, endRound_level, nextLevel, if_pos rfl, htop]
    rfl
  · rw [gameNext_of_resetting draw hphase]
    rfl
  · rw [gameNext_of_generating draw hphase, enterPhase_sequence, enterPhase_draws]
    exact ⟨drawSequence_length draw g, fun i => drawSequence_get draw g, drawSequence_draws draw g⟩
  · rw [benchStep_reset_game hrst hstep]
    exact ⟨rfl, rfl, rfl, rfl⟩
  · rw [readseq_mem_gameCommands hn]
    exact toNat_operand16 (by omega)

end Sys2Proof.Machine
